-- ==== Sys2Proof/Word.lean ====
section
/-! DEFINITION. The widths of the core's quantities, under the names of the spec (00_scope.md R8, R9).
All are unsigned: there is no signed quantity anywhere in the core (R9). -/

namespace Sys2Proof

/-- A symbol, a byte value 0..255 (R15). -/
abbrev Byte := BitVec 8

/-- A command word or a response word, CW = RW = 64 (R8). -/
abbrev Word := BitVec 64

/-- The 32-bit operand field imm of a command word (30_encoding.md R94). -/
abbrev Imm := BitVec 32

/-- A bit index, the width LW of BLEN and RP (R8). -/
abbrev BitIdx := BitVec 32

/-- A frequency counter FREQ[b], FW = 32 (R8). -/
abbrev Count := BitVec 32

/-- A tree node's frequency, NFW = 40 (R8). -/
abbrev Freq := BitVec 40

/-- The data field of a response and the register FINFO, 40 bits (30_encoding.md R96, 10_state.md R24). -/
abbrev Data := BitVec 40

/-- A node index, NIW = 9 (R8). -/
abbrev NodeIdx := BitVec 9

/-- A status of a response, or a fault code (30_encoding.md R97). -/
abbrev Status := BitVec 8

/-- A bit-string: a finite sequence of bits, element 0 the first bit (R11). -/
abbrev Bits := List Bool

end Sys2Proof
end

