-- ==== Sys2Proof/Syntax.lean ====
section
/-! DEFINITION. The 21 commands of 30_encoding.md R98 as syntax, one constructor per row of spec/opcode_table.json. -/

namespace Sys2Proof

/-- The eleven registers that SYS.RD can read, numbered 0..10 (10_state.md R32). -/
inductive Csr where
  | status | fcode | finfo | blen | rp | cur | root | total | nxt | ndb | bcap
deriving DecidableEq, Repr

/-- A command with its operands (30_encoding.md R98). -/
inductive Instr where
  /-- NOP: do nothing (46_system.md R250). -/
  | nop
  /-- SYS.RD r: read status register r (46_system.md R251). -/
  | sysRd (r : Csr)
  /-- SYS.RESET: put the core in its reset state (46_system.md R252). -/
  | sysReset
  /-- BB.CLR: make the Bit Sequence empty (40_bit_buffer.md R122). -/
  | bbClr
  /-- BB.APP n, v: append the n-bit string packed in v (40_bit_buffer.md R123). -/
  | bbApp (n : Byte) (v : Imm)
  /-- BB.GET idx: read one bit by index (40_bit_buffer.md R124). -/
  | bbGet (idx : BitIdx)
  /-- BB.GETW n, idx: read n consecutive bits, packed (40_bit_buffer.md R125). -/
  | bbGetw (n : Byte) (idx : BitIdx)
  /-- FT.CLR: make the Frequency Table empty (41_frequency_counter.md R141). -/
  | ftClr
  /-- FT.CNT b: count one occurrence of byte b (41_frequency_counter.md R142). -/
  | ftCnt (b : Byte)
  /-- FT.LD b, c: set the count of byte b to c (41_frequency_counter.md R143). -/
  | ftLd (b : Byte) (c : Count)
  /-- FT.RD b: read the count of byte b (41_frequency_counter.md R144). -/
  | ftRd (b : Byte)
  /-- HT.BUILD: build the tree of the present Frequency Table (42_tree_builder.md R161). -/
  | htBuild
  /-- HT.NODE i: read the structure of node i (42_tree_builder.md R174). -/
  | htNode (i : NodeIdx)
  /-- HT.NFREQ i: read the frequency of node i (42_tree_builder.md R175). -/
  | htNfreq (i : NodeIdx)
  /-- CT.GEN: derive the code table from the present tree (43_code_table.md R201). -/
  | ctGen
  /-- CT.LEN b: read whether byte b has a code, and its length (43_code_table.md R206). -/
  | ctLen (b : Byte)
  /-- CT.BITS b, k: read chunk k, 32 bits, of the code of byte b (43_code_table.md R207). -/
  | ctBits (b : Byte) (k : BitVec 3)
  /-- ENC b: append the code of byte b to the Bit Sequence (44_encoder.md R220). -/
  | enc (b : Byte)
  /-- DEC.RST: arm the decoder at the start of the Bit Sequence (45_decoder.md R231). -/
  | decRst
  /-- DEC.BIT: consume one bit (45_decoder.md R233). -/
  | decBit
  /-- DEC.RUN: consume all remaining bits (45_decoder.md R234). -/
  | decRun
deriving DecidableEq, Repr

end Sys2Proof
end

