-- ==== Sys2Proof/WellFormed.lean ====
section
/-! DEFINITION. Which terms of Instr are commands: the operand constraints of 30_encoding.md R99 that the operands'
types do not already keep (SYS.RD's register number, the node index and the chunk number are kept by their types). -/

namespace Sys2Proof

/-- The constraints of R99 on the operands of BB.APP and BB.GETW. Every other command takes any operand its field
allows. What a term that breaks them means is log 13. -/
def Instr.wellFormed : Instr → Bool
  | .bbApp n v => decide (n.toNat ≤ 32) && decide (v.toNat < 2 ^ n.toNat)
  | .bbGetw n _ => decide (n.toNat ≤ 32)
  | .nop => true
  | .sysRd _ => true
  | .sysReset => true
  | .bbClr => true
  | .bbGet _ => true
  | .ftClr => true
  | .ftCnt _ => true
  | .ftLd _ _ => true
  | .ftRd _ => true
  | .htBuild => true
  | .htNode _ => true
  | .htNfreq _ => true
  | .ctGen => true
  | .ctLen _ => true
  | .ctBits _ _ => true
  | .enc _ => true
  | .decRst => true
  | .decBit => true
  | .decRun => true

end Sys2Proof
end

