-- ==== Sys2Proof/Decode.lean ====
section
/-! DEFINITION. The command word: its fields (30_encoding.md R94), its formats (R95), the opcode map (R98), the operand
constraints (R99), the decoding procedure (R105), the same map as mask and match rows, and the encoder. -/

namespace Sys2Proof

/-! ## Fields of a command word (R94) -/

/-- op, bits 63:56. -/
def opField (w : Word) : BitVec 8 := w.extractLsb' 56 8

/-- a, bits 55:48. -/
def aField (w : Word) : Byte := w.extractLsb' 48 8

/-- rsv, bits 47:32; must be 0. -/
def rsvField (w : Word) : BitVec 16 := w.extractLsb' 32 16

/-- imm, bits 31:0. -/
def immField (w : Word) : Imm := w.extractLsb' 0 32

/-- The word with the given op, a and imm fields and rsv = 0. -/
def commandWord (op : BitVec 8) (a : Byte) (imm : Imm) : Word := op ++ a ++ 0#16 ++ imm

/-- Which operand fields a command uses (R95). -/
inductive Format where
  | z | a | i | ai
deriving DecidableEq, Repr

/-- The fields that the format does not use, and rsv, are 0 (R95). -/
def fieldsClear (f : Format) (w : Word) : Bool :=
  decide (rsvField w = 0#16) &&
  match f with
  | .z => decide (aField w = 0#8) && decide (immField w = 0#32)
  | .a => decide (immField w = 0#32)
  | .i => decide (aField w = 0#8)
  | .ai => true

/-! ## The opcode map (R98, R99) -/

/-- The number of a status register (10_state.md R32). -/
def Csr.number : Csr → Byte
  | .status => 0#8
  | .fcode => 1#8
  | .finfo => 2#8
  | .blen => 3#8
  | .rp => 4#8
  | .cur => 5#8
  | .root => 6#8
  | .total => 7#8
  | .nxt => 8#8
  | .ndb => 9#8
  | .bcap => 10#8

/-- The status register with a number; 11..255 do not exist (10_state.md R32). -/
def Csr.ofNumber (r : Byte) : Option Csr :=
  match r.toNat with
  | 0 => some .status
  | 1 => some .fcode
  | 2 => some .finfo
  | 3 => some .blen
  | 4 => some .rp
  | 5 => some .cur
  | 6 => some .root
  | 7 => some .total
  | 8 => some .nxt
  | 9 => some .ndb
  | 10 => some .bcap
  | _ => none

/-- The node index in imm, when imm is at most 511 (R99). -/
def nodeOperand (imm : Imm) : Option NodeIdx :=
  if imm.toNat ≤ 511 then some (imm.setWidth 9) else none

/-- The chunk number in imm, when imm is at most 7 (R99). -/
def chunkOperand (imm : Imm) : Option (BitVec 3) :=
  if imm.toNat ≤ 7 then some (imm.setWidth 3) else none

/-- A row of the opcode map: the command's format, and the command that the operands a and imm make, when they keep
the constraint of R99. -/
structure OpRow where
  fmt : Format
  build : Byte → Imm → Option Instr

/-- The opcode map of R98; the 235 opcodes that it does not list are reserved and illegal (R100). -/
def opRow (op : BitVec 8) : Option OpRow :=
  match op.toNat with
  | 0x00 => some ⟨.z, fun _ _ => some .nop⟩
  | 0x01 => some ⟨.a, fun a _ => (Csr.ofNumber a).map .sysRd⟩
  | 0x02 => some ⟨.z, fun _ _ => some .sysReset⟩
  | 0x10 => some ⟨.z, fun _ _ => some .bbClr⟩
  | 0x11 => some ⟨.ai, fun a imm => if a.toNat ≤ 32 ∧ imm.toNat < 2 ^ a.toNat then some (.bbApp a imm) else none⟩
  | 0x12 => some ⟨.i, fun _ imm => some (.bbGet imm)⟩
  | 0x13 => some ⟨.ai, fun a imm => if a.toNat ≤ 32 then some (.bbGetw a imm) else none⟩
  | 0x20 => some ⟨.z, fun _ _ => some .ftClr⟩
  | 0x21 => some ⟨.a, fun a _ => some (.ftCnt a)⟩
  | 0x22 => some ⟨.ai, fun a imm => some (.ftLd a imm)⟩
  | 0x23 => some ⟨.a, fun a _ => some (.ftRd a)⟩
  | 0x30 => some ⟨.z, fun _ _ => some .htBuild⟩
  | 0x31 => some ⟨.i, fun _ imm => (nodeOperand imm).map .htNode⟩
  | 0x32 => some ⟨.i, fun _ imm => (nodeOperand imm).map .htNfreq⟩
  | 0x40 => some ⟨.z, fun _ _ => some .ctGen⟩
  | 0x41 => some ⟨.a, fun a _ => some (.ctLen a)⟩
  | 0x42 => some ⟨.ai, fun a imm => (chunkOperand imm).map (.ctBits a)⟩
  | 0x50 => some ⟨.a, fun a _ => some (.enc a)⟩
  | 0x60 => some ⟨.z, fun _ _ => some .decRst⟩
  | 0x61 => some ⟨.z, fun _ _ => some .decBit⟩
  | 0x62 => some ⟨.z, fun _ _ => some .decRun⟩
  | _ => none

/-! ## Decoding (R105) -/

/-- Why a word is no command (R100). -/
inductive DecodeError where
  /-- The opcode is not one of R98. -/
  | unknownOpcode
  /-- A field that the format does not use, or rsv, is not 0 (R95). -/
  | nonzeroField
  /-- An operand breaks its constraint (R99). -/
  | operandConstraint
deriving DecidableEq, Repr

/-- The decoding procedure of R105, total on every word: look op up, check the must-be-zero fields, check the operand
constraint. -/
def decode (w : Word) : Except DecodeError Instr :=
  match opRow (opField w) with
  | none => .error .unknownOpcode
  | some row =>
    if fieldsClear row.fmt w then
      match row.build (aField w) (immField w) with
      | some i => .ok i
      | none => .error .operandConstraint
    else .error .nonzeroField

/-- A row of the machine-readable opcode map: its mask, its match, and its constraint on the word. -/
structure MaskRow where
  mask : Word
  pattern : Word
  constraint : Word → Bool

/-- spec/opcode_table.json, row by row: the second form of the decoding procedure (R105). -/
def maskTable : List MaskRow :=
  [ ⟨0xFFFFFFFFFFFFFFFF#64, 0x0000000000000000#64, fun _ => true⟩,
    ⟨0xFF00FFFFFFFFFFFF#64, 0x0100000000000000#64, fun w => decide ((aField w).toNat ≤ 10)⟩,
    ⟨0xFFFFFFFFFFFFFFFF#64, 0x0200000000000000#64, fun _ => true⟩,
    ⟨0xFFFFFFFFFFFFFFFF#64, 0x1000000000000000#64, fun _ => true⟩,
    ⟨0xFF00FFFF00000000#64, 0x1100000000000000#64,
      fun w => decide ((aField w).toNat ≤ 32) && decide ((immField w).toNat < 2 ^ (aField w).toNat)⟩,
    ⟨0xFFFFFFFF00000000#64, 0x1200000000000000#64, fun _ => true⟩,
    ⟨0xFF00FFFF00000000#64, 0x1300000000000000#64, fun w => decide ((aField w).toNat ≤ 32)⟩ ] ++
  [ ⟨0xFFFFFFFFFFFFFFFF#64, 0x2000000000000000#64, fun _ => true⟩,
    ⟨0xFF00FFFFFFFFFFFF#64, 0x2100000000000000#64, fun _ => true⟩,
    ⟨0xFF00FFFF00000000#64, 0x2200000000000000#64, fun _ => true⟩,
    ⟨0xFF00FFFFFFFFFFFF#64, 0x2300000000000000#64, fun _ => true⟩,
    ⟨0xFFFFFFFFFFFFFFFF#64, 0x3000000000000000#64, fun _ => true⟩,
    ⟨0xFFFFFFFFFFFFFE00#64, 0x3100000000000000#64, fun _ => true⟩,
    ⟨0xFFFFFFFFFFFFFE00#64, 0x3200000000000000#64, fun _ => true⟩ ] ++
  [ ⟨0xFFFFFFFFFFFFFFFF#64, 0x4000000000000000#64, fun _ => true⟩,
    ⟨0xFF00FFFFFFFFFFFF#64, 0x4100000000000000#64, fun _ => true⟩,
    ⟨0xFF00FFFFFFFFFFF8#64, 0x4200000000000000#64, fun _ => true⟩,
    ⟨0xFF00FFFFFFFFFFFF#64, 0x5000000000000000#64, fun _ => true⟩,
    ⟨0xFFFFFFFFFFFFFFFF#64, 0x6000000000000000#64, fun _ => true⟩,
    ⟨0xFFFFFFFFFFFFFFFF#64, 0x6100000000000000#64, fun _ => true⟩,
    ⟨0xFFFFFFFFFFFFFFFF#64, 0x6200000000000000#64, fun _ => true⟩ ]

/-- A word matches a row when the masked word is the row's match and its constraint holds (R105). -/
def MaskRow.matches (row : MaskRow) (w : Word) : Bool := decide (w &&& row.mask = row.pattern) && row.constraint w

/-- What the decoder reads from an instruction given as a number, bit 0 the least significant bit of the word. Every
command is one word of 64 bits (R102), so the bits at nbits and above are 0 and nothing follows. -/
def decodeTableWord (nbits w : Nat) : Option Instr := (decode (BitVec.ofNat 64 (w % 2 ^ nbits))).toOption

/-! ## Encoding (R94, R98) -/

/-- The opcode of a command (R98). -/
def Instr.opcode : Instr → BitVec 8
  | .nop => 0x00#8
  | .sysRd _ => 0x01#8
  | .sysReset => 0x02#8
  | .bbClr => 0x10#8
  | .bbApp _ _ => 0x11#8
  | .bbGet _ => 0x12#8
  | .bbGetw _ _ => 0x13#8
  | .ftClr => 0x20#8
  | .ftCnt _ => 0x21#8
  | .ftLd _ _ => 0x22#8
  | .ftRd _ => 0x23#8
  | .htBuild => 0x30#8
  | .htNode _ => 0x31#8
  | .htNfreq _ => 0x32#8
  | .ctGen => 0x40#8
  | .ctLen _ => 0x41#8
  | .ctBits _ _ => 0x42#8
  | .enc _ => 0x50#8
  | .decRst => 0x60#8
  | .decBit => 0x61#8
  | .decRun => 0x62#8

/-- The a field of a command, 0 where the format does not use it (R95, R98). -/
def Instr.aOperand : Instr → Byte
  | .sysRd r => r.number
  | .bbApp n _ => n
  | .bbGetw n _ => n
  | .ftCnt b => b
  | .ftLd b _ => b
  | .ftRd b => b
  | .ctLen b => b
  | .ctBits b _ => b
  | .enc b => b
  | .nop => 0#8
  | .sysReset => 0#8
  | .bbClr => 0#8
  | .bbGet _ => 0#8
  | .ftClr => 0#8
  | .htBuild => 0#8
  | .htNode _ => 0#8
  | .htNfreq _ => 0#8
  | .ctGen => 0#8
  | .decRst => 0#8
  | .decBit => 0#8
  | .decRun => 0#8

/-- The imm field of a command, 0 where the format does not use it (R95, R98). -/
def Instr.immOperand : Instr → Imm
  | .bbApp _ v => v
  | .bbGet idx => idx
  | .bbGetw _ idx => idx
  | .ftLd _ c => c
  | .htNode i => i.setWidth 32
  | .htNfreq i => i.setWidth 32
  | .ctBits _ k => k.setWidth 32
  | .nop => 0#32
  | .sysRd _ => 0#32
  | .sysReset => 0#32
  | .bbClr => 0#32
  | .ftClr => 0#32
  | .ftCnt _ => 0#32
  | .ftRd _ => 0#32
  | .htBuild => 0#32
  | .ctGen => 0#32
  | .ctLen _ => 0#32
  | .enc _ => 0#32
  | .decRst => 0#32
  | .decBit => 0#32
  | .decRun => 0#32

/-- The command word of a command. -/
def encode (i : Instr) : Word := commandWord i.opcode i.aOperand i.immOperand

/-- The name of a command in the opcode map (R98). -/
def Instr.mnemonic : Instr → String
  | .nop => "NOP"
  | .sysRd _ => "SYS.RD"
  | .sysReset => "SYS.RESET"
  | .bbClr => "BB.CLR"
  | .bbApp _ _ => "BB.APP"
  | .bbGet _ => "BB.GET"
  | .bbGetw _ _ => "BB.GETW"
  | .ftClr => "FT.CLR"
  | .ftCnt _ => "FT.CNT"
  | .ftLd _ _ => "FT.LD"
  | .ftRd _ => "FT.RD"
  | .htBuild => "HT.BUILD"
  | .htNode _ => "HT.NODE"
  | .htNfreq _ => "HT.NFREQ"
  | .ctGen => "CT.GEN"
  | .ctLen _ => "CT.LEN"
  | .ctBits _ _ => "CT.BITS"
  | .enc _ => "ENC"
  | .decRst => "DEC.RST"
  | .decBit => "DEC.BIT"
  | .decRun => "DEC.RUN"

end Sys2Proof
end

