-- ==== Sys2Proof/Config.lean ====
section
/-! DEFINITION. The parameters of the core (00_scope.md R8): the fixed ones as numbers, the one open parameter BCAP
as a constant that nothing in Lean can evaluate. -/

namespace Sys2Proof

/-- The open parameter behind BCAP. It has no body: a claim about the model holds for every value of it (log 3). -/
opaque Config.bcapParam : BitVec 32

/-- BCAP, the capacity of the bit buffer in bits: OPEN, 1 .. 2^32-1 (R8; 92_eei_decisions.md D14). Every number of
that range is the value of some `Config.bcapParam`, and no other number is. -/
def Config.bcap : Nat := max 1 Config.bcapParam.toNat

/-- NULL, the node index 511 that names no node (R8, R14). -/
def Config.null : NodeIdx := 511#9

/-- The index of the first Internal node, and the value of NXT when no Internal node exists (42_tree_builder.md R163,
R164; 10_state.md R37). -/
def Config.firstInternal : NodeIdx := 256#9

/-- NNODE, the number of node records (R8). -/
def Config.nnode : Nat := 511

/-- The greatest count of a frequency counter, 2^32 - 1 (R8, 41_frequency_counter.md R142). -/
def Config.maxCount : Count := 0xFFFFFFFF#32

/-- CLMAX, the greatest code length in bits (R8, 43_code_table.md R204). -/
def Config.clmax : Nat := 255

end Sys2Proof
end

