-- ==== Sys2Proof/Machine/State.lean ====
section
/-! DEFINITION. The state of the core as plain data (10_state.md R20), the channels around it (30_encoding.md R90), the
fault causes (60_exceptions.md R281), and the state after reset (10_state.md R37). -/

namespace Sys2Proof.Machine

/-- A record of the node memory (R27) as the tagged variant that 90_conflicts.md C4 names. `absent` is a record whose
nv is 0: its other fields are unspecified and unreadable (R37, R38), so they are not held (log 6). A child index 511
is NULL. -/
inductive Node where
  | absent
  | leaf (byte : Byte) (freq : Freq)
  | internal (left right : NodeIdx) (freq : Freq)
deriving DecidableEq, Repr

/-- The complete state of the core, R20, and nothing else. Arrays whose cells beyond a count hold no value are held as
the list of the cells that do, so BLEN is the length of `bits` and HN the length of `heap` (logs 4 and 5); CVAL[b] and
CLEN[b] say whether `code[b]` has an entry and how long it is (log 7). -/
structure CoreState where
  /-- BITS[0..BLEN), element i is BITS[i] (R25). -/
  bits : Bits
  /-- FREQ, the Frequency Table (R26). -/
  freq : Vector Count 256
  /-- NODE, the tree nodes (R27). -/
  nodes : Vector Node 511
  /-- ROOT, the index of the root node, or NULL (R28). -/
  root : NodeIdx
  /-- TOTAL, the total frequency of the tree (R28). -/
  total : Freq
  /-- NXT, the index the next Internal node would take (R28). -/
  nxt : NodeIdx
  /-- HEAP[0..HN), the min-priority collection; hidden (R29). -/
  heap : List NodeIdx
  /-- CVAL, CLEN, CBITS: the code of each byte that has one, a bit-string (R30). -/
  code : Vector (Option Bits) 256
  /-- RP, the index of the next bit the decoder reads (R31). -/
  rp : BitIdx
  /-- CUR, the decoder's cursor node (R31). -/
  cur : NodeIdx
  /-- FLT: a fault has been taken (R23). -/
  flt : Bool
  /-- TV: NODE, ROOT, TOTAL, NXT describe the tree of the present FREQ (R23). -/
  tv : Bool
  /-- CV: the code table is that of the present tree (R23). -/
  cv : Bool
  /-- DV: the decoder is armed (R23). -/
  dv : Bool
  /-- FCODE, the code of the fault taken, 0 when none (R24). -/
  fcode : Status
  /-- FINFO, the information word of the fault taken, 0 when none (R24). -/
  finfo : Data
deriving DecidableEq, Repr

/-- What the host does next at the core's ports (30_encoding.md R90, R91; 70_reset_and_hazards.md R320). -/
inductive HostInput where
  /-- The host transfers a command word, and takes its bytes and its response. -/
  | command (w : Word)
  /-- The host asserts rst while no command is in execution. -/
  | reset
  /-- The host transfers a command word and asserts rst while the command is in execution, when `taken` of its output
  bytes have been transferred (log 8). -/
  | commandThenReset (w : Word) (taken : Nat)
deriving DecidableEq, Repr

/-- One transfer from the core to the host (30_encoding.md R92, R93). -/
inductive Transfer where
  /-- One transfer on the output byte channel: `emit(b)`. -/
  | byteOut (b : Byte)
  /-- One transfer on the response channel. -/
  | response (w : Word)
deriving DecidableEq, Repr

/-- The core with the two histories of its ports. `inputs` is what the host will still do, the next thing first, and
`trace` is every transfer the core has made, oldest first; they are the model's own fields and no state of the core
(R34; log 1). -/
structure State where
  core : CoreState
  inputs : List HostInput
  trace : List Transfer
deriving DecidableEq, Repr

/-- The flag a command needs (60_exceptions.md R281, the NotReady row; 10_state.md R23). -/
inductive Need where
  /-- TV: CT.GEN, DEC.RST, HT.NODE, HT.NFREQ. -/
  | tree
  /-- CV: ENC, CT.LEN, CT.BITS. -/
  | codeTable
  /-- DV: DEC.BIT, DEC.RUN. -/
  | decoder
deriving DecidableEq, Repr

/-- The three cases of a malformed stream (45_decoder.md R237). -/
inductive StreamCase where
  /-- Case 1: the bits are exhausted mid-path. -/
  | truncated
  /-- Case 2: bit 0 at a node whose left child is NULL. -/
  | noTransition
  /-- Case 3: a bit is to be consumed at the sentinel Leaf. -/
  | emptyTree
deriving DecidableEq, Repr

/-- A fault of the core with what its information word tells (60_exceptions.md R281). Taking one is a next state of the
model (R290), never one of the two outcomes below. -/
inductive Cause where
  /-- The word is not a legal command; op and a are its bits 63:48 (R282). -/
  | illegalCommand (op : BitVec 8) (a : Byte)
  /-- The flag that the command needs is 0 (R289). -/
  | notReady (need : Need)
  /-- FREQ[b] is already 2^32-1 (R284). -/
  | countOverflow (b : Byte)
  /-- An index outside the readable range (R294). -/
  | indexRange (idx : BitIdx)
  /-- The n bits to append do not fit (R286). -/
  | bitOverflow (n : Byte)
  /-- CVAL[b] is 0 (R285). -/
  | missingCode (b : Byte)
  /-- The stream is malformed at bit rp (R287). -/
  | malformedStream (which : StreamCase) (rp : BitIdx)
deriving DecidableEq, Repr

/-- The reasons for which the MODEL would stop with a fault: none. The spec gives every word an effect in every state
of the core, its own faults included (60_exceptions.md R290, R291), so no constructor is needed (log 14). -/
inductive Fault where
deriving DecidableEq, Repr

/-- The reasons for which the model would give an instruction no meaning. -/
inductive Refusal where
  /-- Raised by an arm of `exec` for an instruction that has no meaning yet; no arm raises it. Safe: the model stops
  where the core goes on (log 14). -/
  | notModelled (mnemonic : String)
deriving DecidableEq, Repr

/-- The state of the core after reset, row by row of 10_state.md R37. -/
def CoreState.reset : CoreState :=
  { bits := []
    freq := Vector.replicate 256 0#32
    nodes := Vector.replicate 511 .absent
    root := Config.null
    total := 0#40
    nxt := Config.firstInternal
    heap := []
    code := Vector.replicate 256 none
    rp := 0#32
    cur := Config.null
    flt := false
    tv := false
    cv := false
    dv := false
    fcode := 0#8
    finfo := 0#40 }

/-- The machine right after reset: the core as R37 says, no input waiting and no transfer made (log 1). -/
def State.reset : State := { core := CoreState.reset, inputs := [], trace := [] }

end Sys2Proof.Machine
end

