-- ==== Sys2Proof/Machine/Operands.lean ====
section
/-! DEFINITION. The operand forms: bit-strings packed into integers (00_scope.md R12, 20_memory.md R63), values widened
to the 40-bit data field (R77), the response word (30_encoding.md R96), and the data words of the read-back commands. -/

namespace Sys2Proof.Machine

/-! ## Bit-strings in words (R12) -/

/-- pack(s): the first bit is the most significant of the len(s) bits. -/
def pack (s : Bits) : Nat := s.foldl (fun acc b => 2 * acc + b.toNat) 0

/-- unpack(n, v): the bit-string s of length n with s[i] = v[n-1-i]. -/
def unpack (n v : Nat) : Bits := (List.range n).map fun i => v.testBit (n - 1 - i)

/-! ## The data field and the response word (30_encoding.md R96, R97) -/

/-- A natural number in the 40-bit data field. -/
def dataOfNat (n : Nat) : Data := BitVec.ofNat 40 n

/-- A register or a cell, zero-extended to the data field (20_memory.md R77). -/
def zext40 {w : Nat} (v : BitVec w) : Data := v.setWidth 40

/-- The response word: status in 63:56, zeros in 55:40, data in 39:0. -/
def responseWord (st : Status) (data : Data) : Word := st ++ 0#16 ++ data

/-- Status OK (R97). -/
def statusOk : Status := 0x00#8

/-- Status Refused, not a fault code (R97). -/
def statusRefused : Status := 0xFF#8

/-- The response of a completed command. -/
def okWord (data : Data) : Word := responseWord statusOk data

/-- The response of a word sent to a faulted core: data 0 (60_exceptions.md R291). -/
def refusedWord : Word := responseWord statusRefused 0#40

/-! ## Fields of a node record (10_state.md R27, 00_scope.md R14) -/

/-- nv: the record is part of the present tree. -/
def Node.nv : Node → Bool
  | .absent => false
  | .leaf _ _ => true
  | .internal _ _ _ => true

/-- Internal(i): kind is 1. A record whose nv is 0 reads as zeros (20_memory.md R60), so its kind is 0. -/
def Node.isInternal : Node → Bool
  | .absent => false
  | .leaf _ _ => false
  | .internal _ _ _ => true

/-- Leaf(i): kind is 0. -/
def Node.isLeaf (n : Node) : Bool := !n.isInternal

/-- byte: a Leaf's byte value; 0 in an Internal record. -/
def Node.byte : Node → Byte
  | .absent => 0#8
  | .leaf b _ => b
  | .internal _ _ _ => 0#8

/-- freq: a Leaf's count, or the sum of an Internal node's subtrees. -/
def Node.freq : Node → Freq
  | .absent => 0#40
  | .leaf _ f => f
  | .internal _ _ f => f

/-- left: the left child, NULL in a Leaf. -/
def Node.left : Node → NodeIdx
  | .absent => 0#9
  | .leaf _ _ => Config.null
  | .internal l _ _ => l

/-- right: the right child, NULL in a Leaf. -/
def Node.right : Node → NodeIdx
  | .absent => 0#9
  | .leaf _ _ => Config.null
  | .internal _ r _ => r

/-- The data word of HT.NODE (42_tree_builder.md R174): nv in bit 0, kind in bit 1, byte in 9:2, left in 18:10, right
in 27:19; 0 for a record outside the present tree. -/
def Node.dataWord (n : Node) : Data :=
  if n.nv then
    1#40 ||| ((BitVec.ofBool n.isInternal).setWidth 40 <<< 1) ||| (n.byte.setWidth 40 <<< 2)
      ||| (n.left.setWidth 40 <<< 10) ||| (n.right.setWidth 40 <<< 19)
  else 0#40

/-! ## Data words of the code table and the decoder -/

/-- The data word of CT.LEN (43_code_table.md R206): CVAL in bit 8, CLEN in 7:0. -/
def codeLenWord (cval : Bool) (clen : Byte) : Data :=
  ((BitVec.ofBool cval).setWidth 40 <<< 8) ||| clen.setWidth 40

/-- Chunk k of a code (43_code_table.md R207): bits 32k up to 32k+32 or the end; empty when 32k is at or past the
end. -/
def codeChunk (code : Bits) (k : BitVec 3) : Bits := (code.drop (32 * k.toNat)).take 32

/-- The data word of DEC.BIT at the end of the bits: END, bit 9 (45_decoder.md R233). -/
def endWord : Data := 1#40 <<< 9

/-- The data word of a bit step (45_decoder.md R233): emitted in bit 8, the byte in 7:0; 0 when none was emitted. -/
def bitStepWord : Option Byte → Data
  | some b => (1#40 <<< 8) ||| b.setWidth 40
  | none => 0#40

/-- The node index of the Leaf of byte b: b itself (42_tree_builder.md R163, R164). -/
def leafIdx (b : Byte) : NodeIdx := b.setWidth 9

end Sys2Proof.Machine
end

