-- ==== Sys2Proof/Machine/Flags.lean ====
section
/-! DEFINITION. The four flags: the STATUS register they make (10_state.md R32), the flag that a command needs (R23),
what withdraws them (R39), and the codes and information words of the faults (60_exceptions.md R281). -/

namespace Sys2Proof.Machine

/-- STATUS: FLT in bit 0, TV in bit 1, CV in bit 2, DV in bit 3 (R32). -/
def CoreState.status (c : CoreState) : BitVec 4 :=
  BitVec.ofBool c.dv ++ BitVec.ofBool c.cv ++ BitVec.ofBool c.tv ++ BitVec.ofBool c.flt

/-- The value of the flag that a command needs (R23). -/
def CoreState.ready (c : CoreState) : Need → Bool
  | .tree => c.tv
  | .codeTable => c.cv
  | .decoder => c.dv

/-- A write to FREQ withdraws everything derived from it: TV, CV, DV are cleared (R23, R39; 20_memory.md R74). -/
def CoreState.withdrawDerived (c : CoreState) : CoreState := { c with tv := false, cv := false, dv := false }

/-- The missing flag in the information word of NotReady (60_exceptions.md R281). -/
def Need.info : Need → Data
  | .tree => 1#40
  | .codeTable => 2#40
  | .decoder => 3#40

/-- The case code of MalformedStream, FINFO[33:32] (45_decoder.md R237). -/
def StreamCase.code : StreamCase → BitVec 8
  | .truncated => 0#8
  | .noTransition => 1#8
  | .emptyTree => 2#8

/-- The code of a fault (60_exceptions.md R281, 30_encoding.md R97). -/
def Cause.code : Cause → Status
  | .illegalCommand _ _ => 0x01#8
  | .notReady _ => 0x02#8
  | .countOverflow _ => 0x03#8
  | .indexRange _ => 0x04#8
  | .bitOverflow _ => 0x05#8
  | .missingCode _ => 0x06#8
  | .malformedStream _ _ => 0x07#8

/-- The information word of a fault (60_exceptions.md R281). -/
def Cause.info : Cause → Data
  | .illegalCommand op a => zext40 (op ++ a)
  | .notReady need => need.info
  | .countOverflow b => zext40 b
  | .indexRange idx => zext40 idx
  | .bitOverflow n => zext40 n
  | .missingCode b => zext40 b
  | .malformedStream which rp => which.code ++ rp

end Sys2Proof.Machine
end

