-- ==== Sys2Proof/Machine/Ops.lean ====
section
/-! DEFINITION. The named operations over the core's memories and registers, taking a fault and the return from it
(60_exceptions.md R290, R292), and how a command runs, responds and is refused (R288, R291; 30_encoding.md R92). -/

namespace Sys2Proof.Machine

/-! ## Reading and writing the memories (20_memory.md R60) -/

/-- BLEN, the number of bits in the Bit Sequence (10_state.md R25). -/
def CoreState.blen (c : CoreState) : Nat := c.bits.length

/-- BITS[i]; every command has checked i < BLEN before (00_scope.md R13, log 11). -/
def CoreState.bitAt (c : CoreState) (i : Nat) : Bool := c.bits.getD i false

/-- HN, the number of heap entries in use (10_state.md R29). -/
def CoreState.hn (c : CoreState) : Nat := c.heap.length

/-- FREQ[b]. -/
def CoreState.freqAt (c : CoreState) (b : Byte) : Count := c.freq[b.toNat]'b.isLt

/-- FREQ[b] <- n. -/
def CoreState.setFreq (c : CoreState) (b : Byte) (n : Count) : CoreState := { c with freq := c.freq.set b.toNat n b.isLt }

/-- NODE[i]; the index 511 names no record (log 11). -/
def nodeAt (nodes : Vector Node 511) (i : NodeIdx) : Node := if h : i.toNat < 511 then nodes[i.toNat] else .absent

/-- NODE[i] <- n. -/
def setNode (nodes : Vector Node 511) (i : NodeIdx) (n : Node) : Vector Node 511 := nodes.setIfInBounds i.toNat n

/-- The entry of byte b in the code table: its code, when CVAL[b] is 1 (10_state.md R30). -/
def codeAt (code : Vector (Option Bits) 256) (b : Byte) : Option Bits := code[b.toNat]'b.isLt

/-- CVAL[b] <- 1, CLEN[b] <- len(s), CBITS[b] <- s. -/
def setCode (code : Vector (Option Bits) 256) (b : Byte) (s : Bits) : Vector (Option Bits) 256 :=
  code.set b.toNat (some s) b.isLt

/-- CVAL[b] (10_state.md R30). -/
def CoreState.cval (c : CoreState) (b : Byte) : Bool := (codeAt c.code b).isSome

/-- CLEN[b]: the length of the entry, 0 when there is none (10_state.md R30). -/
def CoreState.clen (c : CoreState) (b : Byte) : Nat := ((codeAt c.code b).getD []).length

/-- The byte values 0 .. 255, ascending. -/
def allBytes : List Byte := (List.range 256).map (BitVec.ofNat 8)

/-- The keys of the Frequency Table, ascending: the b with FREQ[b] != 0 (10_state.md R26, 42_tree_builder.md R161). -/
def keysOf (freq : Vector Count 256) : List Byte := allBytes.filter fun b => decide (freq[b.toNat]'b.isLt ≠ 0#32)

/-- NDB, the number of distinct bytes, 0..256; computed on read, not stored (10_state.md R33). -/
def CoreState.ndb (c : CoreState) : Nat := (keysOf c.freq).length

/-- The form of the memories that are held as lists: the Bit Sequence is within the capacity, and the heap is empty
between commands (10_state.md R35 items 1 and 8). Every other memory is a vector and has one form only. -/
abbrev Memory.wf (c : CoreState) : Prop := c.bits.length ≤ Config.bcap ∧ c.heap = []

/-! ## Taking a fault and the return from it -/

/-- Fault entry, `raise F(info)` (60_exceptions.md R290): FLT, FCODE and FINFO are written and nothing else. No handler
is entered, nothing is saved. -/
def takeFault (f : Cause) (c : CoreState) : CoreState := { c with flt := true, fcode := f.code, finfo := f.info }

/-- The only way out of the faulted state: reset, which discards all state (60_exceptions.md R292;
70_reset_and_hazards.md R321). -/
def resetCore (_c : CoreState) : CoreState := CoreState.reset

/-! ## How a command ends -/

/-- How a command's pseudocode ends: `respond(d)`, or `raise F(info)` (00_scope.md R13). -/
inductive Verdict where
  | ok (data : Data)
  | raised (f : Cause)
deriving DecidableEq, Repr

/-- What a command's pseudocode leaves: the state of the core before fault entry, the bytes emitted, and its end. -/
structure CmdResult where
  core : CoreState
  emitted : List Byte
  verdict : Verdict
deriving DecidableEq, Repr

/-- `respond(d)` with the state c; nothing emitted. -/
def respond (c : CoreState) (d : Data) : CmdResult := { core := c, emitted := [], verdict := .ok d }

/-- `raise f` with the state c; nothing emitted. -/
def raise (f : Cause) (c : CoreState) : CmdResult := { core := c, emitted := [], verdict := .raised f }

/-- The state of the core after the command: its effects, and fault entry when it raised (60_exceptions.md R290). -/
def CmdResult.finalCore (r : CmdResult) : CoreState :=
  match r.verdict with
  | .ok _ => r.core
  | .raised f => takeFault f r.core

/-- The one response word of the command (30_encoding.md R92, R96; 60_exceptions.md R290). -/
def CmdResult.responseWord (r : CmdResult) : Word :=
  match r.verdict with
  | .ok d => okWord d
  | .raised f => Machine.responseWord f.code f.info

/-- The command's transfers: every byte emitted, in order, and then its response (30_encoding.md R93). -/
def CmdResult.transfers (r : CmdResult) : List Transfer := r.emitted.map .byteOut ++ [.response r.responseWord]

/-- The machine after a command with this result. -/
def State.commit (s : State) (r : CmdResult) : State :=
  { s with core := r.finalCore, trace := s.trace ++ r.transfers }

/-- The machine after a word that a faulted core refuses: a response, and no state changes at all
(60_exceptions.md R291). -/
def State.refuse (s : State) : State := { s with trace := s.trace ++ [.response refusedWord] }

/-- Check the flag that the command needs, then run its pseudocode (60_exceptions.md R288, steps 3 and 4). -/
def withNeed (need : Option Need) (body : CoreState → CmdResult) (c : CoreState) : CmdResult :=
  match need with
  | none => body c
  | some n => if c.ready n then body c else raise (.notReady n) c

/-- Run a command that a faulted core refuses: every command but SYS.RD and SYS.RESET (60_exceptions.md R288, steps 1,
3 and 4). -/
def runGated (need : Option Need) (body : CoreState → CmdResult) (s : State) : Host.Outcome State Fault Refusal :=
  if s.core.flt then .next s.refuse else .next (s.commit (withNeed need body s.core))

/-- Run a command that executes while FLT = 1 as well: SYS.RD and SYS.RESET (60_exceptions.md R288, step 1). -/
def runAlways (body : CoreState → CmdResult) (s : State) : Host.Outcome State Fault Refusal :=
  .next (s.commit (body s.core))

end Sys2Proof.Machine
end

