-- ==== Sys2Proof/Machine/BitBuffer.lean ====
section
/-! DEFINITION. The bit buffer (40_bit_buffer.md): the append primitive and BB.CLR, BB.APP, BB.GET, BB.GETW. -/

namespace Sys2Proof.Machine

/-- `Append(s)` of R121, used by BB.APP and ENC, for a buffer of capacity bcap: the whole string lands at index BLEN,
or, when it would pass the capacity, nothing does. -/
def appendBits (bcap : Nat) (bs : Bits) (c : CoreState) : Except Cause CoreState :=
  if bcap < c.blen + bs.length then .error (.bitOverflow (BitVec.ofNat 8 bs.length))
  else .ok { c with bits := c.bits ++ bs }

/-- Append a bit-string and respond with the new length (R123, 44_encoder.md R220). -/
def appendAndRespond (bcap : Nat) (bs : Bits) (c : CoreState) : CmdResult :=
  match appendBits bcap bs c with
  | .error f => raise f c
  | .ok c' => respond c' (dataOfNat c'.blen)

/-- `MemRead(i, n)`: the bit-string BITS[i], ..., BITS[i+n-1] (00_scope.md R13). -/
def memRead (c : CoreState) (i n : Nat) : Bits := (c.bits.drop i).take n

/-- The pseudocode of BB.CLR (R122). -/
def bbClrBody (c : CoreState) : CmdResult := respond { c with bits := [], rp := 0#32, dv := false } 0#40

/-- The pseudocode of BB.APP (R123). -/
def bbAppBody (bcap : Nat) (n : Byte) (v : Imm) (c : CoreState) : CmdResult :=
  appendAndRespond bcap (unpack n.toNat v.toNat) c

/-- The pseudocode of BB.GET (R124). -/
def bbGetBody (idx : BitIdx) (c : CoreState) : CmdResult :=
  if c.blen ≤ idx.toNat then raise (.indexRange idx) c
  else respond c (dataOfNat (c.bitAt idx.toNat).toNat)

/-- The pseudocode of BB.GETW (R125); the sum is formed without wrap. -/
def bbGetwBody (n : Byte) (idx : BitIdx) (c : CoreState) : CmdResult :=
  if c.blen < idx.toNat + n.toNat then raise (.indexRange idx) c
  else respond c (dataOfNat (pack (memRead c idx.toNat n.toNat)))

/-- BB.CLR (R122). -/
def execBbClr (s : State) : Host.Outcome State Fault Refusal := runGated none bbClrBody s

/-- BB.APP n, v (R123). -/
def execBbApp (n : Byte) (v : Imm) (s : State) : Host.Outcome State Fault Refusal :=
  runGated none (bbAppBody Config.bcap n v) s

/-- BB.GET idx (R124). -/
def execBbGet (idx : BitIdx) (s : State) : Host.Outcome State Fault Refusal := runGated none (bbGetBody idx) s

/-- BB.GETW n, idx (R125). -/
def execBbGetw (n : Byte) (idx : BitIdx) (s : State) : Host.Outcome State Fault Refusal :=
  runGated none (bbGetwBody n idx) s

end Sys2Proof.Machine
end

