-- ==== Sys2Proof/Machine/CodeTable.lean ====
section
/-! DEFINITION. The code-table generator (43_code_table.md): CT.GEN, CT.LEN, CT.BITS. -/

namespace Sys2Proof.Machine

/-- `Derive(i, s)` (R202): the path to each Leaf, 0 for a step to the left and 1 for a step to the right; a NULL left
child is skipped. `fuel` bounds the depth (log 12). R202 defines it for nv(i) = 1 alone; that an absent record adds no entry
is the model's choice (log 11). -/
def derive (nodes : Vector Node 511) : Nat → NodeIdx → Bits → Vector (Option Bits) 256 → Vector (Option Bits) 256
  | 0, _, _, code => code
  | fuel + 1, i, path, code =>
    match nodeAt nodes i with
    | .absent => code
    | .leaf b _ => setCode code b path
    | .internal l r _ =>
      derive nodes fuel r (path ++ [true])
        (if l = Config.null then code else derive nodes fuel l (path ++ [false]) code)

/-- `deriveCodes(tree) -> CodeTable` (R201): the table is emptied, and a root that is a Leaf yields no entry (R203). -/
def deriveCodes (nodes : Vector Node 511) (root : NodeIdx) : Vector (Option Bits) 256 :=
  if (nodeAt nodes root).isInternal then derive nodes Config.nnode root [] (Vector.replicate 256 none)
  else Vector.replicate 256 none

/-- The number of b with CVAL[b] = 1 (R201). -/
def codeCount (code : Vector (Option Bits) 256) : Nat := (allBytes.filter fun b => (codeAt code b).isSome).length

/-- The pseudocode of CT.GEN after the flag check (R201). -/
def ctGenBody (c : CoreState) : CmdResult :=
  respond { c with code := deriveCodes c.nodes c.root, cv := true } (dataOfNat (codeCount (deriveCodes c.nodes c.root)))

/-- The pseudocode of CT.LEN after the flag check (R206). -/
def ctLenBody (b : Byte) (c : CoreState) : CmdResult :=
  respond c (codeLenWord (c.cval b) (BitVec.ofNat 8 (c.clen b)))

/-- The pseudocode of CT.BITS after the flag check (R207). -/
def ctBitsBody (b : Byte) (k : BitVec 3) (c : CoreState) : CmdResult :=
  match codeAt c.code b with
  | none => raise (.missingCode b) c
  | some s => respond c (dataOfNat (pack (codeChunk s k)))

/-- CT.GEN (R201). -/
def execCtGen (s : State) : Host.Outcome State Fault Refusal := runGated (some .tree) ctGenBody s

/-- CT.LEN b (R206). -/
def execCtLen (b : Byte) (s : State) : Host.Outcome State Fault Refusal := runGated (some .codeTable) (ctLenBody b) s

/-- CT.BITS b, k (R207). -/
def execCtBits (b : Byte) (k : BitVec 3) (s : State) : Host.Outcome State Fault Refusal :=
  runGated (some .codeTable) (ctBitsBody b k) s

end Sys2Proof.Machine
end

