-- ==== Sys2Proof/Machine/Decoder.lean ====
section
/-! DEFINITION. The decoder (45_decoder.md): the bit step, and DEC.RST, DEC.BIT, DEC.RUN. -/

namespace Sys2Proof.Machine

/-- The cursor after a move to node t: a Leaf emits its byte and sends the cursor back to the root (R232). -/
def arrive (c : CoreState) (t : NodeIdx) : CoreState × Option Byte :=
  if (nodeAt c.nodes t).isLeaf then ({ c with cur := c.root }, some (nodeAt c.nodes t).byte)
  else ({ c with cur := t }, none)

/-- `BitStep()` (R232), used when RP < BLEN: the state after the step and the byte emitted, or the fault, when nothing
has changed. -/
def bitStep (c : CoreState) : Except Cause (CoreState × Option Byte) :=
  if (nodeAt c.nodes c.cur).isLeaf then .error (.malformedStream .emptyTree c.rp)
  else if c.bitAt c.rp.toNat then
    .ok (arrive { c with rp := c.rp + 1#32 } (nodeAt c.nodes c.cur).right)
  else if (nodeAt c.nodes c.cur).left = Config.null then .error (.malformedStream .noTransition c.rp)
  else .ok (arrive { c with rp := c.rp + 1#32 } (nodeAt c.nodes c.cur).left)

/-- The pseudocode of DEC.RST after the flag check (R231). -/
def decRstBody (c : CoreState) : CmdResult := respond { c with cur := c.root, rp := 0#32, dv := true } 0#40

/-- The pseudocode of DEC.BIT after the flag check (R233). -/
def decBitBody (c : CoreState) : CmdResult :=
  if c.rp.toNat < c.blen then
    match bitStep c with
    | .error f => raise f c
    | .ok (c', e) => { core := c', emitted := e.toList, verdict := .ok (bitStepWord e) }
  else if c.cur = c.root then respond c endWord
  else raise (.malformedStream .truncated c.rp) c

/-- The loop of DEC.RUN and its final check (R234), with the bytes emitted so far. A bit step that raises leaves the
steps before it standing. -/
def decRunLoop : Nat → CoreState → List Byte → CmdResult
  | 0, c, out =>
    if c.cur = c.root then { core := c, emitted := out, verdict := .ok (dataOfNat out.length) }
    else { core := c, emitted := out, verdict := .raised (.malformedStream .truncated c.rp) }
  | n + 1, c, out =>
    match bitStep c with
    | .error f => { core := c, emitted := out, verdict := .raised f }
    | .ok (c', e) => decRunLoop n c' (out ++ e.toList)

/-- The pseudocode of DEC.RUN after the flag check (R234): `while RP < BLEN` is BLEN - RP bit steps, each of which adds
1 to RP. -/
def decRunBody (c : CoreState) : CmdResult := decRunLoop (c.blen - c.rp.toNat) c []

/-- DEC.RST (R231). -/
def execDecRst (s : State) : Host.Outcome State Fault Refusal := runGated (some .tree) decRstBody s

/-- DEC.BIT (R233). -/
def execDecBit (s : State) : Host.Outcome State Fault Refusal := runGated (some .decoder) decBitBody s

/-- DEC.RUN (R234). -/
def execDecRun (s : State) : Host.Outcome State Fault Refusal := runGated (some .decoder) decRunBody s

end Sys2Proof.Machine
end

