-- ==== Sys2Proof/Machine/Encoder.lean ====
section
/-! DEFINITION. The encoder (44_encoder.md): ENC. -/

namespace Sys2Proof.Machine

/-- The pseudocode of ENC after the flag check (R220): MissingCode is checked before BitOverflow. -/
def encBody (bcap : Nat) (b : Byte) (c : CoreState) : CmdResult :=
  match codeAt c.code b with
  | none => raise (.missingCode b) c
  | some s => appendAndRespond bcap s c

/-- ENC b (R220). -/
def execEnc (b : Byte) (s : State) : Host.Outcome State Fault Refusal :=
  runGated (some .codeTable) (encBody Config.bcap b) s

end Sys2Proof.Machine
end

