-- ==== Sys2Proof/Machine/FrequencyCounter.lean ====
section
/-! DEFINITION. The frequency counter (41_frequency_counter.md): FT.CLR, FT.CNT, FT.LD, FT.RD. -/

namespace Sys2Proof.Machine

/-- The pseudocode of FT.CLR (R141). -/
def ftClrBody (c : CoreState) : CmdResult :=
  respond { c with freq := Vector.replicate 256 0#32 }.withdrawDerived 0#40

/-- The pseudocode of FT.CNT (R142): the counter never wraps (20_memory.md R76). -/
def ftCntBody (b : Byte) (c : CoreState) : CmdResult :=
  if c.freqAt b = Config.maxCount then raise (.countOverflow b) c
  else respond (c.setFreq b (c.freqAt b + 1#32)).withdrawDerived (zext40 (c.freqAt b + 1#32))

/-- The pseudocode of FT.LD (R143). -/
def ftLdBody (b : Byte) (n : Count) (c : CoreState) : CmdResult := respond (c.setFreq b n).withdrawDerived 0#40

/-- The pseudocode of FT.RD (R144). -/
def ftRdBody (b : Byte) (c : CoreState) : CmdResult := respond c (zext40 (c.freqAt b))

/-- FT.CLR (R141). -/
def execFtClr (s : State) : Host.Outcome State Fault Refusal := runGated none ftClrBody s

/-- FT.CNT b (R142). -/
def execFtCnt (b : Byte) (s : State) : Host.Outcome State Fault Refusal := runGated none (ftCntBody b) s

/-- FT.LD b, c (R143). -/
def execFtLd (b : Byte) (n : Count) (s : State) : Host.Outcome State Fault Refusal := runGated none (ftLdBody b n) s

/-- FT.RD b (R144). -/
def execFtRd (b : Byte) (s : State) : Host.Outcome State Fault Refusal := runGated none (ftRdBody b) s

end Sys2Proof.Machine
end

