-- ==== Sys2Proof/Machine/System.lean ====
section
/-! DEFINITION. The system commands (46_system.md): NOP, SYS.RD, SYS.RESET; and a word that is no command
(60_exceptions.md R282). -/

namespace Sys2Proof.Machine

/-- The value of a status register, zero-extended to 40 bits (10_state.md R32, 46_system.md R251). -/
def csrValue (bcap : Nat) (r : Csr) (c : CoreState) : Data :=
  match r with
  | .status => zext40 c.status
  | .fcode => zext40 c.fcode
  | .finfo => c.finfo
  | .blen => dataOfNat c.blen
  | .rp => zext40 c.rp
  | .cur => zext40 c.cur
  | .root => zext40 c.root
  | .total => c.total
  | .nxt => zext40 c.nxt
  | .ndb => dataOfNat c.ndb
  | .bcap => dataOfNat bcap

/-- The pseudocode of NOP (R250). -/
def nopBody (c : CoreState) : CmdResult := respond c 0#40

/-- The pseudocode of SYS.RD (R251). -/
def sysRdBody (bcap : Nat) (r : Csr) (c : CoreState) : CmdResult := respond c (csrValue bcap r c)

/-- The pseudocode of SYS.RESET (R252). -/
def sysResetBody (c : CoreState) : CmdResult := respond (resetCore c) 0#40

/-- Step 2 of the order of checks, for a word that is no command (60_exceptions.md R282, R288). -/
def illegalBody (op : BitVec 8) (a : Byte) (c : CoreState) : CmdResult := raise (.illegalCommand op a) c

/-- NOP (R250). -/
def execNop (s : State) : Host.Outcome State Fault Refusal := runGated none nopBody s

/-- SYS.RD r (R251); it executes while FLT = 1. -/
def execSysRd (r : Csr) (s : State) : Host.Outcome State Fault Refusal := runAlways (sysRdBody Config.bcap r) s

/-- SYS.RESET (R252); it executes while FLT = 1. -/
def execSysReset (s : State) : Host.Outcome State Fault Refusal := runAlways sysResetBody s

/-- A word that is no command, by its op and a fields (60_exceptions.md R282): IllegalCommand, or Refused while
FLT = 1 (log 15). -/
def execIllegal (op : BitVec 8) (a : Byte) (s : State) : Host.Outcome State Fault Refusal :=
  runGated none (illegalBody op a) s

end Sys2Proof.Machine
end

