-- ==== Sys2Proof/Machine/TreeBuilder.lean ====
section
/-! DEFINITION. The tree builder (42_tree_builder.md): the comparison rule, the heap, the three builds, and HT.BUILD,
HT.NODE, HT.NFREQ. Every loop of the pseudocode runs on a bound that the spec derives for it (log 12). -/

namespace Sys2Proof.Machine

/-! ## The comparison rule (R166): `.lt` is -1, `.eq` is 0, `.gt` is +1 -/

/-- `Spine(x, y)` (R166): one step down both left spines until a side reaches a Leaf; the bytes decide when both do at
once. `fuel` bounds the descent (log 12). -/
def spine (nodes : Vector Node 511) : Nat → NodeIdx → NodeIdx → Ordering
  | 0, _, _ => .eq
  | fuel + 1, x, y =>
    match nodeAt nodes x, nodeAt nodes y with
    | .internal lx _ _, .internal ly _ _ => spine nodes fuel lx ly
    | .internal _ _ _, _ => .gt
    | _, .internal _ _ _ => .lt
    | nx, ny => compare nx.byte.toNat ny.byte.toNat

/-- `Compare(x, y)` (R166): frequencies of the two roots first, unsigned; on an exact tie the left spines. -/
def compareTrees (nodes : Vector Node 511) (x y : NodeIdx) : Ordering :=
  match compare (nodeAt nodes x).freq.toNat (nodeAt nodes y).freq.toNat with
  | .lt => .lt
  | .gt => .gt
  | .eq => spine nodes Config.nnode x y

/-- `Compare(x, y) < 0`. -/
def treeLess (nodes : Vector Node 511) (x y : NodeIdx) : Bool := compareTrees nodes x y == .lt

/-! ## The heap (R170 to R172) -/

/-- HEAP[p], for p < HN (log 11). -/
def heapAt (h : List NodeIdx) (p : Nat) : NodeIdx := h.getD p Config.null

/-- `swap HEAP[p], HEAP[q]`. -/
def heapSwap (h : List NodeIdx) (p q : Nat) : List NodeIdx := (h.set p (heapAt h q)).set q (heapAt h p)

/-- The loop of HeapInsert (R171): sift the entry at p up while it is less than its parent. -/
def siftUp (nodes : Vector Node 511) : Nat → List NodeIdx → Nat → List NodeIdx
  | 0, h, _ => h
  | fuel + 1, h, p =>
    if p = 0 then h
    else if treeLess nodes (heapAt h p) (heapAt h ((p - 1) / 2)) then
      siftUp nodes fuel (heapSwap h p ((p - 1) / 2)) ((p - 1) / 2)
    else h

/-- `HeapInsert(t)` (R171). -/
def heapInsert (nodes : Vector Node 511) (h : List NodeIdx) (t : NodeIdx) : List NodeIdx :=
  siftUp nodes (h.length + 1) (h ++ [t]) h.length

/-- The position of the lesser child of p, whose left child is in use (R172). -/
def lesserChild (nodes : Vector Node 511) (h : List NodeIdx) (p : Nat) : Nat :=
  if 2 * p + 2 < h.length && treeLess nodes (heapAt h (2 * p + 2)) (heapAt h (2 * p + 1)) then 2 * p + 2 else 2 * p + 1

/-- The loop of HeapExtractMin (R172): sift the entry at p down while a child is less than it. -/
def siftDown (nodes : Vector Node 511) : Nat → List NodeIdx → Nat → List NodeIdx
  | 0, h, _ => h
  | fuel + 1, h, p =>
    if h.length ≤ 2 * p + 1 then h
    else if treeLess nodes (heapAt h (lesserChild nodes h p)) (heapAt h p) then
      siftDown nodes fuel (heapSwap h (lesserChild nodes h p) p) (lesserChild nodes h p)
    else h

/-- `HeapExtractMin()` (R172), defined when HN is at least 1: the entry returned, and the heap left. -/
def heapExtractMin (nodes : Vector Node 511) (h : List NodeIdx) : NodeIdx × List NodeIdx :=
  match h.dropLast with
  | [] => (heapAt h 0, [])
  | d :: ds => (heapAt h 0, siftDown nodes h.length ((d :: ds).set 0 (heapAt h (h.length - 1))) 0)

/-! ## The builds (R161 to R165) -/

/-- What HT.BUILD writes: NODE, HEAP and NXT while it works, and ROOT. -/
structure Builder where
  nodes : Vector Node 511
  heap : List NodeIdx
  nxt : NodeIdx
  root : NodeIdx
deriving DecidableEq, Repr

/-- No record is part of a tree, the heap is empty: the first lines of HT.BUILD (R161). -/
def emptyBuilder : Builder :=
  { nodes := Vector.replicate 511 .absent, heap := [], nxt := Config.firstInternal, root := Config.null }

/-- `BuildSentinel()` (R162). -/
def buildSentinel : Builder :=
  { emptyBuilder with nodes := setNode emptyBuilder.nodes 0#9 (.leaf 0#8 0#40), root := 0#9 }

/-- `BuildOneLeaf(b)` with count n = FREQ[b] (R163). -/
def buildOneLeaf (b : Byte) (n : Count) : Builder :=
  { emptyBuilder with
    nodes := setNode (setNode emptyBuilder.nodes (leafIdx b) (.leaf b (zext40 n))) Config.firstInternal
      (.internal Config.null (leafIdx b) (zext40 n))
    root := Config.firstInternal
    nxt := Config.firstInternal + 1#9 }

/-- The first loop of BuildMerged (R164) on one key: write its Leaf and insert it. -/
def insertLeaf (freq : Vector Count 256) (t : Builder) (b : Byte) : Builder :=
  let nodes := setNode t.nodes (leafIdx b) (.leaf b (zext40 (freq[b.toNat]'b.isLt)))
  { t with nodes := nodes, heap := heapInsert nodes t.heap (leafIdx b) }

/-- The merge of two trees (R164, R165): the one that compares less becomes the left child; the sum is exact in 40
bits (20_memory.md R76). -/
def mergeNode (nodes : Vector Node 511) (x y : NodeIdx) : Node :=
  if compareTrees nodes x y = .lt then .internal x y ((nodeAt nodes x).freq + (nodeAt nodes y).freq)
  else .internal y x ((nodeAt nodes x).freq + (nodeAt nodes y).freq)

/-- One round of the second loop of BuildMerged (R164): remove the two minimum trees, combine them, reinsert. -/
def mergeStep (t : Builder) : Builder :=
  let x := heapExtractMin t.nodes t.heap
  let y := heapExtractMin t.nodes x.2
  let nodes := setNode t.nodes t.nxt (mergeNode t.nodes x.1 y.1)
  { t with nodes := nodes, heap := heapInsert nodes y.2 t.nxt, nxt := t.nxt + 1#9 }

/-- `while HN > 1` of BuildMerged (R164). Each round takes one from HN, so HN rounds are enough (log 12). -/
def mergeLoop : Nat → Builder → Builder
  | 0, t => t
  | fuel + 1, t => if 1 < t.heap.length then mergeLoop fuel (mergeStep t) else t

/-- The last line of BuildMerged (R164): the one tree that remains is the root, and HN becomes 0. -/
def takeRoot (t : Builder) : Builder :=
  { t with root := (heapExtractMin t.nodes t.heap).1, heap := (heapExtractMin t.nodes t.heap).2 }

/-- `BuildMerged(K)` (R164). -/
def buildMerged (freq : Vector Count 256) (keys : List Byte) : Builder :=
  takeRoot (mergeLoop keys.length (keys.foldl (insertLeaf freq) emptyBuilder))

/-- `build(freqTable) -> Tree` (R160, R161): three cases, by the number of distinct bytes. It reads the Frequency Table
and nothing else (R169). -/
def buildTree (freq : Vector Count 256) : Builder :=
  match keysOf freq with
  | [] => buildSentinel
  | [b] => buildOneLeaf b (freq[b.toNat]'b.isLt)
  | b :: b' :: bs => buildMerged freq (b :: b' :: bs)

/-! ## Commands -/

/-- The pseudocode of HT.BUILD (R161). -/
def htBuildBody (c : CoreState) : CmdResult :=
  let t := buildTree c.freq
  respond
    { c with
      nodes := t.nodes, heap := t.heap, nxt := t.nxt, root := t.root, total := (nodeAt t.nodes t.root).freq
      tv := true, cv := false, dv := false }
    (zext40 t.root)

/-- The pseudocode of HT.NODE after the flag check (R174). -/
def htNodeBody (i : NodeIdx) (c : CoreState) : CmdResult :=
  if i = Config.null then raise (.indexRange (i.setWidth 32)) c else respond c (nodeAt c.nodes i).dataWord

/-- The pseudocode of HT.NFREQ after the flag check (R175): a record outside the tree reads 0. -/
def htNfreqBody (i : NodeIdx) (c : CoreState) : CmdResult :=
  if i = Config.null then raise (.indexRange (i.setWidth 32)) c else respond c (nodeAt c.nodes i).freq

/-- HT.BUILD (R161). -/
def execHtBuild (s : State) : Host.Outcome State Fault Refusal := runGated none htBuildBody s

/-- HT.NODE i (R174). -/
def execHtNode (i : NodeIdx) (s : State) : Host.Outcome State Fault Refusal := runGated (some .tree) (htNodeBody i) s

/-- HT.NFREQ i (R175). -/
def execHtNfreq (i : NodeIdx) (s : State) : Host.Outcome State Fault Refusal := runGated (some .tree) (htNfreqBody i) s

end Sys2Proof.Machine
end

