-- ==== Sys2Proof/Machine/Dispatch.lean ====
section
/-! DEFINITION. The meaning of each command, one arm per constructor of Instr. -/

namespace Sys2Proof.Machine

def exec (i : Instr) (s : State) : Host.Outcome State Fault Refusal :=
  match i with
  | .nop => Sys2Proof.Machine.execNop s
  | .sysRd r => Sys2Proof.Machine.execSysRd r s
  | .sysReset => Sys2Proof.Machine.execSysReset s
  | .bbClr => Sys2Proof.Machine.execBbClr s
  | .bbApp n v => Sys2Proof.Machine.execBbApp n v s
  | .bbGet idx => Sys2Proof.Machine.execBbGet idx s
  | .bbGetw n idx => Sys2Proof.Machine.execBbGetw n idx s
  | .ftClr => Sys2Proof.Machine.execFtClr s
  | .ftCnt b => Sys2Proof.Machine.execFtCnt b s
  | .ftLd b c => Sys2Proof.Machine.execFtLd b c s
  | .ftRd b => Sys2Proof.Machine.execFtRd b s
  | .htBuild => Sys2Proof.Machine.execHtBuild s
  | .htNode idx => Sys2Proof.Machine.execHtNode idx s
  | .htNfreq idx => Sys2Proof.Machine.execHtNfreq idx s
  | .ctGen => Sys2Proof.Machine.execCtGen s
  | .ctLen b => Sys2Proof.Machine.execCtLen b s
  | .ctBits b k => Sys2Proof.Machine.execCtBits b k s
  | .enc b => Sys2Proof.Machine.execEnc b s
  | .decRst => Sys2Proof.Machine.execDecRst s
  | .decBit => Sys2Proof.Machine.execDecBit s
  | .decRun => Sys2Proof.Machine.execDecRun s

end Sys2Proof.Machine
end

