-- ==== Sys2Proof/Machine/Step.lean ====
section
/-! DEFINITION. One step of the machine: the next thing the host does at the ports, and the core's answer to it
(30_encoding.md R91, R92; 60_exceptions.md R288; 70_reset_and_hazards.md R320, R321). A step is one whole command (log
9). -/

namespace Sys2Proof.Machine

/-- The core receives one command word: it decodes the word and runs the command, or raises IllegalCommand; a faulted
core refuses the word, legal or not, unless it is SYS.RD or SYS.RESET (60_exceptions.md R288). -/
def runWord (w : Word) (s : State) : Host.Outcome State Fault Refusal :=
  match decode w with
  | .ok i => exec i s
  | .error _ => execIllegal (opField w) (aField w) s

/-- The machine after rst: the core is in the reset state (R321). What has been transferred stays transferred. -/
def State.afterRst (s : State) (transferred : List Transfer) : State :=
  { s with core := resetCore s.core, trace := s.trace ++ transferred }

/-- The output bytes that the machine t has transferred since the machine s, at most k of them. -/
def bytesSince (s t : State) (k : Nat) : List Transfer :=
  ((t.trace.drop s.trace.length).filter fun x => match x with
    | .byteOut _ => true
    | .response _ => false).take k

/-- One step: take the next input of the host. With no command presented the core holds its state (60_exceptions.md
R301). A command in execution when rst is asserted is abandoned with no response (R321; log 8). -/
def step (s : State) : Host.Outcome State Fault Refusal :=
  match s.inputs with
  | [] => .next s
  | .command w :: rest => runWord w { s with inputs := rest }
  | .reset :: rest => .next ({ s with inputs := rest }.afterRst [])
  | .commandThenReset w taken :: rest =>
    match runWord w { s with inputs := rest } with
    | .next t => .next ({ s with inputs := rest }.afterRst (bytesSince s t taken))
    | .fault r => .fault r
    | .refused r => .refused r

/-- The machine s with a command word, given as a number (see decodeTableWord), put before every other input of the
host, so that the next step takes and runs exactly it (log 2). -/
def State.withFetchWord (s : State) (nbits w : Nat) : State :=
  { s with inputs := .command (BitVec.ofNat 64 (w % 2 ^ nbits)) :: s.inputs }

end Sys2Proof.Machine
end

