-- ==== Sys2Proof/Machine/Flows.lean ====
section
/-! DEFINITION. Sequences of commands as the host issues them: the pseudo-instructions (30_encoding.md R104), the
Container as a view of the state (47_container_and_flows.md R260), reading one out (R265), loading one (R266), and the
meaning of a sequence (20_memory.md R69). -/

namespace Sys2Proof.Machine

/-! ## Sequences -/

/-- The commands take effect one at a time, in order, each on the state left by the one before it (20_memory.md R69). -/
def runCommands : List Instr → State → Host.Outcome State Fault Refusal
  | [], s => .next s
  | i :: is, s =>
    match exec i s with
    | .next t => runCommands is t
    | .fault r => .fault r
    | .refused r => .refused r

/-- The bytes of a list of transfers, in order: MZ00's decode output over a run (30_encoding.md R93). -/
def bytesOf (ts : List Transfer) : List Byte :=
  ts.filterMap fun x => match x with
    | .byteOut b => some b
    | .response _ => none

/-- The response words of a list of transfers, in order (30_encoding.md R92). -/
def responsesOf (ts : List Transfer) : List Word :=
  ts.filterMap fun x => match x with
    | .byteOut _ => none
    | .response w => some w

/-! ## Pseudo-instructions (30_encoding.md R104) -/

/-- The six pseudo-instructions. -/
inductive Pseudo where
  | append (s : Bits)
  | count (bs : List Byte)
  | encode (bs : List Byte)
  | loadf (pairs : List (Byte × Count))
  | compress (bs : List Byte)
  | decompress
deriving DecidableEq, Repr

/-- Consecutive chunks of 32 bits, the last of 1..32 bits; nothing when the string is empty. `fuel` bounds the number
of chunks by the number of bits. -/
def chunks32 : Nat → Bits → List Bits
  | 0, _ => []
  | fuel + 1, s => if s.isEmpty then [] else s.take 32 :: chunks32 fuel (s.drop 32)

/-- BB.APP with a bit-string literal: `BB.APP "110"` is `BB.APP 3, 0b110` (30_encoding.md R103). -/
def appendLiteral (s : Bits) : Instr := .bbApp (BitVec.ofNat 8 s.length) (BitVec.ofNat 32 (pack s))

/-- The expansion of a pseudo-instruction. -/
def Pseudo.expand : Pseudo → List Instr
  | .append s => (chunks32 s.length s).map appendLiteral
  | .count bs => bs.map .ftCnt
  | .encode bs => bs.map .enc
  | .loadf pairs => .ftClr :: pairs.map fun p => .ftLd p.1 p.2
  | .compress bs => .ftClr :: bs.map .ftCnt ++ [.htBuild, .ctGen, .bbClr] ++ bs.map .enc
  | .decompress => [.htBuild, .decRst, .decRun]

/-! ## The container (47_container_and_flows.md) -/

/-- The Container: the keys of the Frequency Table with their counts, and the Bit Sequence (R260). Its pairs stand in
ascending order of the byte, which the spec leaves to the host (log 17). -/
structure Container where
  pairs : List (Byte × Count)
  bits : Bits
deriving DecidableEq, Repr

/-- The container that the core holds: a view, not a piece of state (R260; 10_state.md R34). -/
def CoreState.container (c : CoreState) : Container :=
  { pairs := (keysOf c.freq).map fun b => (b, c.freqAt b), bits := c.bits }

/-- The commands that load a container (R266). -/
def loadCommands (k : Container) : List Instr :=
  (Pseudo.loadf k.pairs).expand ++ .bbClr :: (Pseudo.append k.bits).expand

/-- The commands that read a container out of a core whose BLEN is n (R265): NDB, every FREQ cell, BLEN, and the bits
in pieces of 32, the last one shorter. -/
def readOutCommands (n : Nat) : List Instr :=
  .sysRd .ndb :: allBytes.map .ftRd ++ .sysRd .blen ::
    ((List.range (n / 32)).map (fun j => .bbGetw 32#8 (BitVec.ofNat 32 (32 * j))) ++
      if n % 32 = 0 then [] else [.bbGetw (BitVec.ofNat 8 (n % 32)) (BitVec.ofNat 32 (32 * (n / 32)))])

end Sys2Proof.Machine
end

