-- ==== Sys2Proof/Machine/Assembler.lean ====
section
/-! DEFINITION. The assembler notation of 30_encoding.md R103 and R104: one line of text to the commands it stands for.
A line is read as a list of characters (log 16). -/

namespace Sys2Proof.Machine

/-- A token of a line. -/
inductive Token where
  /-- A mnemonic or a number. -/
  | word (cs : List Char)
  /-- A character in single quotes. -/
  | quoted (c : Char)
  /-- A bit-string literal in double quotes, its characters. -/
  | literal (cs : List Char)
  | comma
  | colon
deriving DecidableEq, Repr

/-- A character that ends a word. -/
def isSeparator (c : Char) : Bool :=
  c == ' ' || c == '\t' || c == ',' || c == ':' || c == ';' || c == '\'' || c == '"'

/-- The tokens of a line; `;` starts a comment (R103). None when a quote is not closed. `fuel` bounds the number of
tokens by the length of the line. -/
def tokens : Nat → List Char → Option (List Token)
  | 0, _ => some []
  | _ + 1, [] => some []
  | fuel + 1, c :: cs =>
    if c == ';' then some []
    else if c == ' ' || c == '\t' then tokens fuel cs
    else if c == ',' then (tokens fuel cs).map (.comma :: ·)
    else if c == ':' then (tokens fuel cs).map (.colon :: ·)
    else if c == '\'' then
      match cs with
      | x :: '\'' :: rest => (tokens fuel rest).map (.quoted x :: ·)
      | _ => none
    else if c == '"' then
      match cs.dropWhile (· != '"') with
      | _ :: rest => (tokens fuel rest).map (.literal (cs.takeWhile (· != '"')) :: ·)
      | [] => none
    else (tokens fuel (cs.dropWhile fun x => !isSeparator x)).map
      (.word (c :: cs.takeWhile fun x => !isSeparator x) :: ·)

/-- The value of a digit in a base. -/
def digitValue (base : Nat) (c : Char) : Option Nat :=
  let n := c.toNat
  let v := if 48 ≤ n ∧ n ≤ 57 then n - 48 else if 65 ≤ n ∧ n ≤ 70 then n - 55
    else if 97 ≤ n ∧ n ≤ 102 then n - 87 else base
  if v < base then some v else none

/-- A number written in a base; at least one digit. -/
def digits (base : Nat) : List Char → Option Nat
  | [] => none
  | c :: cs => (c :: cs).foldl
      (fun acc d => match acc, digitValue base d with
        | some a, some v => some (base * a + v)
        | _, _ => none) (some 0)

/-- A number in decimal, `0x` hexadecimal or `0b` binary (R103). -/
def number : List Char → Option Nat
  | '0' :: 'x' :: ds => digits 16 ds
  | '0' :: 'b' :: ds => digits 2 ds
  | ds => digits 10 ds

/-- An operand: a number, or a character in single quotes for a byte (R103). That the value of a character outside ASCII is
its code point is the model's choice (log 16). -/
def Token.operand : Token → Option Nat
  | .word cs => number cs
  | .quoted c => some c.toNat
  | .literal _ => none
  | .comma => none
  | .colon => none

/-- An 8-bit operand. That a quoted character may stand for any of them, a bit count n or a register number r too, where R103
gives it for a byte, is the model's choice (log 16). -/
def Token.byteOperand (t : Token) : Option Byte :=
  match t.operand with
  | some n => if n < 256 then some (BitVec.ofNat 8 n) else none
  | none => none

/-- A 32-bit operand. That a quoted character may stand here too is the model's choice (log 16). -/
def Token.immOperand (t : Token) : Option Imm :=
  match t.operand with
  | some n => if n < 2 ^ 32 then some (BitVec.ofNat 32 n) else none
  | none => none

/-- A bit-string literal (R103). -/
def bitLiteral : List Char → Option Bits
  | [] => some []
  | '0' :: cs => (bitLiteral cs).map (false :: ·)
  | '1' :: cs => (bitLiteral cs).map (true :: ·)
  | _ => none

/-- The byte operands of COUNT, ENCODE and COMPRESS: none, or some separated by commas (R104). -/
def byteList : List Token → Option (List Byte)
  | [] => some []
  | [t] => t.byteOperand.map ([·])
  | t :: .comma :: ts =>
    match t.byteOperand, byteList ts with
    | some b, some (b' :: bs) => some (b :: b' :: bs)
    | _, _ => none
  | _ => none

/-- The pairs of LOADF, `b:c` separated by commas (R104). -/
def pairList : List Token → Option (List (Byte × Count))
  | [b, .colon, n] =>
    match b.byteOperand, n.immOperand with
    | some b, some n => some [(b, n)]
    | _, _ => none
  | b :: .colon :: n :: .comma :: ts =>
    match b.byteOperand, n.immOperand, pairList ts with
    | some b, some n, some (p :: ps) => some ((b, n) :: p :: ps)
    | _, _, _ => none
  | _ => none

/-- The opcode of a mnemonic, written in capitals with the dot as shown (R98, R103). -/
def mnemonicOpcode (cs : List Char) : Option (BitVec 8) :=
  ([.nop, .sysRd .status, .sysReset, .bbClr, .bbApp 0#8 0#32, .bbGet 0#32, .bbGetw 0#8 0#32, .ftClr, .ftCnt 0#8,
    .ftLd 0#8 0#32, .ftRd 0#8, .htBuild, .htNode 0#9, .htNfreq 0#9, .ctGen, .ctLen 0#8, .ctBits 0#8 0#3, .enc 0#8,
    .decRst, .decBit, .decRun].find? fun i : Instr => i.mnemonic.toList == cs).map Instr.opcode

/-- A command line: the operands that the command's format uses, the a operand first (R95, R103). A line whose operands
break a constraint stands for no command. -/
def commandLine (op : BitVec 8) (ops : List Token) : Option Instr :=
  match opRow op with
  | none => none
  | some row =>
    match row.fmt, ops with
    | .z, [] => (decode (commandWord op 0#8 0#32)).toOption
    | .a, [t] => t.byteOperand.bind fun a => (decode (commandWord op a 0#32)).toOption
    | .i, [t] => t.immOperand.bind fun imm => (decode (commandWord op 0#8 imm)).toOption
    | .ai, [t, .comma, u] =>
      t.byteOperand.bind fun a => u.immOperand.bind fun imm => (decode (commandWord op a imm)).toOption
    | _, _ => none

/-- The commands that the tokens of a line stand for: a command, `BB.APP` with a bit-string literal, a
pseudo-instruction, or nothing on an empty line (R103, R104). -/
def tokenLine : List Token → Option (List Instr)
  | [] => some []
  | .word m :: ops =>
    if m == "BB.APP".toList then
      match ops with
      | [.literal cs] => (bitLiteral cs).bind fun s => if s.length ≤ 32 then some [appendLiteral s] else none
      | _ => (commandLine 0x11#8 ops).map ([·])
    else if m == "APPEND".toList then
      match ops with
      | [.literal cs] => (bitLiteral cs).map fun s => (Pseudo.append s).expand
      | _ => none
    else if m == "COUNT".toList then (byteList ops).map fun bs => (Pseudo.count bs).expand
    else if m == "ENCODE".toList then (byteList ops).map fun bs => (Pseudo.encode bs).expand
    else if m == "LOADF".toList then (pairList ops).map fun ps => (Pseudo.loadf ps).expand
    else if m == "COMPRESS".toList then (byteList ops).map fun bs => (Pseudo.compress bs).expand
    else if m == "DECOMPRESS".toList then
      match ops with
      | [] => some Pseudo.decompress.expand
      | _ => none
    else (mnemonicOpcode m).bind fun op => (commandLine op ops).map ([·])
  | _ => none

/-- The commands that one line of text stands for (R103); none when the line has no meaning. -/
def assembleLine (line : List Char) : Option (List Instr) :=
  (tokens (line.length + 1) line).bind tokenLine

/-- The commands of a program, one command per line (R103). -/
def assemble : List (List Char) → Option (List Instr)
  | [] => some []
  | l :: ls =>
    match assembleLine l, assemble ls with
    | some is, some rest => some (is ++ rest)
    | _, _ => none

end Sys2Proof.Machine
end

