-- ==== Sys2Proof/Safety.lean ====
section
/-! DEFINITION. The terms that claims about the core use: how a command ends, what a succeeded run is
(47_container_and_flows.md R270), the well-formed tree (10_state.md R36), the invariants of R35, the abstract forms of the
comparison and of the priority collection (42_tree_builder.md R167, R173), and the table of flag transitions (R39). -/

namespace Sys2Proof.Machine

/-! ## How a command ends -/

/-- The machine after a command that leaves the core in state c and responds OK with data d, emitting nothing. -/
def State.okNext (s : State) (c : CoreState) (d : Data) : State :=
  { s with core := c, trace := s.trace ++ [.response (0x00#8 ++ 0#16 ++ d)] }

/-- The machine after a command that raises a fault with this code and information word, emitting nothing and changing
nothing else (60_exceptions.md R290). -/
def State.faultNext (s : State) (code : Status) (info : Data) : State :=
  { s with core := { s.core with flt := true, fcode := code, finfo := info },
           trace := s.trace ++ [.response (code ++ 0#16 ++ info)] }

/-- A response whose status is OK (30_encoding.md R97); a byte on the output channel is no response. -/
def Transfer.isOk : Transfer → Bool
  | .byteOut _ => true
  | .response w => decide (w.extractLsb' 56 8 = 0x00#8)

/-! ## Launch premises and success (47_container_and_flows.md R269, R270) -/

/-- *Clean*: the core is in the reset state (R269). -/
abbrev State.clean (s : State) : Prop := s.core = CoreState.reset

/-- *Unfaulted*: FLT = 0 (R269). -/
abbrev State.unfaulted (s : State) : Prop := s.core.flt = false

/-- From s to t the core has made these transfers, and every response among them was OK: the run has succeeded
(R270). -/
abbrev State.succeededWith (s t : State) (ts : List Transfer) : Prop :=
  t.trace = s.trace ++ ts ∧ ts.all Transfer.isOk = true

/-! ## The tree (10_state.md R36) -/

/-- The sum of all counts of a Frequency Table (41_frequency_counter.md R147). -/
def sumCounts (freq : Vector Count 256) : Nat := (freq.toList.map BitVec.toNat).sum

/-- The count of byte b. -/
def countOf (freq : Vector Count 256) (b : Byte) : Count := freq[b.toNat]'b.isLt

/-- i is a child of the Internal node p. -/
def isChildOf (nodes : Vector Node 511) (i p : NodeIdx) : Prop :=
  (nodeAt nodes p).isInternal = true ∧ ((nodeAt nodes p).left = i ∨ (nodeAt nodes p).right = i)

/-- The tree of a table with n >= 2 keys, the third case of R36. -/
structure MergedTree (freq : Vector Count 256) (nodes : Vector Node 511) (root : NodeIdx) (total : Freq)
    (nxt : NodeIdx) : Prop where
  /-- The Leaves with nv = 1 are NODE[b] = Leaf(b, FREQ[b]) for the keys b. -/
  leaves : ∀ b : Byte, nodeAt nodes (leafIdx b) =
    if countOf freq b = 0#32 then .absent else .leaf b ((countOf freq b).setWidth 40)
  /-- The n-1 Internals are at 256..254+n. Each has two different non-NULL children with nv = 1, of lower index than
  itself, and its freq is the exact sum of theirs. -/
  internals : ∀ i : NodeIdx, 256 ≤ i.toNat → i.toNat < 255 + (keysOf freq).length →
    ∃ l r f, nodeAt nodes i = .internal l r f ∧ l ≠ r ∧ l.toNat < i.toNat ∧ r.toNat < i.toNat ∧
      (nodeAt nodes l).nv = true ∧ (nodeAt nodes r).nv = true ∧
      f.toNat = (nodeAt nodes l).freq.toNat + (nodeAt nodes r).freq.toNat
  /-- No other record has nv = 1. -/
  others : ∀ i : NodeIdx, 255 + (keysOf freq).length ≤ i.toNat → nodeAt nodes i = .absent
  rootIdx : root.toNat = 254 + (keysOf freq).length
  nxtIdx : nxt.toNat = 255 + (keysOf freq).length
  /-- Every record with nv = 1 other than ROOT is the child of exactly one Internal. -/
  oneParent : ∀ i : NodeIdx, (nodeAt nodes i).nv = true → i ≠ root → ∃! p, isChildOf nodes i p
  /-- TOTAL = freq(ROOT) = sum of FREQ[b]. -/
  totalFreq : total = (nodeAt nodes root).freq ∧ total.toNat = sumCounts freq

/-- The well-formed tree of a Frequency Table: the three cases of R36, by the number of keys. -/
def TreeWellFormed (freq : Vector Count 256) (nodes : Vector Node 511) (root : NodeIdx) (total : Freq)
    (nxt : NodeIdx) : Prop :=
  match keysOf freq with
  | [] => root = 0#9 ∧ total = 0#40 ∧ nxt = 256#9 ∧
      ∀ i : NodeIdx, nodeAt nodes i = if i = 0#9 then .leaf 0#8 0#40 else .absent
  | [b] => root = 256#9 ∧ total = (countOf freq b).setWidth 40 ∧ nxt = 257#9 ∧
      ∀ i : NodeIdx, nodeAt nodes i =
        if i = 256#9 then .internal 511#9 (leafIdx b) ((countOf freq b).setWidth 40)
        else if i = leafIdx b then .leaf b ((countOf freq b).setWidth 40) else .absent
  | _ :: _ :: _ => MergedTree freq nodes root total nxt

/-- The node reached from i by a path: `false` is a step to the left child, `true` to the right one
(43_code_table.md R200). -/
def followPath (nodes : Vector Node 511) : NodeIdx → Bits → Option NodeIdx
  | i, [] => some i
  | i, b :: bs =>
    match nodeAt nodes i with
    | .absent => none
    | .leaf _ _ => none
    | .internal l r _ =>
      if b then followPath nodes r bs else if l = Config.null then none else followPath nodes l bs

/-- The tree registers and node memory hold what HT.BUILD leaves for this table (42_tree_builder.md R161). -/
def isBuildOf (freq : Vector Count 256) (nodes : Vector Node 511) (root : NodeIdx) (total : Freq) (nxt : NodeIdx) :
    Prop :=
  nodes = (buildTree freq).nodes ∧ root = (buildTree freq).root ∧ nxt = (buildTree freq).nxt ∧
    total = (nodeAt nodes root).freq

/-! ## The invariants of the core (10_state.md R35) -/

/-- R35, item by item: what holds after reset and after every command, completed or faulted. -/
structure CoreState.Inv (c : CoreState) : Prop where
  /-- Item 1: RP <= BLEN <= BCAP. -/
  bounds : c.rp.toNat ≤ c.blen ∧ c.blen ≤ Config.bcap
  /-- Item 2: CV = 1 implies TV = 1, and DV = 1 implies TV = 1. -/
  flags : (c.cv = true → c.tv = true) ∧ (c.dv = true → c.tv = true)
  /-- Item 3: TV = 1 implies that the tree is well formed and is the result of the build on the present FREQ. -/
  tree : c.tv = true →
    TreeWellFormed c.freq c.nodes c.root c.total c.nxt ∧ isBuildOf c.freq c.nodes c.root c.total c.nxt
  /-- Item 4: CV = 1 implies that the code table is the result of CT.GEN on the present tree. -/
  codes : c.cv = true → c.code = deriveCodes c.nodes c.root
  /-- Item 5: DV = 1 implies nv(CUR) = 1, Internal(CUR) or CUR = ROOT, and CUR is reachable from ROOT. -/
  cursor : c.dv = true → (nodeAt c.nodes c.cur).nv = true ∧
    ((nodeAt c.nodes c.cur).isInternal = true ∨ c.cur = c.root) ∧
    ∃ path, followPath c.nodes c.root path = some c.cur
  /-- Item 6: FLT = 0 implies FCODE = 0 and FINFO = 0, and FLT = 1 implies FCODE != 0. -/
  fault : (c.flt = false → c.fcode = 0#8 ∧ c.finfo = 0#40) ∧ (c.flt = true → c.fcode ≠ 0#8)
  /-- Item 7: CVAL[b] = 0 implies CLEN[b] = 0, and CVAL[b] = 1 implies 1 <= CLEN[b] <= 255. -/
  codeLengths : ∀ b : Byte, (c.cval b = false → c.clen b = 0) ∧ (c.cval b = true → 1 ≤ c.clen b ∧ c.clen b ≤ 255)
  /-- Item 8: HN = 0. -/
  heapEmpty : c.hn = 0

/-! ## The comparison as a key (42_tree_builder.md R167) -/

/-- The left-spine depth and the leftmost byte of the tree at x: the number of left steps to the first Leaf on the left
spine, and the byte of that Leaf; none when there is no Leaf within the bound. -/
def leftSpine (nodes : Vector Node 511) : Nat → NodeIdx → Option (Nat × Byte)
  | 0, _ => none
  | fuel + 1, x =>
    match nodeAt nodes x with
    | .internal l _ _ => (leftSpine nodes fuel l).map fun p => (p.1 + 1, p.2)
    | .leaf b _ => some (0, b)
    | .absent => some (0, 0#8)

/-- The heap property (42_tree_builder.md R170): for every p with 0 < p < HN, the parent of p is less than p. -/
def HeapProperty (nodes : Vector Node 511) (h : List NodeIdx) : Prop :=
  ∀ p, 0 < p → p < h.length → treeLess nodes (heapAt h ((p - 1) / 2)) (heapAt h p) = true

/-! ## The build over an abstract priority collection (42_tree_builder.md R173) -/

/-- The minimum of a nonempty collection under Compare, by a linear scan. -/
def minimumOf (nodes : Vector Node 511) (x : NodeIdx) (xs : List NodeIdx) : NodeIdx :=
  xs.foldl (fun m y => if treeLess nodes y m then y else m) x

/-- Repeatedly remove the two minima of a collection of trees, combine them and put the combination back, until one tree
remains: BuildMerged (R164) with "remove the unique Compare-minimum of a finite set" in place of the heap (R173). The
answer is NODE, ROOT and NXT. -/
def mergeByMinimum : Nat → Vector Node 511 → List NodeIdx → NodeIdx → Vector Node 511 × NodeIdx × NodeIdx
  | fuel + 1, nodes, x :: y :: rest, nxt =>
    let m := minimumOf nodes x (y :: rest)
    match (x :: y :: rest).erase m with
    | [] => (nodes, m, nxt)
    | z :: zs =>
      let m' := minimumOf nodes z zs
      let nodes' := setNode nodes nxt
        (.internal m m' ((nodeAt nodes m).freq + (nodeAt nodes m').freq))
      mergeByMinimum fuel nodes' (nxt :: (z :: zs).erase m') (nxt + 1#9)
  | _, nodes, xs, nxt => (nodes, xs.headD Config.null, nxt)

/-- The Leaves of the keys, each at the index of its byte (R164). -/
def leafRecords (freq : Vector Count 256) : Vector Node 511 :=
  (keysOf freq).foldl (fun nodes b => setNode nodes (leafIdx b) (.leaf b ((countOf freq b).setWidth 40)))
    (Vector.replicate 511 .absent)

/-! ## Codes (43_code_table.md, 44_encoder.md) -/

/-- The code table of a Frequency Table: CT.GEN after HT.BUILD (R205 item 3). -/
def codesOfTable (freq : Vector Count 256) : Vector (Option Bits) 256 :=
  deriveCodes (buildTree freq).nodes (buildTree freq).root

/-- The Frequency Table of an input whose counts fit 32 bits (41_frequency_counter.md R146). -/
def tableOf (bytes : List Byte) : Vector Count 256 :=
  Vector.ofFn fun k : Fin 256 => BitVec.ofNat 32 (bytes.count (BitVec.ofNat 8 k.val))

/-- The concatenation of the codes of a byte sequence (44_encoder.md R222); a byte without an entry adds nothing. -/
def codesOf (code : Vector (Option Bits) 256) (bytes : List Byte) : Bits :=
  bytes.flatMap fun b => (codeAt code b).getD []

/-! ## Flag transitions (10_state.md R39) -/

/-- TV, CV, DV after a command that completes without fault, from TV, CV, DV before it: the table of R39. -/
def flagsAfter (i : Instr) (tv cv dv : Bool) : Bool × Bool × Bool :=
  match i with
  | .nop => (tv, cv, dv)
  | .sysRd _ => (tv, cv, dv)
  | .sysReset => (false, false, false)
  | .bbClr => (tv, cv, false)
  | .bbApp _ _ => (tv, cv, dv)
  | .bbGet _ => (tv, cv, dv)
  | .bbGetw _ _ => (tv, cv, dv)
  | .ftClr => (false, false, false)
  | .ftCnt _ => (false, false, false)
  | .ftLd _ _ => (false, false, false)
  | .ftRd _ => (tv, cv, dv)
  | .htBuild => (true, false, false)
  | .htNode _ => (tv, cv, dv)
  | .htNfreq _ => (tv, cv, dv)
  | .ctGen => (tv, true, dv)
  | .ctLen _ => (tv, cv, dv)
  | .ctBits _ _ => (tv, cv, dv)
  | .enc _ => (tv, cv, dv)
  | .decRst => (tv, cv, true)
  | .decBit => (tv, cv, dv)
  | .decRun => (tv, cv, dv)

/-- The commands that read and change nothing (20_memory.md R68), and NOP. -/
def onlyReads : Instr → Bool
  | .nop => true
  | .sysRd _ => true
  | .bbGet _ => true
  | .bbGetw _ _ => true
  | .ftRd _ => true
  | .htNode _ => true
  | .htNfreq _ => true
  | .ctLen _ => true
  | .ctBits _ _ => true
  | .sysReset => false
  | .bbClr => false
  | .bbApp _ _ => false
  | .ftClr => false
  | .ftCnt _ => false
  | .ftLd _ _ => false
  | .htBuild => false
  | .ctGen => false
  | .enc _ => false
  | .decRst => false
  | .decBit => false
  | .decRun => false

end Sys2Proof.Machine
end

