-- ==== Sys2Proof/Certificates/Slice0/Obligations.lean ====
section
/-! DEFINITION. The statements about the core, for the provers. Each docstring names the rule of spec/ that it
formalises. -/

open Sys2Proof Sys2Proof.Machine

/-! ## Encoding (30_encoding.md) -/

/-- Words of the programs and vectors of 95_test_vectors.md stand for the commands that the file prints beside them. -/
def Obligations.WordsOfTheProgramsDecode : Prop :=
  decode 0x0000000000000000#64 = .ok .nop ∧
  decode 0x0109000000000000#64 = .ok (.sysRd .ndb) ∧
  decode 0x0200000000000000#64 = .ok .sysReset ∧
  decode 0x1000000000000000#64 = .ok .bbClr ∧
  decode 0x1103000000000007#64 = .ok (.bbApp 3#8 7#32) ∧
  decode 0x1200000000000027#64 = .ok (.bbGet 39#32) ∧
  decode 0x1304000000000028#64 = .ok (.bbGetw 4#8 40#32) ∧
  decode 0x2261000000000005#64 = .ok (.ftLd 0x61#8 5#32) ∧
  decode 0x3100000000000100#64 = .ok (.htNode 256#9) ∧
  decode 0x4000000000000000#64 = .ok .ctGen ∧
  decode 0x4100000000000000#64 = .ok (.ctLen 0x00#8) ∧
  decode 0x5063000000000000#64 = .ok (.enc 0x63#8) ∧
  decode 0x6200000000000000#64 = .ok .decRun

/-- Decoding an encoded well-formed command gives it back, at every operand value its encoding admits (R94, R95, R98,
R99, R105). -/
def Obligations.DecodeOfEncodeIsTheCommand : Prop :=
  ∀ i : Instr, i.wellFormed = true → decode (encode i) = .ok i

/-- A word that decodes is the encoding of the command it decodes to, and that command is well formed: no bit of a legal
word is ignored, and every other word is an error (R100, R101). -/
def Obligations.DecodedWordIsTheEncoding : Prop :=
  ∀ (w : Word) (i : Instr), decode w = .ok i → i.wellFormed = true ∧ encode i = w

/-- The second form of the decoding procedure (R105): a word is legal exactly when a row of the table has w AND mask =
match and its constraint holds, and at most one row matches. -/
def Obligations.LegalExactlyWhenOneTableRowMatches : Prop :=
  ∀ w : Word, ((∃ i, decode w = .ok i) ↔ ∃ row ∈ maskTable, row.matches w = true) ∧
    (maskTable.filter fun row => row.matches w).length ≤ 1

/-- The 235 reserved opcodes are illegal, and a nonzero rsv field is illegal with any op (R100). -/
def Obligations.ReservedOpcodesAndFieldsAreIllegal : Prop :=
  (∀ w : Word, rsvField w ≠ 0#16 → ∃ e, decode w = .error e) ∧
  (∀ w : Word,
    (opField w).toNat ∉ [0x00, 0x01, 0x02, 0x10, 0x11, 0x12, 0x13, 0x20, 0x21, 0x22, 0x23, 0x30, 0x31, 0x32, 0x40, 0x41,
      0x42, 0x50, 0x60, 0x61, 0x62] → decode w = .error .unknownOpcode)

/-- pack(s) is the sum of s[i] * 2^(n-1-i), pack and unpack are inverse, and unpack(n, v) has s[i] = v[n-1-i] (R12). -/
def Obligations.PackAndUnpackAreInverse : Prop :=
  (∀ s : Bits, pack s =
    ((List.range s.length).map fun i => (s.getD i false).toNat * 2 ^ (s.length - 1 - i)).sum) ∧
  (∀ n v : Nat, v < 2 ^ n → pack (unpack n v) = v) ∧
  (∀ s : Bits, pack s < 2 ^ s.length ∧ unpack s.length (pack s) = s) ∧
  (∀ n v : Nat, (unpack n v).length = n ∧ ∀ i, i < n → (unpack n v)[i]? = some (v.testBit (n - 1 - i)))

/-! ## The step and the ports -/

/-- When the next input is a word that decodes to a command, the step is the meaning of that command on the machine with
the input taken (20_memory.md R69, 30_encoding.md R91). -/
def Obligations.StepRunsTheDecodedCommand : Prop :=
  ∀ (s : State) (w : Word) (rest : List HostInput) (i : Instr),
    s.inputs = .command w :: rest → decode w = .ok i → step s = exec i { s with inputs := rest }

/-- A word that fails the decode raises IllegalCommand in an unfaulted core; FINFO keeps the top 16 bits of the word
(60_exceptions.md R282). -/
def Obligations.UndecodableWordRaisesIllegalCommand : Prop :=
  ∀ (s : State) (w : Word) (rest : List HostInput) (e : DecodeError),
    s.inputs = .command w :: rest → decode w = .error e → s.unfaulted →
    step s = .next ({ s with inputs := rest }.faultNext 0x01#8 ((w.extractLsb' 48 16).setWidth 40))

/-- The rst port puts the core in the reset state with no response; a command in execution when rst is asserted is
abandoned with no response, and the bytes transferred are the first ones that it would have emitted; with no command
presented the core holds its state (70_reset_and_hazards.md R320, R321; 60_exceptions.md R301). That the ports are inputs
in State is log 1, and that some of an abandoned command's bytes may have gone out is log 8. -/
def Obligations.RstPortResetsAndIdleHolds : Prop :=
  (∀ (s : State) (rest : List HostInput), s.inputs = .reset :: rest →
    step s = .next { core := CoreState.reset, inputs := rest, trace := s.trace }) ∧
  (∀ (s : State) (w : Word) (taken : Nat) (rest : List HostInput), s.inputs = .commandThenReset w taken :: rest →
    ∃ (t : State) (bytes : List Byte) (resp : Word), runWord w { s with inputs := rest } = .next t ∧
      t.trace = s.trace ++ bytes.map .byteOut ++ [.response resp] ∧
      step s = .next { core := CoreState.reset, inputs := rest,
                       trace := s.trace ++ (bytes.take taken).map .byteOut }) ∧
  (∀ s : State, s.inputs = [] → step s = .next s)

/-- SYS.RESET puts the core in its reset state and responds OK, faulted or not; the rst port leaves the same state; no
other command leaves the faulted state; and that state is the machine's state after reset, row by row (46_system.md
R252; 10_state.md R37). -/
def Obligations.SysResetLeavesTheResetState : Prop :=
  encode .sysReset = 0x0200000000000000#64 ∧ decode 0x0200000000000000#64 = .ok .sysReset ∧
  (∀ s : State, exec .sysReset s = .next (s.okNext State.reset.core 0#40)) ∧
  (∀ (s : State) (rest : List HostInput), s.inputs = .reset :: rest →
    ∃ t, step s = .next t ∧ t.core = State.reset.core) ∧
  (∀ (i : Instr) (s t : State), s.core.flt = true → exec i s = .next t → t.core.flt = false → i = .sysReset) ∧
  ∀ c : CoreState, c = State.reset.core →
    c.flt = false ∧ c.tv = false ∧ c.cv = false ∧ c.dv = false ∧ c.fcode = 0#8 ∧ c.finfo = 0#40 ∧
    c.blen = 0 ∧ c.rp = 0#32 ∧ (∀ b, c.freqAt b = 0#32) ∧ (∀ i, (nodeAt c.nodes i).nv = false) ∧
    c.root = 511#9 ∧ c.cur = 511#9 ∧ c.total = 0#40 ∧ c.nxt = 256#9 ∧ c.hn = 0 ∧
    ∀ b, c.cval b = false ∧ c.clen b = 0

/-- Every command, in every state, is followed by exactly one response, after the bytes it emits; only DEC.BIT and
DEC.RUN emit; the response's bits 55:40 are 0 and its status is one of R97 (30_encoding.md R92, R93, R96, R97). -/
def Obligations.OneResponseForEveryCommand : Prop :=
  ∀ (i : Instr) (s : State), ∃ (t : State) (bytes : List Byte) (resp : Word),
    exec i s = .next t ∧ t.inputs = s.inputs ∧
    t.trace = s.trace ++ bytes.map .byteOut ++ [.response resp] ∧
    (bytes ≠ [] → i = .decBit ∨ i = .decRun) ∧
    resp.extractLsb' 40 16 = 0#16 ∧
    (resp.extractLsb' 56 8).toNat ∈ [0x00, 0x01, 0x02, 0x03, 0x04, 0x05, 0x06, 0x07, 0xFF]

/-! ## Faults (60_exceptions.md) -/

/-- While FLT = 1 every word but a legal SYS.RD or SYS.RESET, legal or not, gets the response Refused and changes
nothing, and those two execute (R288 step 1, R291). -/
def Obligations.FaultedCoreRefuses : Prop :=
  ∀ s : State, s.core.flt = true →
    (∀ i : Instr, i ≠ .sysReset → (∀ r, i ≠ .sysRd r) →
      exec i s = .next { s with trace := s.trace ++ [.response 0xFF00000000000000#64] }) ∧
    (∀ (w : Word) (e : DecodeError), decode w = .error e →
      runWord w s = .next { s with trace := s.trace ++ [.response 0xFF00000000000000#64] }) ∧
    exec .sysReset s = .next (s.okNext CoreState.reset 0#40) ∧
    (∀ r, ∃ d, exec (.sysRd r) s = .next (s.okNext s.core d))

/-- The only way out of the faulted state is reset: every step of a faulted core leaves the whole core as it is, or it is
a reset (SYS.RESET or the rst port), which discards all state (60_exceptions.md R292; 10_state.md R24). -/
def Obligations.FaultHoldsUntilReset : Prop :=
  ∀ s t : State, s.core.flt = true → step s = .next t →
    t.core = s.core ∨
    (t.core = CoreState.reset ∧
      ((∃ rest, s.inputs = .reset :: rest) ∨ (∃ w k rest, s.inputs = .commandThenReset w k :: rest) ∨
        ∃ w rest, s.inputs = .command w :: rest ∧ decode w = .ok .sysReset))

/-- NotReady: with TV = 0, CV = 0 or DV = 0 each command that needs the flag faults with 1, 2 or 3, changes nothing else,
and does so whatever its operand (R289, and the NotReady row of R281). -/
def Obligations.CommandsFaultWithoutTheirFlag : Prop :=
  ∀ s : State, s.unfaulted →
    (s.core.tv = false →
      exec .ctGen s = .next (s.faultNext 0x02#8 1#40) ∧ exec .decRst s = .next (s.faultNext 0x02#8 1#40) ∧
      ∀ i, exec (.htNode i) s = .next (s.faultNext 0x02#8 1#40) ∧
        exec (.htNfreq i) s = .next (s.faultNext 0x02#8 1#40)) ∧
    (s.core.cv = false → ∀ b, exec (.enc b) s = .next (s.faultNext 0x02#8 2#40) ∧
      exec (.ctLen b) s = .next (s.faultNext 0x02#8 2#40) ∧
      ∀ k, exec (.ctBits b k) s = .next (s.faultNext 0x02#8 2#40)) ∧
    (s.core.dv = false → exec .decBit s = .next (s.faultNext 0x02#8 3#40) ∧
      exec .decRun s = .next (s.faultNext 0x02#8 3#40))

/-- A command that faults leaves all state but FLT, FCODE, FINFO as it was before it, DEC.RUN alone also leaving RP and
CUR where its completed bit steps took them; FCODE and FINFO are what the response carries, and FCODE is one of 0x01 ..
0x07 (R290, R293; 20_memory.md R67). -/
def Obligations.FaultEntryWritesOnlyTheFaultRegisters : Prop :=
  ∀ (i : Instr) (s t : State), s.unfaulted → exec i s = .next t → t.core.flt = true →
    ∃ (code : Status) (info : Data) (rp : BitIdx) (cur : NodeIdx) (bytes : List Byte),
      t.core = { s.core with flt := true, fcode := code, finfo := info, rp := rp, cur := cur } ∧
      t.trace = s.trace ++ bytes.map .byteOut ++ [.response (code ++ 0#16 ++ info)] ∧
      1 ≤ code.toNat ∧ code.toNat ≤ 7 ∧
      (i ≠ .decRun → rp = s.core.rp ∧ cur = s.core.cur ∧ bytes = [])

/-! ## Whole-machine rules -/

/-- The table of flag transitions: TV, CV, DV after a command that completes without fault; a faulting command leaves all
three as they were (10_state.md R39). -/
def Obligations.FlagTransitionsOfEveryCommand : Prop :=
  ∀ (i : Instr) (s t : State), s.unfaulted → exec i s = .next t →
    (t.core.flt = false →
      (t.core.tv, t.core.cv, t.core.dv) = flagsAfter i s.core.tv s.core.cv s.core.dv) ∧
    (t.core.flt = true → (t.core.tv, t.core.cv, t.core.dv) = (s.core.tv, s.core.cv, s.core.dv))

/-- The reading commands change no state when they complete, and repeating one gives the same response (20_memory.md
R68). -/
def Obligations.ReadsChangeNothingAndRepeat : Prop :=
  ∀ (i : Instr) (s t : State), onlyReads i = true → exec i s = .next t → t.core.flt = s.core.flt →
    t.core = s.core ∧ ∃ resp, t.trace = s.trace ++ [.response resp] ∧
      exec i t = .next { t with trace := t.trace ++ [.response resp] }

/-- Who writes what: each memory and register changes only by the commands that 10_state.md R21 and 20_memory.md R61
name, the fault registers FLT, FCODE and FINFO only by fault entry on an unfaulted core and by reset (R21, R24). The Bit Sequence is only appended to or emptied (40_bit_buffer.md R120); the code table is written by CT.GEN and
reset alone (43_code_table.md R208); a change of FREQ withdraws TV, CV and DV (20_memory.md R74). -/
def Obligations.EveryWriteIsByItsOwnCommands : Prop :=
  ∀ (i : Instr) (s t : State), exec i s = .next t →
    (t.core.bits ≠ s.core.bits →
      (t.core.bits = [] ∧ (i = .bbClr ∨ i = .sysReset)) ∨
      ∃ x, t.core.bits = s.core.bits ++ x ∧ ((∃ n v, i = .bbApp n v) ∨ ∃ b, i = .enc b)) ∧
    (t.core.freq ≠ s.core.freq →
      (i = .ftClr ∨ (∃ b, i = .ftCnt b) ∨ (∃ b n, i = .ftLd b n) ∨ i = .sysReset) ∧
      t.core.tv = false ∧ t.core.cv = false ∧ t.core.dv = false) ∧
    ((t.core.nodes ≠ s.core.nodes ∨ t.core.root ≠ s.core.root ∨ t.core.total ≠ s.core.total ∨
      t.core.nxt ≠ s.core.nxt ∨ t.core.heap ≠ s.core.heap) → i = .htBuild ∨ i = .sysReset) ∧
    (t.core.code ≠ s.core.code → i = .ctGen ∨ i = .sysReset) ∧
    (t.core.rp ≠ s.core.rp → i = .decRst ∨ i = .decBit ∨ i = .decRun ∨ i = .bbClr ∨ i = .sysReset) ∧
    (t.core.cur ≠ s.core.cur → i = .decRst ∨ i = .decBit ∨ i = .decRun ∨ i = .sysReset) ∧
    ((t.core.flt ≠ s.core.flt ∨ t.core.fcode ≠ s.core.fcode ∨ t.core.finfo ≠ s.core.finfo) →
      (s.core.flt = false ∧ t.core.flt = true) ∨ i = .sysReset)

/-! ## System commands (46_system.md) -/

/-- NOP is the all-zero word; in any unfaulted state it responds 0 and changes nothing; while FLT = 1 it is refused
(R250). -/
def Obligations.NopDoesNothing : Prop :=
  encode .nop = 0x0000000000000000#64 ∧ decode 0x0000000000000000#64 = .ok .nop ∧
  (∀ s : State, s.unfaulted → exec .nop s = .next (s.okNext s.core 0#40)) ∧
  (∀ s : State, s.core.flt = true →
    exec .nop s = .next { s with trace := s.trace ++ [.response 0xFF00000000000000#64] })

/-- SYS.RD r, for each of the eleven register numbers, responds the register, zero-extended, and changes no state,
faulted or not; a word of its opcode with r above 10 or a nonzero unused field is no command: IllegalCommand, or refused
while FLT = 1 (46_system.md R251; the numbers: 10_state.md R32). -/
def Obligations.SysRdReadsEachRegister : Prop :=
  (∀ p ∈ [(Csr.status, 0#8), (Csr.fcode, 1#8), (Csr.finfo, 2#8), (Csr.blen, 3#8), (Csr.rp, 4#8), (Csr.cur, 5#8),
      (Csr.root, 6#8), (Csr.total, 7#8), (Csr.nxt, 8#8), (Csr.ndb, 9#8), (Csr.bcap, 10#8)],
    encode (.sysRd p.1) = 0x01#8 ++ p.2 ++ 0#16 ++ 0#32 ∧
    decode (0x01#8 ++ p.2 ++ 0#16 ++ 0#32) = .ok (.sysRd p.1)) ∧
  (∀ s : State,
    exec (.sysRd .status) s = .next (s.okNext s.core (BitVec.ofNat 40
      (s.core.flt.toNat + 2 * s.core.tv.toNat + 4 * s.core.cv.toNat + 8 * s.core.dv.toNat))) ∧
    exec (.sysRd .fcode) s = .next (s.okNext s.core (s.core.fcode.setWidth 40)) ∧
    exec (.sysRd .finfo) s = .next (s.okNext s.core s.core.finfo) ∧
    exec (.sysRd .blen) s = .next (s.okNext s.core (BitVec.ofNat 40 s.core.blen)) ∧
    exec (.sysRd .rp) s = .next (s.okNext s.core (s.core.rp.setWidth 40)) ∧
    exec (.sysRd .cur) s = .next (s.okNext s.core (s.core.cur.setWidth 40)) ∧
    exec (.sysRd .root) s = .next (s.okNext s.core (s.core.root.setWidth 40)) ∧
    exec (.sysRd .total) s = .next (s.okNext s.core s.core.total) ∧
    exec (.sysRd .nxt) s = .next (s.okNext s.core (s.core.nxt.setWidth 40)) ∧
    exec (.sysRd .ndb) s = .next (s.okNext s.core (BitVec.ofNat 40
      (s.core.freq.toList.filter fun n => decide (n ≠ 0#32)).length)) ∧
    exec (.sysRd .bcap) s = .next (s.okNext s.core (BitVec.ofNat 40 Config.bcap))) ∧
  ∀ (r : Byte) (rsv : BitVec 16) (imm : Imm) (s : State), 10 < r.toNat ∨ rsv ≠ 0#16 ∨ imm ≠ 0#32 →
    (s.unfaulted →
      runWord (0x01#8 ++ r ++ rsv ++ imm) s = .next (s.faultNext 0x01#8 ((0x01#8 ++ r).setWidth 40))) ∧
    (s.core.flt = true → runWord (0x01#8 ++ r ++ rsv ++ imm) s =
      .next { s with trace := s.trace ++ [.response 0xFF00000000000000#64] })

/-! ## The bit buffer (40_bit_buffer.md) -/

/-- BB.CLR: BLEN, RP and DV become 0, nothing else changes, TV and CV among it (R122). -/
def Obligations.BbClrEmptiesTheBuffer : Prop :=
  encode .bbClr = 0x1000000000000000#64 ∧ decode 0x1000000000000000#64 = .ok .bbClr ∧
  ∀ s : State, s.unfaulted →
    exec .bbClr s = .next (s.okNext { s.core with bits := [], rp := 0#32, dv := false } 0#40)

/-- BB.APP n, v appends the n-bit string packed in v and responds the new length, up to BLEN + n = BCAP; past it,
BitOverflow(n), and nothing is appended (R121, R123). -/
def Obligations.BbAppAppendsAllOrNothing : Prop :=
  (∀ (n : Byte) (v : Imm), encode (.bbApp n v) = 0x11#8 ++ n ++ 0#16 ++ v) ∧
  (∀ (n : Byte) (v : Imm), (n.toNat ≤ 32 ∧ v.toNat < 2 ^ n.toNat) ↔
    decode (commandWord 0x11#8 n v) = .ok (.bbApp n v)) ∧
  ∀ (s : State) (n : Byte) (v : Imm), s.unfaulted → n.toNat ≤ 32 → v.toNat < 2 ^ n.toNat →
    (s.core.blen + n.toNat ≤ Config.bcap →
      exec (.bbApp n v) s = .next (s.okNext { s.core with bits := s.core.bits ++ unpack n.toNat v.toNat }
        (BitVec.ofNat 40 (s.core.blen + n.toNat)))) ∧
    (Config.bcap < s.core.blen + n.toNat →
      exec (.bbApp n v) s = .next (s.faultNext 0x05#8 (n.setWidth 40)))

/-- BB.GET idx responds BITS[idx] and changes no state when idx < BLEN, and faults IndexRange(idx) otherwise (R124). -/
def Obligations.BbGetReadsOneBit : Prop :=
  (∀ idx : BitIdx, encode (.bbGet idx) = 0x12#8 ++ 0#8 ++ 0#16 ++ idx ∧
    decode (0x12#8 ++ 0#8 ++ 0#16 ++ idx) = .ok (.bbGet idx)) ∧
  ∀ (s : State) (idx : BitIdx), s.unfaulted →
    (∀ h : idx.toNat < s.core.bits.length,
      exec (.bbGet idx) s = .next (s.okNext s.core (if s.core.bits[idx.toNat] then 1#40 else 0#40))) ∧
    (s.core.blen ≤ idx.toNat → exec (.bbGet idx) s = .next (s.faultNext 0x04#8 (idx.setWidth 40)))

/-- BB.GETW n, idx responds the n bits from idx, packed, when idx + n <= BLEN, the sum formed without wrap, and faults
IndexRange(idx) otherwise (R125). -/
def Obligations.BbGetwReadsPackedBits : Prop :=
  (∀ (n : Byte) (idx : BitIdx), encode (.bbGetw n idx) = 0x13#8 ++ n ++ 0#16 ++ idx) ∧
  (∀ (n : Byte) (idx : BitIdx), n.toNat ≤ 32 ↔ decode (commandWord 0x13#8 n idx) = .ok (.bbGetw n idx)) ∧
  ∀ (s : State) (n : Byte) (idx : BitIdx), s.unfaulted → n.toNat ≤ 32 →
    (idx.toNat + n.toNat ≤ s.core.blen →
      exec (.bbGetw n idx) s =
        .next (s.okNext s.core (BitVec.ofNat 40 (pack ((s.core.bits.drop idx.toNat).take n.toNat))))) ∧
    (s.core.blen < idx.toNat + n.toNat →
      exec (.bbGetw n idx) s = .next (s.faultNext 0x04#8 (idx.setWidth 40)))

/-- What BB.APP appended is what BB.GETW reads back from where it landed, and every bit before it keeps its index and
its value (40_bit_buffer.md R120, R126). -/
def Obligations.AppendedBitsReadBack : Prop :=
  ∀ (s t : State) (n : Byte) (v : Imm), s.unfaulted → n.toNat ≤ 32 → v.toNat < 2 ^ n.toNat →
    s.core.blen + n.toNat ≤ Config.bcap → exec (.bbApp n v) s = .next t →
    exec (.bbGetw n (BitVec.ofNat 32 s.core.blen)) t = .next (t.okNext t.core (v.setWidth 40)) ∧
    ∀ (m : Byte) (idx : BitIdx), m.toNat ≤ 32 → idx.toNat + m.toNat ≤ s.core.blen →
      ∃ d, exec (.bbGetw m idx) s = .next (s.okNext s.core d) ∧ exec (.bbGetw m idx) t = .next (t.okNext t.core d)

/-! ## The frequency counter (41_frequency_counter.md) -/

/-- FT.CLR: every FREQ cell becomes 0 and TV, CV, DV are cleared; nothing else changes, BITS and BLEN among it (R141). -/
def Obligations.FtClrEmptiesTheTable : Prop :=
  encode .ftClr = 0x2000000000000000#64 ∧ decode 0x2000000000000000#64 = .ok .ftClr ∧
  ∀ s : State, s.unfaulted → ∃ freq : Vector Count 256, (∀ b, countOf freq b = 0#32) ∧
    exec .ftClr s = .next (s.okNext { s.core with freq := freq, tv := false, cv := false, dv := false } 0#40)

/-- FT.CNT b adds 1 to FREQ[b], clears TV, CV, DV and responds the new count; at 2^32-1 it faults CountOverflow(b) and
FREQ and the flags are unchanged; no other cell and no other state changes (R142). -/
def Obligations.FtCntCountsOneOccurrence : Prop :=
  (∀ b : Byte, encode (.ftCnt b) = 0x21#8 ++ b ++ 0#16 ++ 0#32 ∧
    decode (0x21#8 ++ b ++ 0#16 ++ 0#32) = .ok (.ftCnt b)) ∧
  ∀ (s : State) (b : Byte), s.unfaulted →
    (s.core.freqAt b ≠ 0xFFFFFFFF#32 → ∃ freq : Vector Count 256,
      (countOf freq b).toNat = (s.core.freqAt b).toNat + 1 ∧ (∀ b', b' ≠ b → countOf freq b' = s.core.freqAt b') ∧
      exec (.ftCnt b) s = .next (s.okNext { s.core with freq := freq, tv := false, cv := false, dv := false }
        ((countOf freq b).setWidth 40))) ∧
    (s.core.freqAt b = 0xFFFFFFFF#32 → exec (.ftCnt b) s = .next (s.faultNext 0x03#8 (b.setWidth 40)))

/-- FT.LD b, c sets FREQ[b] to c, any 32-bit value, and clears TV, CV, DV; no other cell and no other state changes
(R143). -/
def Obligations.FtLdSetsOneCount : Prop :=
  (∀ (b : Byte) (n : Count), encode (.ftLd b n) = 0x22#8 ++ b ++ 0#16 ++ n ∧
    decode (0x22#8 ++ b ++ 0#16 ++ n) = .ok (.ftLd b n)) ∧
  ∀ (s : State) (b : Byte) (n : Count), s.unfaulted → ∃ freq : Vector Count 256,
    countOf freq b = n ∧ (∀ b', b' ≠ b → countOf freq b' = s.core.freqAt b') ∧
    exec (.ftLd b n) s =
      .next (s.okNext { s.core with freq := freq, tv := false, cv := false, dv := false } 0#40)

/-- FT.RD b responds FREQ[b] and changes no state; it needs no flag (R144). -/
def Obligations.FtRdReadsOneCount : Prop :=
  (∀ b : Byte, encode (.ftRd b) = 0x23#8 ++ b ++ 0#16 ++ 0#32 ∧
    decode (0x23#8 ++ b ++ 0#16 ++ 0#32) = .ok (.ftRd b)) ∧
  ∀ (s : State) (b : Byte), s.unfaulted →
    exec (.ftRd b) s = .next (s.okNext s.core ((s.core.freqAt b).setWidth 40))

/-- After FT.CLR and FT.CNT of each byte of an input whose counts fit 32 bits, FREQ[b] is the number of occurrences of
b, and the counts sum to the length of the input (R146, R147). -/
def Obligations.CountingGivesOccurrences : Prop :=
  ∀ (s : State) (bytes : List Byte), s.unfaulted → (∀ b, bytes.count b < 2 ^ 32) →
    ∃ t, runCommands (.ftClr :: bytes.map .ftCnt) s = .next t ∧ t.unfaulted ∧
      (∀ b, (t.core.freqAt b).toNat = bytes.count b) ∧ sumCounts t.core.freq = bytes.length

/-! ## The tree builder (42_tree_builder.md) -/

/-- Compare is the lexicographic comparison of the triples (freq, left-spine depth, leftmost byte) (R167). -/
def Obligations.CompareIsLexicographicInTheKey : Prop :=
  ∀ (nodes : Vector Node 511) (x y : NodeIdx) (dx dy : Nat) (bx by' : Byte),
    leftSpine nodes 511 x = some (dx, bx) → leftSpine nodes 511 y = some (dy, by') →
    compareTrees nodes x y =
      (compare (nodeAt nodes x).freq.toNat (nodeAt nodes y).freq.toNat).then
        ((compare dx dy).then (compare bx.toNat by'.toNat))

/-- Compare(y, x) = -Compare(x, y), and Compare is transitive (R168). -/
def Obligations.CompareIsAntisymmetricAndTransitive : Prop :=
  ∀ nodes : Vector Node 511,
    (∀ x y, compareTrees nodes y x = (compareTrees nodes x y).swap) ∧
    (∀ x y z, compareTrees nodes x y = .lt → compareTrees nodes y z = .lt → compareTrees nodes x z = .lt)

/-- HeapInsert keeps the heap property and adds the one entry, when Compare tells the entry from those in the heap
(R171). -/
def Obligations.HeapInsertKeepsTheHeap : Prop :=
  ∀ (nodes : Vector Node 511) (h : List NodeIdx) (t : NodeIdx), HeapProperty nodes h →
    (∀ x ∈ h, compareTrees nodes t x ≠ .eq) →
    HeapProperty nodes (heapInsert nodes h t) ∧ (heapInsert nodes h t).Perm (t :: h)

/-- HeapExtractMin returns the minimum, removes it and nothing else, and keeps the heap property (R172). -/
def Obligations.HeapExtractReturnsTheMinimum : Prop :=
  ∀ (nodes : Vector Node 511) (h : List NodeIdx), h ≠ [] → HeapProperty nodes h →
    h.Pairwise (fun x y => compareTrees nodes x y ≠ .eq) →
    h.Perm ((heapExtractMin nodes h).1 :: (heapExtractMin nodes h).2) ∧
    HeapProperty nodes (heapExtractMin nodes h).2 ∧
    ∀ y ∈ (heapExtractMin nodes h).2, treeLess nodes (heapExtractMin nodes h).1 y = true

/-- The heap is unobservable: for two or more keys the build gives the same NODE, ROOT and NXT as removing the unique
Compare-minimum of a finite set (R173). -/
def Obligations.HeapBuildIsMinimumSelection : Prop :=
  ∀ freq : Vector Count 256, 2 ≤ (keysOf freq).length →
    ((buildTree freq).nodes, (buildTree freq).root, (buildTree freq).nxt) =
      mergeByMinimum (keysOf freq).length (leafRecords freq) ((keysOf freq).map leafIdx) 256#9

/-- HT.BUILD completes on every table: it leaves the result of the build on the present Frequency Table, which is a
well-formed tree of it, sets TV, clears CV and DV, responds ROOT, and changes nothing else (R161 to R165; 10_state.md
R36). -/
def Obligations.HtBuildLeavesTheWellFormedTree : Prop :=
  encode .htBuild = 0x3000000000000000#64 ∧ decode 0x3000000000000000#64 = .ok .htBuild ∧
  ∀ s : State, s.unfaulted → ∃ (nodes : Vector Node 511) (root : NodeIdx) (total : Freq) (nxt : NodeIdx),
    TreeWellFormed s.core.freq nodes root total nxt ∧ isBuildOf s.core.freq nodes root total nxt ∧
    exec .htBuild s = .next (s.okNext
      { s.core with nodes := nodes, root := root, total := total, nxt := nxt, heap := [],
                    tv := true, cv := false, dv := false }
      (root.setWidth 40))

/-- HT.BUILD on a table with no key leaves the sentinel tree, and on a table with one key the one-leaf tree (R162,
R163). -/
def Obligations.HtBuildOnNoKeyOrOneKey : Prop :=
  ∀ s : State, s.unfaulted →
    ((∀ b, s.core.freqAt b = 0#32) → ∃ nodes : Vector Node 511,
      (∀ i, nodeAt nodes i = if i = 0#9 then .leaf 0#8 0#40 else .absent) ∧
      exec .htBuild s = .next (s.okNext
        { s.core with nodes := nodes, root := 0#9, total := 0#40, nxt := 256#9, heap := [],
                      tv := true, cv := false, dv := false } 0#40)) ∧
    (∀ b, s.core.freqAt b ≠ 0#32 → (∀ b', b' ≠ b → s.core.freqAt b' = 0#32) → ∃ nodes : Vector Node 511,
      (∀ i, nodeAt nodes i =
        if i = 256#9 then .internal 511#9 (b.setWidth 9) ((s.core.freqAt b).setWidth 40)
        else if i = b.setWidth 9 then .leaf b ((s.core.freqAt b).setWidth 40) else .absent) ∧
      exec .htBuild s = .next (s.okNext
        { s.core with nodes := nodes, root := 256#9, total := (s.core.freqAt b).setWidth 40, nxt := 257#9, heap := [],
                      tv := true, cv := false, dv := false } 256#40))

/-- In the merged tree the left child of every Internal node compares less than the right one (R164, R176 item 4). -/
def Obligations.LeftChildComparesLess : Prop :=
  ∀ (freq : Vector Count 256) (i l r : NodeIdx) (f : Freq), 2 ≤ (keysOf freq).length →
    nodeAt (buildTree freq).nodes i = .internal l r f → compareTrees (buildTree freq).nodes l r = .lt

/-- The NODE, ROOT, TOTAL and NXT that HT.BUILD leaves are a function of FREQ alone, and a second build leaves them all
as they are (R169). -/
def Obligations.BuildDependsOnTheTableAlone : Prop :=
  ∀ s s' t t' : State, s.unfaulted → s'.unfaulted → s.core.freq = s'.core.freq →
    exec .htBuild s = .next t → exec .htBuild s' = .next t' →
    t.core.nodes = t'.core.nodes ∧ t.core.root = t'.core.root ∧ t.core.total = t'.core.total ∧
    t.core.nxt = t'.core.nxt ∧
    ∃ u, exec .htBuild t = .next u ∧ u.core.nodes = t.core.nodes ∧ u.core.root = t.core.root ∧
      u.core.total = t.core.total ∧ u.core.nxt = t.core.nxt

/-- Frequency conservation: after HT.BUILD, TOTAL = freq(ROOT) = the sum of all counts, exactly (R176 item 1). -/
def Obligations.TotalIsTheSumOfCounts : Prop :=
  ∀ s t : State, s.unfaulted → exec .htBuild s = .next t →
    t.core.total = (nodeAt t.core.nodes t.core.root).freq ∧ t.core.total.toNat = sumCounts s.core.freq

/-- HT.NODE i responds the packed structure of a record of the present tree, 0 for any other record, and faults
IndexRange(511) for the NULL index and NotReady(1) before that when there is no valid tree; it changes no state
(R174). -/
def Obligations.HtNodeReadsARecord : Prop :=
  (∀ i : NodeIdx, encode (.htNode i) = 0x31#8 ++ 0#8 ++ 0#16 ++ 0#23 ++ i ∧
    decode (0x31#8 ++ 0#8 ++ 0#16 ++ i.setWidth 32) = .ok (.htNode i)) ∧
  (∀ imm : Imm, 511 < imm.toNat → ∃ e, decode (0x31#8 ++ 0#8 ++ 0#16 ++ imm) = .error e) ∧
  (∀ (s : State) (i : NodeIdx), s.unfaulted → s.core.tv = false →
    exec (.htNode i) s = .next (s.faultNext 0x02#8 1#40)) ∧
  ∀ (s : State) (i : NodeIdx), s.unfaulted → s.core.tv = true →
    (i = 511#9 → exec (.htNode i) s = .next (s.faultNext 0x04#8 511#40)) ∧
    (i ≠ 511#9 →
      (nodeAt s.core.nodes i = .absent → exec (.htNode i) s = .next (s.okNext s.core 0#40)) ∧
      (∀ b f, nodeAt s.core.nodes i = .leaf b f →
        exec (.htNode i) s = .next (s.okNext s.core
          (0#12 ++ 511#9 ++ 511#9 ++ b ++ 0b01#2))) ∧
      (∀ l r f, nodeAt s.core.nodes i = .internal l r f →
        exec (.htNode i) s = .next (s.okNext s.core (0#12 ++ r ++ l ++ 0#8 ++ 0b11#2))))

/-- HT.NFREQ i responds the frequency of a record of the present tree, 0 for any other record, and faults
IndexRange(511) for the NULL index and NotReady(1) before that when there is no valid tree; it changes no state
(R175). -/
def Obligations.HtNfreqReadsAFrequency : Prop :=
  (∀ i : NodeIdx, encode (.htNfreq i) = 0x32#8 ++ 0#8 ++ 0#16 ++ 0#23 ++ i ∧
    decode (0x32#8 ++ 0#8 ++ 0#16 ++ i.setWidth 32) = .ok (.htNfreq i)) ∧
  (∀ imm : Imm, 511 < imm.toNat → ∃ e, decode (0x32#8 ++ 0#8 ++ 0#16 ++ imm) = .error e) ∧
  (∀ (s : State) (i : NodeIdx), s.unfaulted → s.core.tv = false →
    exec (.htNfreq i) s = .next (s.faultNext 0x02#8 1#40)) ∧
  ∀ (s : State) (i : NodeIdx), s.unfaulted → s.core.tv = true →
    (i = 511#9 → exec (.htNfreq i) s = .next (s.faultNext 0x04#8 511#40)) ∧
    (i ≠ 511#9 →
      (nodeAt s.core.nodes i = .absent → exec (.htNfreq i) s = .next (s.okNext s.core 0#40)) ∧
      (∀ b f, nodeAt s.core.nodes i = .leaf b f → exec (.htNfreq i) s = .next (s.okNext s.core f)) ∧
      (∀ l r f, nodeAt s.core.nodes i = .internal l r f → exec (.htNfreq i) s = .next (s.okNext s.core f)))

/-! ## The code table (43_code_table.md) -/

/-- CT.GEN writes the code table of the present tree, sets CV, responds the number of entries, and changes nothing else;
a root that is a Leaf yields no entry; NotReady(1) when there is no valid tree (R201, R203). -/
def Obligations.CtGenWritesTheCodeTable : Prop :=
  encode .ctGen = 0x4000000000000000#64 ∧ decode 0x4000000000000000#64 = .ok .ctGen ∧
  (∀ s : State, s.unfaulted → s.core.tv = false → exec .ctGen s = .next (s.faultNext 0x02#8 1#40)) ∧
  ∀ s : State, s.unfaulted → s.core.tv = true → ∃ code : Vector (Option Bits) 256,
    exec .ctGen s = .next (s.okNext { s.core with code := code, cv := true }
      (BitVec.ofNat 40 (code.toList.filter Option.isSome).length)) ∧
    (∀ b f, nodeAt s.core.nodes s.core.root = .leaf b f → ∀ b', codeAt code b' = none) ∧
    (∀ l r f, nodeAt s.core.nodes s.core.root = .internal l r f → code = deriveCodes s.core.nodes s.core.root)

/-- The code of a byte is the path from the root to the byte's Leaf, `0` for each step to a left child and `1` for each
step to a right child, first step first (R200, R202), in the tree of every table with a key. -/
def Obligations.CodeIsThePathToTheLeaf : Prop :=
  ∀ (freq : Vector Count 256) (b : Byte) (path : Bits), keysOf freq ≠ [] →
    (codeAt (codesOfTable freq) b = some path ↔
      followPath (buildTree freq).nodes (buildTree freq).root path = some (leafIdx b) ∧ countOf freq b ≠ 0#32)

/-- Exactly one entry per distinct byte, of 1 to 255 bits: 1 bit when there is one key, at most n-1 bits when there are
n >= 2 (R204, R205 item 1). -/
def Obligations.OneCodeOfLegalLengthPerKey : Prop :=
  ∀ (freq : Vector Count 256) (b : Byte),
    ((codeAt (codesOfTable freq) b).isSome = true ↔ countOf freq b ≠ 0#32) ∧
    ∀ path, codeAt (codesOfTable freq) b = some path →
      1 ≤ path.length ∧ path.length ≤ 255 ∧
      ((keysOf freq).length = 1 → path = [true]) ∧
      (2 ≤ (keysOf freq).length → path.length ≤ (keysOf freq).length - 1)

/-- The codes are prefix-free: for two distinct bytes present in the table, neither code begins the other (R205 item
2). -/
def Obligations.CodesArePrefixFree : Prop :=
  ∀ (freq : Vector Count 256) (b b' : Byte) (s s' : Bits), b ≠ b' →
    codeAt (codesOfTable freq) b = some s → codeAt (codesOfTable freq) b' = some s' → ¬ s <+: s'

/-- For two or more keys the code is complete: the sum over the keys of 2^(-CLEN) is 1, here multiplied by 2^255 (R205
item 4). -/
def Obligations.CodeLengthsFillTheCodeSpace : Prop :=
  ∀ freq : Vector Count 256, 2 ≤ (keysOf freq).length →
    ((keysOf freq).map fun b => 2 ^ (255 - ((codeAt (codesOfTable freq) b).getD []).length)).sum = 2 ^ 255

/-- CT.LEN b responds CVAL[b] in bit 8 and CLEN[b] in bits 7:0, 0 for an absent entry, and changes no state; NotReady(2)
when there is no valid code table (R206). -/
def Obligations.CtLenReadsValidAndLength : Prop :=
  (∀ b : Byte, encode (.ctLen b) = 0x41#8 ++ b ++ 0#16 ++ 0#32 ∧
    decode (0x41#8 ++ b ++ 0#16 ++ 0#32) = .ok (.ctLen b)) ∧
  (∀ (s : State) (b : Byte), s.unfaulted → s.core.cv = false →
    exec (.ctLen b) s = .next (s.faultNext 0x02#8 2#40)) ∧
  ∀ (s : State) (b : Byte), s.unfaulted → s.core.cv = true →
    (codeAt s.core.code b = none → exec (.ctLen b) s = .next (s.okNext s.core 0#40)) ∧
    (∀ code, codeAt s.core.code b = some code → code.length ≤ 255 →
      exec (.ctLen b) s = .next (s.okNext s.core (BitVec.ofNat 40 (256 + code.length))))

/-- CT.BITS b, k responds bits 32k to 32k+31 of the code of b, as many as there are, packed, 0 past its end; MissingCode(b)
when b has no entry, NotReady(2) before that when there is no valid code table; it changes no state (R207). -/
def Obligations.CtBitsReadsAChunk : Prop :=
  (∀ (b : Byte) (k : BitVec 3), encode (.ctBits b k) = 0x42#8 ++ b ++ 0#16 ++ 0#29 ++ k ∧
    decode (0x42#8 ++ b ++ 0#16 ++ k.setWidth 32) = .ok (.ctBits b k)) ∧
  (∀ (b : Byte) (imm : Imm), 7 < imm.toNat → ∃ e, decode (0x42#8 ++ b ++ 0#16 ++ imm) = .error e) ∧
  (∀ (s : State) (b : Byte) (k : BitVec 3), s.unfaulted → s.core.cv = false →
    exec (.ctBits b k) s = .next (s.faultNext 0x02#8 2#40)) ∧
  ∀ (s : State) (b : Byte) (k : BitVec 3), s.unfaulted → s.core.cv = true →
    (codeAt s.core.code b = none → exec (.ctBits b k) s = .next (s.faultNext 0x06#8 (b.setWidth 40))) ∧
    (∀ code, codeAt s.core.code b = some code →
      (code.length ≤ 32 * k.toNat → exec (.ctBits b k) s = .next (s.okNext s.core 0#40)) ∧
      (32 * k.toNat < code.length → exec (.ctBits b k) s = .next (s.okNext s.core (BitVec.ofNat 40
        (pack ((code.drop (32 * k.toNat)).take (min (32 * k.toNat + 32) code.length - 32 * k.toNat)))))))

/-! ## The encoder (44_encoder.md) -/

/-- ENC b appends the code of b and responds the new length; NotReady(2), then MissingCode(b) when b has no entry, then
BitOverflow(CLEN[b]); in each fault nothing is appended. RP, CUR and the flags do not change (R220). -/
def Obligations.EncAppendsTheCode : Prop :=
  (∀ b : Byte, encode (.enc b) = 0x50#8 ++ b ++ 0#16 ++ 0#32 ∧
    decode (0x50#8 ++ b ++ 0#16 ++ 0#32) = .ok (.enc b)) ∧
  (∀ (s : State) (b : Byte), s.unfaulted → s.core.cv = false →
    exec (.enc b) s = .next (s.faultNext 0x02#8 2#40)) ∧
  ∀ (s : State) (b : Byte), s.unfaulted → s.core.cv = true →
    (codeAt s.core.code b = none → exec (.enc b) s = .next (s.faultNext 0x06#8 (b.setWidth 40))) ∧
    (∀ code, codeAt s.core.code b = some code → s.core.blen + code.length ≤ Config.bcap →
      exec (.enc b) s = .next (s.okNext { s.core with bits := s.core.bits ++ code }
        (BitVec.ofNat 40 (s.core.blen + code.length)))) ∧
    (∀ code, codeAt s.core.code b = some code → code.length ≤ 255 → Config.bcap < s.core.blen + code.length →
      exec (.enc b) s = .next (s.faultNext 0x05#8 (BitVec.ofNat 40 code.length)))

/-- After BB.CLR and ENC of each byte, none of which faults, the Bit Sequence is the concatenation of the codes (R222). -/
def Obligations.EncodingConcatenatesTheCodes : Prop :=
  ∀ (s : State) (bytes : List Byte), s.unfaulted → s.core.cv = true →
    (∀ b ∈ bytes, (codeAt s.core.code b).isSome = true) →
    (codesOf s.core.code bytes).length ≤ Config.bcap →
    ∃ t, runCommands (.bbClr :: bytes.map .enc) s = .next t ∧ t.unfaulted ∧
      t.core.bits = codesOf s.core.code bytes ∧ t.core.code = s.core.code

/-! ## The decoder (45_decoder.md) -/

/-- DEC.RST puts the cursor at the root and RP at 0 and sets DV; nothing else changes; NotReady(1) when there is no valid
tree (R231). -/
def Obligations.DecRstArmsTheDecoder : Prop :=
  encode .decRst = 0x6000000000000000#64 ∧ decode 0x6000000000000000#64 = .ok .decRst ∧
  (∀ s : State, s.unfaulted → s.core.tv = false → exec .decRst s = .next (s.faultNext 0x02#8 1#40)) ∧
  ∀ s : State, s.unfaulted → s.core.tv = true →
    exec .decRst s = .next (s.okNext { s.core with cur := s.core.root, rp := 0#32, dv := true } 0#40)

/-- DEC.BIT, whole: NotReady(3) when the decoder is not armed. At RP = BLEN it responds END at the root and faults
truncated elsewhere. At RP < BLEN it makes one move of the cursor: to the right child on bit 1, to the left on bit 0; RP
advances by 1; a Leaf emits its byte and sends the cursor to the root. A NULL left child and a cursor that is a Leaf
fault, with nothing changed (R232, R233). -/
def Obligations.DecBitMakesOneMove : Prop :=
  encode .decBit = 0x6100000000000000#64 ∧ decode 0x6100000000000000#64 = .ok .decBit ∧
  (∀ s : State, s.unfaulted → s.core.dv = false → exec .decBit s = .next (s.faultNext 0x02#8 3#40)) ∧
  (∀ s : State, s.unfaulted → s.core.dv = true → s.core.rp.toNat = s.core.blen →
    (s.core.cur ≠ s.core.root → exec .decBit s = .next (s.faultNext 0x07#8 (0#8 ++ s.core.rp))) ∧
    (s.core.cur = s.core.root → exec .decBit s = .next (s.okNext s.core 0x200#40))) ∧
  ∀ (s : State) (l r : NodeIdx) (f : Freq) (h : s.core.rp.toNat < s.core.bits.length),
    s.unfaulted → s.core.dv = true →
    ((nodeAt s.core.nodes s.core.cur).isLeaf = true →
      exec .decBit s = .next (s.faultNext 0x07#8 (2#8 ++ s.core.rp))) ∧
    (nodeAt s.core.nodes s.core.cur = .internal l r f →
      (s.core.bits[s.core.rp.toNat] = false → l = 511#9 →
        exec .decBit s = .next (s.faultNext 0x07#8 (1#8 ++ s.core.rp))) ∧
      ∀ child, ((s.core.bits[s.core.rp.toNat] = true ∧ child = r) ∨
          (s.core.bits[s.core.rp.toNat] = false ∧ l ≠ 511#9 ∧ child = l)) →
        (∀ b g, nodeAt s.core.nodes child = .leaf b g →
          exec .decBit s = .next
            { s with core := { s.core with rp := s.core.rp + 1#32, cur := s.core.root },
                     trace := s.trace ++ [.byteOut b, .response (0x00#8 ++ 0#16 ++ (0#31 ++ 1#1 ++ b))] }) ∧
        (∀ l' r' g, nodeAt s.core.nodes child = .internal l' r' g →
          exec .decBit s = .next (s.okNext { s.core with rp := s.core.rp + 1#32, cur := child } 0#40)))

/-- DEC.RUN, whole: NotReady(3) when the decoder is not armed. At RP = BLEN it responds 0 at the root and faults truncated
elsewhere. At RP < BLEN it is a DEC.BIT followed by a DEC.RUN: when the next DEC.BIT completes, DEC.RUN gives its byte and
then what DEC.RUN gives after it, with the same final state of the core and the number of all the bytes; when the next
DEC.BIT faults, DEC.RUN gives the same fault (R234). -/
def Obligations.DecRunIsRepeatedDecBit : Prop :=
  encode .decRun = 0x6200000000000000#64 ∧ decode 0x6200000000000000#64 = .ok .decRun ∧
  (∀ s : State, s.unfaulted → s.core.dv = false → exec .decRun s = .next (s.faultNext 0x02#8 3#40)) ∧
  (∀ s : State, s.unfaulted → s.core.dv = true → s.core.rp.toNat = s.core.blen →
    (s.core.cur ≠ s.core.root → exec .decRun s = .next (s.faultNext 0x07#8 (0#8 ++ s.core.rp))) ∧
    (s.core.cur = s.core.root → exec .decRun s = .next (s.okNext s.core 0#40))) ∧
  ∀ s t : State, s.unfaulted → s.core.dv = true → s.core.rp.toNat < s.core.blen → s.core.blen ≤ Config.bcap →
    exec .decBit s = .next t →
    (t.core.flt = true → exec .decRun s = .next t) ∧
    (t.core.flt = false → ∃ (first rest : List Byte) (w w' : Word) (core : CoreState),
      t.trace = s.trace ++ first.map .byteOut ++ [.response w] ∧
      exec .decRun t = .next { t with core := core, trace := t.trace ++ rest.map .byteOut ++ [.response w'] } ∧
      exec .decRun s = .next { s with
        core := core
        trace := s.trace ++ (first ++ rest).map .byteOut ++
          [.response (if core.flt then w' else 0x00#8 ++ 0#16 ++ BitVec.ofNat 40 (first.length + rest.length))] })

/-- DEC.RUN completes on a concatenation of codes: in a state that meets the invariants, with the decoder at a Leaf
boundary and the remaining bits the codes of a byte sequence, it emits exactly those bytes, responds their number, and
leaves RP = BLEN with the cursor at the root, changing nothing else (R234, R236). -/
def Obligations.DecRunEmitsTheEncodedBytes : Prop :=
  ∀ (s : State) (bytes : List Byte), s.unfaulted → s.core.Inv → s.core.dv = true → s.core.cur = s.core.root →
    (∀ b ∈ bytes, countOf s.core.freq b ≠ 0#32) →
    s.core.bits.drop s.core.rp.toNat = codesOf (codesOfTable s.core.freq) bytes →
    exec .decRun s = .next
      { s with core := { s.core with rp := BitVec.ofNat 32 s.core.blen },
               trace := s.trace ++ bytes.map .byteOut ++
                 [.response (0x00#8 ++ 0#16 ++ BitVec.ofNat 40 bytes.length)] }

/-! ## Invariants and flows -/

/-- The reset state meets every invariant of R35 (10_state.md). -/
def Obligations.ResetStateMeetsTheInvariants : Prop := State.reset.core.Inv

/-- Every step keeps the invariants of R35, from every state that meets them, whatever the host does (10_state.md
R35). -/
def Obligations.EveryStepKeepsTheInvariants : Prop :=
  ∀ s t : State, s.core.Inv → step s = .next t → t.core.Inv

/-- Round trip, for any input whose counts fit 32 bits and whose encoding fits BCAP: COMPRESS, DEC.RST, DEC.RUN on one
core raises no fault and emits exactly the input; and so does DECOMPRESS on any unfaulted core into which the container
left by COMPRESS has been loaded (45_decoder.md R238; 47_container_and_flows.md R262 to R264, R266). That the pairs are
loaded in ascending order of the byte is the model's choice, log 17. -/
def Obligations.RoundTripEmitsTheInput : Prop :=
  ∀ (s u : State) (bytes : List Byte), s.unfaulted → u.unfaulted → (∀ b, bytes.count b < 2 ^ 32) →
    (codesOf (codesOfTable (tableOf bytes)) bytes).length ≤ Config.bcap →
    (∃ t ts, runCommands ((Pseudo.compress bytes).expand ++ [.decRst, .decRun]) s = .next t ∧
      s.succeededWith t ts ∧ bytesOf ts = bytes) ∧
    (∃ t v ts, runCommands (Pseudo.compress bytes).expand s = .next t ∧
      runCommands (loadCommands t.core.container ++ Pseudo.decompress.expand) u = .next v ∧
      u.succeededWith v ts ∧ bytesOf ts = bytes)

/-- Loading the container of any core within its capacity into an unfaulted core raises no fault and reproduces the
Frequency Table and the Bit Sequence bit for bit (47_container_and_flows.md R261, R266). That the pairs are loaded in
ascending order of the byte is the model's choice, log 17. -/
def Obligations.LoadedContainerIsTheContainer : Prop :=
  ∀ (c : CoreState) (s : State), c.bits.length ≤ Config.bcap → s.unfaulted →
    ∃ t ts, runCommands (loadCommands c.container) s = .next t ∧ s.succeededWith t ts ∧
      t.core.freq = c.freq ∧ t.core.bits = c.bits

/-- Reading a container out of an unfaulted core changes nothing, and the responses are the number of keys, every count,
the bit length, and the bits in pieces of 32 with a shorter last one, each packed (47_container_and_flows.md R265). The
order of the read-out commands, which R265 leaves free, is the model's choice, log 17. -/
def Obligations.ReadOutGivesTheContainer : Prop :=
  ∀ s : State, s.unfaulted → s.core.blen ≤ Config.bcap →
    ∃ t, runCommands (readOutCommands s.core.blen) s = .next t ∧ t.core = s.core ∧
      t.trace = s.trace ++ ([BitVec.ofNat 64 (keysOf s.core.freq).length] ++
        allBytes.map (fun b => (s.core.freqAt b).setWidth 64) ++ [BitVec.ofNat 64 s.core.blen] ++
        (chunks32 s.core.blen s.core.bits).map (fun piece => BitVec.ofNat 64 (pack piece))).map .response
end

