-- ==== Sys2Proof/Laws/State.lean ====
section
/-! SUPPORT. One lemma per field per named update of the state, each true by rfl, so that no later proof unfolds a record
update. -/

-- The proofs of this file are run one after another: run side by side, each waits in a thread with a stack of its own.
set_option Elab.async false

namespace Sys2Proof.Machine

/-! ## Fault entry -/

@[simp] theorem takeFault_bits (f : Cause) (c : CoreState) : (takeFault f c).bits = c.bits := rfl
@[simp] theorem takeFault_freq (f : Cause) (c : CoreState) : (takeFault f c).freq = c.freq := rfl
@[simp] theorem takeFault_nodes (f : Cause) (c : CoreState) : (takeFault f c).nodes = c.nodes := rfl
@[simp] theorem takeFault_root (f : Cause) (c : CoreState) : (takeFault f c).root = c.root := rfl
@[simp] theorem takeFault_total (f : Cause) (c : CoreState) : (takeFault f c).total = c.total := rfl
@[simp] theorem takeFault_nxt (f : Cause) (c : CoreState) : (takeFault f c).nxt = c.nxt := rfl
@[simp] theorem takeFault_heap (f : Cause) (c : CoreState) : (takeFault f c).heap = c.heap := rfl
@[simp] theorem takeFault_code (f : Cause) (c : CoreState) : (takeFault f c).code = c.code := rfl
@[simp] theorem takeFault_rp (f : Cause) (c : CoreState) : (takeFault f c).rp = c.rp := rfl
@[simp] theorem takeFault_cur (f : Cause) (c : CoreState) : (takeFault f c).cur = c.cur := rfl
@[simp] theorem takeFault_flt (f : Cause) (c : CoreState) : (takeFault f c).flt = true := rfl
@[simp] theorem takeFault_tv (f : Cause) (c : CoreState) : (takeFault f c).tv = c.tv := rfl
@[simp] theorem takeFault_cv (f : Cause) (c : CoreState) : (takeFault f c).cv = c.cv := rfl
@[simp] theorem takeFault_dv (f : Cause) (c : CoreState) : (takeFault f c).dv = c.dv := rfl
@[simp] theorem takeFault_fcode (f : Cause) (c : CoreState) : (takeFault f c).fcode = f.code := rfl
@[simp] theorem takeFault_finfo (f : Cause) (c : CoreState) : (takeFault f c).finfo = f.info := rfl

/-! ## Withdrawing what is derived from FREQ -/

@[simp] theorem withdrawDerived_bits (c : CoreState) : (c.withdrawDerived).bits = c.bits := rfl
@[simp] theorem withdrawDerived_freq (c : CoreState) : (c.withdrawDerived).freq = c.freq := rfl
@[simp] theorem withdrawDerived_nodes (c : CoreState) : (c.withdrawDerived).nodes = c.nodes := rfl
@[simp] theorem withdrawDerived_root (c : CoreState) : (c.withdrawDerived).root = c.root := rfl
@[simp] theorem withdrawDerived_total (c : CoreState) : (c.withdrawDerived).total = c.total := rfl
@[simp] theorem withdrawDerived_nxt (c : CoreState) : (c.withdrawDerived).nxt = c.nxt := rfl
@[simp] theorem withdrawDerived_heap (c : CoreState) : (c.withdrawDerived).heap = c.heap := rfl
@[simp] theorem withdrawDerived_code (c : CoreState) : (c.withdrawDerived).code = c.code := rfl
@[simp] theorem withdrawDerived_rp (c : CoreState) : (c.withdrawDerived).rp = c.rp := rfl
@[simp] theorem withdrawDerived_cur (c : CoreState) : (c.withdrawDerived).cur = c.cur := rfl
@[simp] theorem withdrawDerived_flt (c : CoreState) : (c.withdrawDerived).flt = c.flt := rfl
@[simp] theorem withdrawDerived_tv (c : CoreState) : (c.withdrawDerived).tv = false := rfl
@[simp] theorem withdrawDerived_cv (c : CoreState) : (c.withdrawDerived).cv = false := rfl
@[simp] theorem withdrawDerived_dv (c : CoreState) : (c.withdrawDerived).dv = false := rfl
@[simp] theorem withdrawDerived_fcode (c : CoreState) : (c.withdrawDerived).fcode = c.fcode := rfl
@[simp] theorem withdrawDerived_finfo (c : CoreState) : (c.withdrawDerived).finfo = c.finfo := rfl

/-! ## Writing a counter -/

@[simp] theorem setFreq_bits (c : CoreState) (b : Byte) (n : Count) : (c.setFreq b n).bits = c.bits := rfl
@[simp] theorem setFreq_freq (c : CoreState) (b : Byte) (n : Count) : (c.setFreq b n).freq = c.freq.set b.toNat n b.isLt := rfl
@[simp] theorem setFreq_nodes (c : CoreState) (b : Byte) (n : Count) : (c.setFreq b n).nodes = c.nodes := rfl
@[simp] theorem setFreq_root (c : CoreState) (b : Byte) (n : Count) : (c.setFreq b n).root = c.root := rfl
@[simp] theorem setFreq_total (c : CoreState) (b : Byte) (n : Count) : (c.setFreq b n).total = c.total := rfl
@[simp] theorem setFreq_nxt (c : CoreState) (b : Byte) (n : Count) : (c.setFreq b n).nxt = c.nxt := rfl
@[simp] theorem setFreq_heap (c : CoreState) (b : Byte) (n : Count) : (c.setFreq b n).heap = c.heap := rfl
@[simp] theorem setFreq_code (c : CoreState) (b : Byte) (n : Count) : (c.setFreq b n).code = c.code := rfl
@[simp] theorem setFreq_rp (c : CoreState) (b : Byte) (n : Count) : (c.setFreq b n).rp = c.rp := rfl
@[simp] theorem setFreq_cur (c : CoreState) (b : Byte) (n : Count) : (c.setFreq b n).cur = c.cur := rfl
@[simp] theorem setFreq_flt (c : CoreState) (b : Byte) (n : Count) : (c.setFreq b n).flt = c.flt := rfl
@[simp] theorem setFreq_tv (c : CoreState) (b : Byte) (n : Count) : (c.setFreq b n).tv = c.tv := rfl
@[simp] theorem setFreq_cv (c : CoreState) (b : Byte) (n : Count) : (c.setFreq b n).cv = c.cv := rfl
@[simp] theorem setFreq_dv (c : CoreState) (b : Byte) (n : Count) : (c.setFreq b n).dv = c.dv := rfl
@[simp] theorem setFreq_fcode (c : CoreState) (b : Byte) (n : Count) : (c.setFreq b n).fcode = c.fcode := rfl
@[simp] theorem setFreq_finfo (c : CoreState) (b : Byte) (n : Count) : (c.setFreq b n).finfo = c.finfo := rfl

/-! ## How a command ends -/

@[simp] theorem respond_core (c : CoreState) (d : Data) : (respond c d).core = c := rfl
@[simp] theorem respond_emitted (c : CoreState) (d : Data) : (respond c d).emitted = [] := rfl
@[simp] theorem respond_verdict (c : CoreState) (d : Data) : (respond c d).verdict = .ok d := rfl
@[simp] theorem respond_finalCore (c : CoreState) (d : Data) : (respond c d).finalCore = c := rfl
@[simp] theorem respond_responseWord (c : CoreState) (d : Data) : (respond c d).responseWord = okWord d := rfl
@[simp] theorem respond_transfers (c : CoreState) (d : Data) : (respond c d).transfers = [.response (okWord d)] := rfl
@[simp] theorem raise_core (f : Cause) (c : CoreState) : (raise f c).core = c := rfl
@[simp] theorem raise_emitted (f : Cause) (c : CoreState) : (raise f c).emitted = [] := rfl
@[simp] theorem raise_verdict (f : Cause) (c : CoreState) : (raise f c).verdict = .raised f := rfl
@[simp] theorem raise_finalCore (f : Cause) (c : CoreState) : (raise f c).finalCore = takeFault f c := rfl
@[simp] theorem raise_responseWord (f : Cause) (c : CoreState) :
    (raise f c).responseWord = responseWord f.code f.info := rfl
@[simp] theorem raise_transfers (f : Cause) (c : CoreState) :
    (raise f c).transfers = [.response (responseWord f.code f.info)] := rfl

@[simp] theorem commit_core (s : State) (r : CmdResult) : (s.commit r).core = r.finalCore := rfl
@[simp] theorem commit_inputs (s : State) (r : CmdResult) : (s.commit r).inputs = s.inputs := rfl
@[simp] theorem commit_trace (s : State) (r : CmdResult) : (s.commit r).trace = s.trace ++ r.transfers := rfl
@[simp] theorem refuse_core (s : State) : s.refuse.core = s.core := rfl
@[simp] theorem refuse_inputs (s : State) : s.refuse.inputs = s.inputs := rfl
@[simp] theorem refuse_trace (s : State) : s.refuse.trace = s.trace ++ [.response refusedWord] := rfl

@[simp] theorem okNext_core (s : State) (c : CoreState) (d : Data) : (s.okNext c d).core = c := rfl
@[simp] theorem okNext_inputs (s : State) (c : CoreState) (d : Data) : (s.okNext c d).inputs = s.inputs := rfl
@[simp] theorem okNext_trace (s : State) (c : CoreState) (d : Data) :
    (s.okNext c d).trace = s.trace ++ [.response (okWord d)] := rfl
@[simp] theorem faultNext_inputs (s : State) (k : Status) (d : Data) : (s.faultNext k d).inputs = s.inputs := rfl
@[simp] theorem faultNext_flt (s : State) (k : Status) (d : Data) : (s.faultNext k d).core.flt = true := rfl
@[simp] theorem faultNext_trace (s : State) (k : Status) (d : Data) :
    (s.faultNext k d).trace = s.trace ++ [.response (responseWord k d)] := rfl

/-- A completed command that emits nothing is the `okNext` of claims. -/
theorem commit_respond (s : State) (c : CoreState) (d : Data) : s.commit (respond c d) = s.okNext c d := rfl

/-- A command that raises a fault and emits nothing is the `faultNext` of claims. -/
theorem commit_raise (s : State) (f : Cause) : s.commit (raise f s.core) = s.faultNext f.code f.info := rfl

end Sys2Proof.Machine
end

