-- ==== Sys2Proof/Laws/Ops.lean ====
section
/-! SUPPORT. What each shared operation does, said once: reading after writing in every memory, the keys of a table, the
capacity, and how a command runs. -/

-- The proofs of this file are run one after another: run side by side, each waits in a thread with a stack of its own.
set_option Elab.async false

namespace Sys2Proof.Machine

/-! ## The parameter BCAP (00_scope.md R8) -/

theorem bcap_pos : 1 ≤ Config.bcap := Nat.le_max_left ..

theorem bcap_lt : Config.bcap < 2 ^ 32 := by
  unfold Config.bcap
  have := Config.bcapParam.isLt
  omega

/-! ## Reading after writing -/

theorem countOf_set (freq : Vector Count 256) (b b' : Byte) (n : Count) :
    countOf (freq.set b.toNat n b.isLt) b' = if b' = b then n else countOf freq b' := by
  unfold countOf
  rw [Vector.getElem_set]
  by_cases h : b' = b
  · simp [h]
  · have : b.toNat ≠ b'.toNat := fun e => h (BitVec.eq_of_toNat_eq e.symm)
    simp [h, this]

theorem freqAt_eq (c : CoreState) (b : Byte) : c.freqAt b = countOf c.freq b := rfl

theorem countOf_replicate (b : Byte) : countOf (Vector.replicate 256 0#32) b = 0#32 := by
  simp [countOf]

/-- Two tables with the same count for every byte are the same table. -/
theorem freq_ext {f g : Vector Count 256} (h : ∀ b, countOf f b = countOf g b) : f = g := by
  apply Vector.ext
  intro i hi
  have := h (BitVec.ofNat 8 i)
  simpa [countOf, Nat.mod_eq_of_lt hi] using this

theorem codeAt_setCode (code : Vector (Option Bits) 256) (b b' : Byte) (s : Bits) :
    codeAt (setCode code b s) b' = if b' = b then some s else codeAt code b' := by
  unfold codeAt setCode
  rw [Vector.getElem_set]
  by_cases h : b' = b
  · simp [h]
  · have : b.toNat ≠ b'.toNat := fun e => h (BitVec.eq_of_toNat_eq e.symm)
    simp [h, this]

@[simp] theorem codeAt_replicate (b : Byte) : codeAt (Vector.replicate 256 none) b = none := by
  simp [codeAt]

theorem nodeAt_of_lt (nodes : Vector Node 511) {i : NodeIdx} (h : i.toNat < 511) : nodeAt nodes i = nodes[i.toNat] := by
  simp [nodeAt, h]

/-- The index 511, NULL, names no record. -/
@[simp] theorem nodeAt_null (nodes : Vector Node 511) : nodeAt nodes Config.null = .absent := by
  simp [nodeAt, Config.null]

theorem nodeAt_setNode (nodes : Vector Node 511) (i j : NodeIdx) (n : Node) (hi : i ≠ Config.null) :
    nodeAt (setNode nodes i n) j = if j = i then n else nodeAt nodes j := by
  have hi' : i.toNat < 511 := by
    have h1 := i.isLt
    have h2 : i.toNat ≠ 511 := fun e => hi (BitVec.eq_of_toNat_eq (by simpa [Config.null] using e))
    omega
  by_cases h : j = i
  · subst h
    simp [nodeAt, setNode, hi']
  · have : i.toNat ≠ j.toNat := fun e => h (BitVec.eq_of_toNat_eq e.symm)
    simp [nodeAt, setNode, h, this]

@[simp] theorem nodeAt_replicate (i : NodeIdx) : nodeAt (Vector.replicate 511 .absent) i = .absent := by
  unfold nodeAt
  split <;> simp

/-- Two node memories with the same record at every index are the same memory. -/
theorem nodes_ext {m n : Vector Node 511} (h : ∀ i, nodeAt m i = nodeAt n i) : m = n := by
  apply Vector.ext
  intro i hi
  have := h (BitVec.ofNat 9 i)
  have e : i % 512 = i := Nat.mod_eq_of_lt (by omega)
  simpa [nodeAt, e, hi] using this

theorem leafIdx_toNat (b : Byte) : (leafIdx b).toNat = b.toNat := by
  have := b.isLt
  simp [leafIdx, BitVec.toNat_setWidth]
  omega

theorem leafIdx_lt (b : Byte) : (leafIdx b).toNat < 256 := by
  rw [leafIdx_toNat]
  exact b.isLt

theorem leafIdx_injective {b b' : Byte} (h : leafIdx b = leafIdx b') : b = b' := by
  apply BitVec.eq_of_toNat_eq
  rw [← leafIdx_toNat, ← leafIdx_toNat, h]

theorem leafIdx_ne_null (b : Byte) : leafIdx b ≠ Config.null := by
  intro h
  have := leafIdx_lt b
  rw [h] at this
  simp [Config.null] at this

/-! ## The byte values and the keys of a table -/

theorem mem_allBytes (b : Byte) : b ∈ allBytes :=
  List.mem_map.mpr ⟨b.toNat, List.mem_range.mpr b.isLt, by simp⟩

theorem allBytes_nodup : allBytes.Nodup := by
  unfold allBytes
  rw [List.nodup_map_iff_inj_on List.nodup_range]
  intro x hx y hy h
  have hx := List.mem_range.mp hx
  have hy := List.mem_range.mp hy
  have := congrArg BitVec.toNat h
  simp at this
  omega

@[simp] theorem allBytes_length : allBytes.length = 256 := by simp [allBytes]

/-- b is a key exactly when FREQ[b] != 0 (10_state.md R26). -/
theorem mem_keysOf {freq : Vector Count 256} {b : Byte} : b ∈ keysOf freq ↔ countOf freq b ≠ 0#32 := by
  simp [keysOf, mem_allBytes, countOf]

/-- The keys of a table, from any test that tells its nonzero counts. -/
theorem keysOf_eq_filter {freq : Vector Count 256} {p : Byte → Bool} (h : ∀ b, countOf freq b ≠ 0#32 ↔ p b = true) :
    keysOf freq = allBytes.filter p := by
  unfold keysOf
  congr 1
  funext b
  rw [Bool.eq_iff_iff]
  simpa [countOf] using h b

theorem keysOf_nodup (freq : Vector Count 256) : (keysOf freq).Nodup := allBytes_nodup.filter _

theorem keysOf_length_le (freq : Vector Count 256) : (keysOf freq).length ≤ 256 :=
  (List.length_filter_le _ allBytes).trans (by simp)

/-! ## How a command runs (60_exceptions.md R288) -/

theorem runGated_faulted {s : State} (need : Option Need) (body : CoreState → CmdResult) (h : s.core.flt = true) :
    runGated need body s = .next s.refuse := by
  simp [runGated, h]

theorem runGated_unfaulted {s : State} (need : Option Need) (body : CoreState → CmdResult) (h : s.unfaulted) :
    runGated need body s = .next (s.commit (withNeed need body s.core)) := by
  simp [runGated, h]

/-- A gated command always answers a next state: it is refused, or it ends with its result. -/
theorem runGated_next {need : Option Need} {body : CoreState → CmdResult} {s t : State}
    (h : runGated need body s = .next t) :
    (s.core.flt = true ∧ t = s.refuse) ∨ (s.core.flt = false ∧ t = s.commit (withNeed need body s.core)) := by
  unfold runGated at h
  split at h <;> cases h <;> simp_all

theorem runAlways_next {body : CoreState → CmdResult} {s t : State} (h : runAlways body s = .next t) :
    t = s.commit (body s.core) := by
  cases h
  rfl

@[simp] theorem withNeed_none (body : CoreState → CmdResult) (c : CoreState) : withNeed none body c = body c := rfl

theorem withNeed_ready {n : Need} (body : CoreState → CmdResult) {c : CoreState} (h : c.ready n = true) :
    withNeed (some n) body c = body c := by
  simp [withNeed, h]

theorem withNeed_missing {n : Need} (body : CoreState → CmdResult) {c : CoreState} (h : c.ready n = false) :
    withNeed (some n) body c = raise (.notReady n) c := by
  simp [withNeed, h]

@[simp] theorem ready_tree (c : CoreState) : c.ready .tree = c.tv := rfl
@[simp] theorem ready_codeTable (c : CoreState) : c.ready .codeTable = c.cv := rfl
@[simp] theorem ready_decoder (c : CoreState) : c.ready .decoder = c.dv := rfl

end Sys2Proof.Machine
end

