-- ==== Sys2Proof/Laws/BitBuffer.lean ====
section
/-! SUPPORT. What the append primitive does, said once (40_bit_buffer.md R121), and the sizes of packed strings. -/

-- The proofs of this file are run one after another: run side by side, each waits in a thread with a stack of its own.
set_option Elab.async false

namespace Sys2Proof.Machine

@[simp] theorem unpack_length (n v : Nat) : (unpack n v).length = n := by simp [unpack]

@[simp] theorem pack_nil : pack [] = 0 := rfl

/-- pack, with the last bit taken off: the shape of its recursion from the right. -/
theorem pack_append_singleton (s : Bits) (b : Bool) : pack (s ++ [b]) = 2 * pack s + b.toNat := by
  simp [pack, List.foldl_append]

theorem appendBits_fits {bcap : Nat} {bs : Bits} {c : CoreState} (h : c.blen + bs.length ≤ bcap) :
    appendBits bcap bs c = .ok { c with bits := c.bits ++ bs } := by
  simp [appendBits, Nat.not_lt.mpr h]

theorem appendBits_overflows {bcap : Nat} {bs : Bits} {c : CoreState} (h : bcap < c.blen + bs.length) :
    appendBits bcap bs c = .error (.bitOverflow (BitVec.ofNat 8 bs.length)) := by
  simp [appendBits, h]

/-- An append that fits adds the whole string and responds the new length. -/
theorem appendAndRespond_fits {bcap : Nat} {bs : Bits} {c : CoreState} (h : c.blen + bs.length ≤ bcap) :
    appendAndRespond bcap bs c =
      respond { c with bits := c.bits ++ bs } (BitVec.ofNat 40 (c.blen + bs.length)) := by
  unfold appendAndRespond
  rw [appendBits_fits h]
  simp [CoreState.blen, dataOfNat]

/-- An append that does not fit raises BitOverflow and writes nothing. -/
theorem appendAndRespond_overflows {bcap : Nat} {bs : Bits} {c : CoreState} (h : bcap < c.blen + bs.length) :
    appendAndRespond bcap bs c = raise (.bitOverflow (BitVec.ofNat 8 bs.length)) c := by
  unfold appendAndRespond
  rw [appendBits_overflows h]

/-- Everything an append can do: it adds the whole string within the capacity, or it changes nothing and raises. -/
theorem appendAndRespond_cases (bcap : Nat) (bs : Bits) (c : CoreState) :
    (c.blen + bs.length ≤ bcap ∧ appendAndRespond bcap bs c =
      respond { c with bits := c.bits ++ bs } (BitVec.ofNat 40 (c.blen + bs.length))) ∨
    (bcap < c.blen + bs.length ∧
      appendAndRespond bcap bs c = raise (.bitOverflow (BitVec.ofNat 8 bs.length)) c) := by
  rcases Nat.lt_or_ge bcap (c.blen + bs.length) with h | h
  · exact .inr ⟨h, appendAndRespond_overflows h⟩
  · exact .inl ⟨h, appendAndRespond_fits h⟩

end Sys2Proof.Machine
end

