-- ==== Sys2Proof/Laws/Decoder.lean ====
section
/-! SUPPORT. What a bit step does and what the loop of DEC.RUN leaves alone, said once (45_decoder.md R232, R234). -/

-- The proofs of this file are run one after another: run side by side, each waits in a thread with a stack of its own.
set_option Elab.async false

namespace Sys2Proof.Machine

/-- The core c with its decoder registers moved: the shape of every state that the decoder leaves before fault entry. -/
abbrev CoreState.moved (c : CoreState) (rp : BitIdx) (cur : NodeIdx) : CoreState := { c with rp := rp, cur := cur }

theorem arrive_leaf {c : CoreState} {t : NodeIdx} (h : (nodeAt c.nodes t).isLeaf = true) :
    arrive c t = ({ c with cur := c.root }, some (nodeAt c.nodes t).byte) := by
  simp [arrive, h]

theorem arrive_internal {c : CoreState} {t : NodeIdx} (h : (nodeAt c.nodes t).isLeaf = false) :
    arrive c t = ({ c with cur := t }, none) := by
  simp [arrive, h]

/-- A bit step that succeeds adds 1 to RP, moves the cursor, and changes nothing else. -/
theorem bitStep_ok {c c' : CoreState} {e : Option Byte} (h : bitStep c = .ok (c', e)) :
    c' = c.moved (c.rp + 1#32) c'.cur := by
  unfold bitStep at h
  split at h
  · cases h
  split at h
  · simp only [Except.ok.injEq, arrive] at h
    split at h <;> cases h <;> rfl
  split at h
  · cases h
  · simp only [Except.ok.injEq, arrive] at h
    split at h <;> cases h <;> rfl

/-- A bit step that raises raises MalformedStream at RP. -/
theorem bitStep_error {c : CoreState} {f : Cause} (h : bitStep c = .error f) :
    f = .malformedStream .emptyTree c.rp ∨ f = .malformedStream .noTransition c.rp := by
  unfold bitStep at h
  split at h
  · cases h
    exact .inl rfl
  split at h
  · cases h
  split at h
  · cases h
    exact .inr rfl
  · cases h

/-- The loop of DEC.RUN changes nothing but RP and CUR, emits after what it was given, and ends OK with the number of
bytes or in MalformedStream. -/
theorem decRunLoop_result (n : Nat) (c : CoreState) (out : List Byte) :
    ∃ rp cur rest, (decRunLoop n c out).core = c.moved rp cur ∧ (decRunLoop n c out).emitted = out ++ rest ∧
      ((decRunLoop n c out).verdict = .ok (dataOfNat (out ++ rest).length) ∧ cur = c.root ∨
        ∃ which, (decRunLoop n c out).verdict = .raised (.malformedStream which rp)) := by
  induction n generalizing c out with
  | zero =>
    unfold decRunLoop
    split
    · exact ⟨c.rp, c.cur, [], rfl, by simp, .inl ⟨by simp, ‹_›⟩⟩
    · exact ⟨c.rp, c.cur, [], rfl, by simp, .inr ⟨_, rfl⟩⟩
  | succ n ih =>
    unfold decRunLoop
    split
    · rename_i f hf
      refine ⟨c.rp, c.cur, [], by simp, by simp, .inr ?_⟩
      rcases bitStep_error hf with rfl | rfl
      · exact ⟨_, rfl⟩
      · exact ⟨_, rfl⟩
    · rename_i c' e hc
      obtain ⟨rp, cur, rest, h1, h2, h3⟩ := ih c' (out ++ e.toList)
      have hm := bitStep_ok hc
      refine ⟨rp, cur, e.toList ++ rest, ?_, by simpa using h2, ?_⟩
      · rw [h1, hm]
      · have hr : c'.root = c.root := by rw [hm]
        rw [hr] at h3
        simpa using h3

/-- The bytes already emitted only stand before what the loop emits and add to the count. -/
theorem decRunLoop_core_of_out (n : Nat) (c : CoreState) (out out' : List Byte) :
    (decRunLoop n c out).core = (decRunLoop n c out').core := by
  induction n generalizing c out out' with
  | zero =>
    unfold decRunLoop
    split <;> rfl
  | succ n ih =>
    unfold decRunLoop
    split
    · rfl
    · exact ih ..

end Sys2Proof.Machine
end

