-- ==== Sys2Proof/Laws/Exec.lean ====
section
/-! SUPPORT. What the meaning of a command can do, said once: every command is a pseudocode body run under the common
checks (60_exceptions.md R288), and a body that raises has changed nothing, DEC.RUN excepted. -/

-- The proofs of this file are run one after another: run side by side, each waits in a thread with a stack of its own.
set_option Elab.async false

namespace Sys2Proof.Machine

/-- The flag that a command needs (60_exceptions.md R281, the NotReady row). -/
def needOf : Instr → Option Need
  | .htNode _ => some .tree
  | .htNfreq _ => some .tree
  | .ctGen => some .tree
  | .decRst => some .tree
  | .ctLen _ => some .codeTable
  | .ctBits _ _ => some .codeTable
  | .enc _ => some .codeTable
  | .decBit => some .decoder
  | .decRun => some .decoder
  | _ => none

/-- The pseudocode of a command after the common checks. -/
def bodyOf : Instr → CoreState → CmdResult
  | .nop => nopBody
  | .sysRd r => sysRdBody Config.bcap r
  | .sysReset => sysResetBody
  | .bbClr => bbClrBody
  | .bbApp n v => bbAppBody Config.bcap n v
  | .bbGet idx => bbGetBody idx
  | .bbGetw n idx => bbGetwBody n idx
  | .ftClr => ftClrBody
  | .ftCnt b => ftCntBody b
  | .ftLd b n => ftLdBody b n
  | .ftRd b => ftRdBody b
  | .htBuild => htBuildBody
  | .htNode i => htNodeBody i
  | .htNfreq i => htNfreqBody i
  | .ctGen => ctGenBody
  | .ctLen b => ctLenBody b
  | .ctBits b k => ctBitsBody b k
  | .enc b => encBody Config.bcap b
  | .decRst => decRstBody
  | .decBit => decBitBody
  | .decRun => decRunBody

/-- The two commands that execute while FLT = 1 (60_exceptions.md R288 step 1). -/
def runsFaulted : Instr → Bool
  | .sysRd _ => true
  | .sysReset => true
  | _ => false

/-- Every command is its body under the common checks. -/
theorem exec_eq (i : Instr) (s : State) :
    exec i s = if runsFaulted i then runAlways (bodyOf i) s else runGated (needOf i) (bodyOf i) s := by
  cases i <;> rfl

/-- What a command answers, whatever it is: it is refused, or it ends with the result of its checks and its body. -/
theorem exec_next {i : Instr} {s t : State} (h : exec i s = .next t) :
    (runsFaulted i = true ∧ t = s.commit (bodyOf i s.core)) ∨
    (runsFaulted i = false ∧ s.core.flt = true ∧ t = s.refuse) ∨
    (runsFaulted i = false ∧ s.core.flt = false ∧ t = s.commit (withNeed (needOf i) (bodyOf i) s.core)) := by
  rw [exec_eq] at h
  split at h
  · exact .inl ⟨‹_›, runAlways_next h⟩
  · rcases runGated_next h with ⟨h1, h2⟩ | ⟨h1, h2⟩
    · exact .inr (.inl ⟨by simp_all, h1, h2⟩)
    · exact .inr (.inr ⟨by simp_all, h1, h2⟩)

/-- Every command answers a next state, in every state. -/
theorem exec_answers_next (i : Instr) (s : State) : ∃ t, exec i s = .next t := by
  rw [exec_eq]
  unfold runAlways runGated
  split
  · exact ⟨_, rfl⟩
  split <;> exact ⟨_, rfl⟩

/-- What an unfaulted core answers. -/
theorem exec_unfaulted {i : Instr} {s : State} (h : s.unfaulted) :
    exec i s = .next (s.commit (withNeed (needOf i) (bodyOf i) s.core)) := by
  rw [exec_eq]
  split
  · cases i <;> simp_all [runsFaulted] <;> rfl
  · exact runGated_unfaulted _ _ h

/-- The bit step of DEC.BIT ends OK, or it raises and has changed nothing. -/
theorem decBitBody_cases (c : CoreState) :
    (∃ f, decBitBody c = raise f c) ∨ (∃ d, decBitBody c = respond c d) ∨
    ∃ cur e, decBitBody c =
      { core := c.moved (c.rp + 1#32) cur, emitted := Option.toList e, verdict := .ok (bitStepWord e) } := by
  unfold decBitBody
  split
  · split
    · exact .inl ⟨_, rfl⟩
    · rename_i c' e hc
      refine .inr (.inr ⟨c'.cur, e, ?_⟩)
      rw [bitStep_ok hc]
  split
  · exact .inr (.inl ⟨_, rfl⟩)
  · exact .inl ⟨_, rfl⟩

/-- A body that raises is a plain `raise` on the state it was given: nothing written, nothing emitted. DEC.RUN alone may
have moved RP and CUR and emitted bytes (60_exceptions.md R290). -/
theorem bodyOf_raised {i : Instr} {c : CoreState} {f : Cause} (h : (bodyOf i c).verdict = .raised f) (hi : i ≠ .decRun) :
    bodyOf i c = raise f c := by
  cases i with
  | bbApp n v =>
    simp only [bodyOf, bbAppBody] at h ⊢
    rcases appendAndRespond_cases Config.bcap (unpack n.toNat v.toNat) c with ⟨_, e⟩ | ⟨_, e⟩ <;> rw [e] at h ⊢
    · cases h
    · cases h
      rfl
  | bbGet idx =>
    simp only [bodyOf, bbGetBody] at h ⊢
    split at h <;> cases h
    simp [*]
  | bbGetw n idx =>
    simp only [bodyOf, bbGetwBody] at h ⊢
    split at h <;> cases h
    simp [*]
  | ftCnt b =>
    simp only [bodyOf, ftCntBody] at h ⊢
    split at h <;> cases h
    simp [*]
  | htNode i =>
    simp only [bodyOf, htNodeBody] at h ⊢
    split at h <;> cases h
    simp [*]
  | htNfreq i =>
    simp only [bodyOf, htNfreqBody] at h ⊢
    split at h <;> cases h
    simp [*]
  | ctBits b k =>
    simp only [bodyOf, ctBitsBody] at h ⊢
    split at h <;> cases h
    simp [*]
  | enc b =>
    simp only [bodyOf, encBody] at h ⊢
    split at h
    · cases h
      simp [*]
    · rename_i s hs
      rcases appendAndRespond_cases Config.bcap s c with ⟨_, e⟩ | ⟨_, e⟩ <;> rw [e] at h
      · cases h
      · cases h
        simp [*]
  | decBit =>
    simp only [bodyOf] at h ⊢
    rcases decBitBody_cases c with ⟨f', e⟩ | ⟨d, e⟩ | ⟨cur, o, e⟩ <;> rw [e] at h ⊢
    · cases h
      rfl
    · cases h
    · cases h
  | decRun => exact absurd rfl hi
  | _ => cases h

/-- Only DEC.BIT and DEC.RUN emit (30_encoding.md R93). -/
theorem bodyOf_emitted {i : Instr} {c : CoreState} (h : (bodyOf i c).emitted ≠ []) : i = .decBit ∨ i = .decRun := by
  cases i with
  | decBit => exact .inl rfl
  | decRun => exact .inr rfl
  | bbApp n v =>
    simp only [bodyOf, bbAppBody] at h
    rcases appendAndRespond_cases Config.bcap (unpack n.toNat v.toNat) c with ⟨_, e⟩ | ⟨_, e⟩ <;> simp [e] at h
  | enc b =>
    simp only [bodyOf, encBody] at h
    split at h
    · simp at h
    · rename_i s hs
      rcases appendAndRespond_cases Config.bcap s c with ⟨_, e⟩ | ⟨_, e⟩ <;> simp [e] at h
  | bbGet idx =>
    simp only [bodyOf, bbGetBody] at h
    split at h <;> simp at h
  | bbGetw n idx =>
    simp only [bodyOf, bbGetwBody] at h
    split at h <;> simp at h
  | ftCnt b =>
    simp only [bodyOf, ftCntBody] at h
    split at h <;> simp at h
  | htNode i =>
    simp only [bodyOf, htNodeBody] at h
    split at h <;> simp at h
  | htNfreq i =>
    simp only [bodyOf, htNfreqBody] at h
    split at h <;> simp at h
  | ctBits b k =>
    simp only [bodyOf, ctBitsBody] at h
    split at h <;> simp at h
  | _ => exact absurd rfl h

end Sys2Proof.Machine
end

