-- ==== Sys2Proof/Laws/Fields.lean ====
section
/-! SUPPORT. The bits of a command word and of a response word, and the fields read back from one that was put together
(30_encoding.md R94, R96). -/

-- The proofs of this file are run one after another: run side by side, each waits in a thread with a stack of its own.
set_option Elab.async false

namespace Sys2Proof

/-- The bits of a command word, field by field. -/
theorem getLsbD_commandWord (op : BitVec 8) (a : Byte) (imm : Imm) (j : Nat) :
    (commandWord op a imm).getLsbD j =
      if j < 32 then imm.getLsbD j
      else if j < 48 then false
      else if j < 56 then a.getLsbD (j - 48)
      else op.getLsbD (j - 56) := by
  change BitVec.getLsbD (w := 8 + 8 + 16 + 32) (op ++ a ++ 0#16 ++ imm) j = _
  simp only [BitVec.getLsbD_append, BitVec.getLsbD_zero]
  by_cases h1 : j < 32
  · simp [h1]
  by_cases h2 : j < 48
  · simp [h1, h2, show j - 32 < 16 by omega]
  by_cases h3 : j < 56
  · simp [h1, h2, h3, show ¬ j - 32 < 16 by omega, show j - 32 - 16 = j - 48 by omega, show j - 48 < 8 by omega]
  · simp [h1, h2, h3, show ¬ j - 32 < 16 by omega, show ¬ j - 32 - 16 < 8 by omega,
      show j - 32 - 16 - 8 = j - 56 by omega]

@[simp] theorem opField_commandWord (op : BitVec 8) (a : Byte) (imm : Imm) : opField (commandWord op a imm) = op := by
  apply BitVec.eq_of_getLsbD_eq
  intro i hi
  simp [opField, getLsbD_commandWord, hi, show ¬ 56 + i < 32 by omega, show ¬ 56 + i < 48 by omega]

@[simp] theorem aField_commandWord (op : BitVec 8) (a : Byte) (imm : Imm) : aField (commandWord op a imm) = a := by
  apply BitVec.eq_of_getLsbD_eq
  intro i hi
  simp [aField, getLsbD_commandWord, hi, show ¬ 48 + i < 32 by omega, show 48 + i < 56 by omega]

@[simp] theorem rsvField_commandWord (op : BitVec 8) (a : Byte) (imm : Imm) :
    rsvField (commandWord op a imm) = 0#16 := by
  apply BitVec.eq_of_getLsbD_eq
  intro i hi
  simp [rsvField, getLsbD_commandWord, show 32 + i < 48 by omega]

@[simp] theorem immField_commandWord (op : BitVec 8) (a : Byte) (imm : Imm) :
    immField (commandWord op a imm) = imm := by
  apply BitVec.eq_of_getLsbD_eq
  intro i hi
  simp [immField, getLsbD_commandWord, hi]

/-- A word whose rsv field is 0 is the command word of its other fields. -/
theorem commandWord_of_fields {w : Word} (h : rsvField w = 0#16) :
    commandWord (opField w) (aField w) (immField w) = w := by
  apply BitVec.eq_of_getLsbD_eq
  intro i hi
  rw [getLsbD_commandWord]
  split
  · simp [immField, *]
  split
  · have e := congrArg (BitVec.getLsbD · (i - 32)) h
    simp only [rsvField, BitVec.getLsbD_extractLsb', BitVec.getLsbD_zero] at e
    simpa [show i - 32 < 16 by omega, show 32 + (i - 32) = i by omega] using e.symm
  split
  · simp [aField, show i - 48 < 8 by omega, show 48 + (i - 48) = i by omega]
  · simp [opField, show i - 56 < 8 by omega, show 56 + (i - 56) = i by omega]

/-- Bits 63:48 of a word are its op and a fields. -/
theorem opField_append_aField (w : Word) : opField w ++ aField w = w.extractLsb' 48 16 := by
  apply BitVec.eq_of_getLsbD_eq
  intro i hi
  rw [BitVec.getLsbD_append]
  split
  · simp [aField, *]
  · simp [opField, show i - 8 < 8 by omega, show 56 + (i - 8) = 48 + i by omega, hi]

namespace Machine

/-- The bits of a response word, field by field. -/
theorem getLsbD_responseWord (st : Status) (data : Data) (j : Nat) :
    (responseWord st data).getLsbD j =
      if j < 40 then data.getLsbD j else if j < 56 then false else st.getLsbD (j - 56) := by
  change BitVec.getLsbD (w := 8 + 16 + 40) (st ++ 0#16 ++ data) j = _
  simp only [BitVec.getLsbD_append, BitVec.getLsbD_zero]
  by_cases h1 : j < 40
  · simp [h1]
  by_cases h2 : j < 56
  · simp [h1, h2, show j - 40 < 16 by omega]
  · simp [h1, h2, show ¬ j - 40 < 16 by omega, show j - 40 - 16 = j - 56 by omega]

/-- The status field of a response. -/
@[simp] theorem status_responseWord (st : Status) (data : Data) : (responseWord st data).extractLsb' 56 8 = st := by
  apply BitVec.eq_of_getLsbD_eq
  intro i hi
  simp [getLsbD_responseWord, hi, show ¬ 56 + i < 40 by omega]

/-- The reserved field of a response. -/
@[simp] theorem reserved_responseWord (st : Status) (data : Data) :
    (responseWord st data).extractLsb' 40 16 = 0#16 := by
  apply BitVec.eq_of_getLsbD_eq
  intro i hi
  simp [getLsbD_responseWord, show 40 + i < 56 by omega]

/-- The data field of a response. -/
@[simp] theorem data_responseWord (st : Status) (data : Data) : (responseWord st data).extractLsb' 0 40 = data := by
  apply BitVec.eq_of_getLsbD_eq
  intro i hi
  simp [getLsbD_responseWord, hi]

end Machine

end Sys2Proof
end

