-- ==== Sys2Proof/Laws/PerInstr.lean ====
section
/-! SUPPORT. One statement for every instruction: the fields of its command word are its opcode, its operands, and zeros
where its format uses no operand (30_encoding.md R94, R95, R98). -/

-- The proofs of this file are run one after another: run side by side, each waits in a thread with a stack of its own.
set_option Elab.async false

namespace Sys2Proof.Laws.EncodedFields

/-- The fields of the command's word are the ones the opcode map gives it, and its opcode is one of the map. -/
def Statement (i : Instr) : Prop :=
  opField (encode i) = i.opcode ∧ aField (encode i) = i.aOperand ∧ immField (encode i) = i.immOperand ∧
    rsvField (encode i) = 0#16 ∧ (opRow i.opcode).isSome = true

/-- The fields of an encoded command, whatever the command. -/
theorem fields_of_encode (i : Instr) (h : (opRow i.opcode).isSome = true) : Statement i :=
  ⟨opField_commandWord .., aField_commandWord .., immField_commandWord .., rsvField_commandWord .., h⟩

theorem nop : Statement .nop := fields_of_encode _ rfl
theorem sysRd (r : Csr) : Statement (.sysRd r) := fields_of_encode _ rfl
theorem sysReset : Statement .sysReset := fields_of_encode _ rfl
theorem bbClr : Statement .bbClr := fields_of_encode _ rfl
theorem bbApp (n : Byte) (v : Imm) : Statement (.bbApp n v) := fields_of_encode _ rfl
theorem bbGet (idx : BitIdx) : Statement (.bbGet idx) := fields_of_encode _ rfl
theorem bbGetw (n : Byte) (idx : BitIdx) : Statement (.bbGetw n idx) := fields_of_encode _ rfl
theorem ftClr : Statement .ftClr := fields_of_encode _ rfl
theorem ftCnt (b : Byte) : Statement (.ftCnt b) := fields_of_encode _ rfl
theorem ftLd (b : Byte) (c : Count) : Statement (.ftLd b c) := fields_of_encode _ rfl
theorem ftRd (b : Byte) : Statement (.ftRd b) := fields_of_encode _ rfl
theorem htBuild : Statement .htBuild := fields_of_encode _ rfl
theorem htNode (i : NodeIdx) : Statement (.htNode i) := fields_of_encode _ rfl
theorem htNfreq (i : NodeIdx) : Statement (.htNfreq i) := fields_of_encode _ rfl
theorem ctGen : Statement .ctGen := fields_of_encode _ rfl
theorem ctLen (b : Byte) : Statement (.ctLen b) := fields_of_encode _ rfl
theorem ctBits (b : Byte) (k : BitVec 3) : Statement (.ctBits b k) := fields_of_encode _ rfl
theorem enc (b : Byte) : Statement (.enc b) := fields_of_encode _ rfl
theorem decRst : Statement .decRst := fields_of_encode _ rfl
theorem decBit : Statement .decBit := fields_of_encode _ rfl
theorem decRun : Statement .decRun := fields_of_encode _ rfl

end Sys2Proof.Laws.EncodedFields
end

