-- ==== Sys2Proof/Laws/TreeBuilder.lean ====
section
/-! SUPPORT. The heap operations change no entry but by exchanging two of them, so their sizes are known, and the build
leaves the heap empty (42_tree_builder.md R164, R170 to R172). -/

-- The proofs of this file are run one after another: run side by side, each waits in a thread with a stack of its own.
set_option Elab.async false

namespace Sys2Proof.Machine

/-- Writing the value that an index already has after writing another index: a swap is a permutation. -/
theorem heapSwap_perm {h : List NodeIdx} {p q : Nat} (hp : p < h.length) (hq : q < h.length) :
    (heapSwap h p q).Perm h := by
  have e : heapSwap h p q = (h.set p h[q]).set q h[p] := by
    simp [heapSwap, heapAt, List.getD_eq_getElem?_getD, hp, hq]
  rw [e]
  exact List.set_set_perm hp hq

@[simp] theorem heapSwap_length (h : List NodeIdx) (p q : Nat) : (heapSwap h p q).length = h.length := by
  simp [heapSwap]

/-- Sifting up keeps the entries. -/
theorem siftUp_perm (nodes : Vector Node 511) (fuel : Nat) (h : List NodeIdx) (p : Nat) (hp : p < h.length) :
    (siftUp nodes fuel h p).Perm h := by
  induction fuel generalizing h p with
  | zero => exact .refl _
  | succ fuel ih =>
    unfold siftUp
    split
    · exact .refl _
    split
    · exact (ih _ _ (by simp; omega)).trans (heapSwap_perm hp (by omega))
    · exact .refl _

theorem lesserChild_bounds (nodes : Vector Node 511) {h : List NodeIdx} {p : Nat} (hp : 2 * p + 1 < h.length) :
    p < lesserChild nodes h p ∧ lesserChild nodes h p < h.length := by
  unfold lesserChild
  split
  · simp_all
    omega
  · omega

/-- Sifting down keeps the entries. -/
theorem siftDown_perm (nodes : Vector Node 511) (fuel : Nat) (h : List NodeIdx) (p : Nat) :
    (siftDown nodes fuel h p).Perm h := by
  induction fuel generalizing h p with
  | zero => exact .refl _
  | succ fuel ih =>
    unfold siftDown
    split
    · exact .refl _
    split
    · have b := lesserChild_bounds nodes (h := h) (p := p) (by omega)
      exact (ih _ _).trans (heapSwap_perm b.2 (by omega))
    · exact .refl _

/-- HeapInsert adds one entry (R171). -/
@[simp] theorem heapInsert_length (nodes : Vector Node 511) (h : List NodeIdx) (t : NodeIdx) :
    (heapInsert nodes h t).length = h.length + 1 := by
  have := (siftUp_perm nodes (h.length + 1) (h ++ [t]) h.length (by simp)).length_eq
  simpa [heapInsert] using this

/-- HeapExtractMin takes one entry (R172). -/
@[simp] theorem heapExtractMin_length (nodes : Vector Node 511) (h : List NodeIdx) :
    (heapExtractMin nodes h).2.length = h.length - 1 := by
  have e := List.length_dropLast (xs := h)
  unfold heapExtractMin
  split
  · simp_all
  · rename_i d ds hd
    rw [hd] at e
    simpa [(siftDown_perm nodes _ _ _).length_eq] using e

theorem mergeStep_heap_length (t : Builder) (h : 1 < t.heap.length) :
    (mergeStep t).heap.length = t.heap.length - 1 := by
  simp only [mergeStep, heapInsert_length, heapExtractMin_length]
  omega

/-- Enough rounds of the merge leave at most one tree. -/
theorem mergeLoop_heap_length (fuel : Nat) (t : Builder) (h : t.heap.length ≤ fuel + 1) :
    (mergeLoop fuel t).heap.length ≤ 1 := by
  induction fuel generalizing t with
  | zero => simpa [mergeLoop] using h
  | succ fuel ih =>
    unfold mergeLoop
    split
    · rename_i h1
      refine ih _ ?_
      rw [mergeStep_heap_length t h1]
      omega
    · omega

theorem insertLeaf_foldl_heap_length (freq : Vector Count 256) (keys : List Byte) (t : Builder) :
    (keys.foldl (insertLeaf freq) t).heap.length = t.heap.length + keys.length := by
  induction keys generalizing t with
  | nil => simp
  | cons b bs ih =>
    rw [List.foldl_cons, ih]
    simp [insertLeaf]
    omega

/-! ## Which build a table chooses (R161) -/

theorem buildTree_of_nil {freq : Vector Count 256} (h : keysOf freq = []) : buildTree freq = buildSentinel := by
  simp only [buildTree, h]

theorem buildTree_of_one {freq : Vector Count 256} {b : Byte} (h : keysOf freq = [b]) :
    buildTree freq = buildOneLeaf b (countOf freq b) := by
  simp only [buildTree, h, countOf]

theorem buildTree_of_many {freq : Vector Count 256} {b b' : Byte} {bs : List Byte} (h : keysOf freq = b :: b' :: bs) :
    buildTree freq = buildMerged freq (b :: b' :: bs) := by
  simp only [buildTree, h]

/-- What R36 says of a table with one key. -/
theorem treeWellFormed_of_one {freq : Vector Count 256} {b : Byte} (h : keysOf freq = [b]) {nodes : Vector Node 511}
    {root : NodeIdx} {total : Freq} {nxt : NodeIdx} :
    TreeWellFormed freq nodes root total nxt ↔
      root = 256#9 ∧ total = (countOf freq b).setWidth 40 ∧ nxt = 257#9 ∧
      ∀ i : NodeIdx, nodeAt nodes i =
        if i = 256#9 then .internal 511#9 (leafIdx b) ((countOf freq b).setWidth 40)
        else if i = leafIdx b then .leaf b ((countOf freq b).setWidth 40) else .absent := by
  simp only [TreeWellFormed, h]

/-- HN is 0 after the build, whatever the table (10_state.md R35 item 8). -/
theorem buildTree_heap (freq : Vector Count 256) : (buildTree freq).heap = [] := by
  unfold buildTree
  split
  · rfl
  · rfl
  · rename_i b b' bs _
    have h1 := insertLeaf_foldl_heap_length freq (b :: b' :: bs) emptyBuilder
    have h2 := mergeLoop_heap_length (b :: b' :: bs).length _ (by rw [h1]; simp [emptyBuilder])
    apply List.eq_nil_of_length_eq_zero
    simp only [buildMerged, takeRoot, heapExtractMin_length]
    omega

end Sys2Proof.Machine
end

