-- ==== Sys2Proof/Laws/Wf.lean ====
section
/-! SUPPORT. The form of the list-shaped memories (`Memory.wf`: the Bit Sequence within BCAP, the heap empty) holds
after reset, and every command and every step keeps it (10_state.md R35 items 1 and 8). -/

-- The proofs of this file are run one after another: run side by side, each waits in a thread with a stack of its own.
set_option Elab.async false

namespace Sys2Proof.Machine

theorem reset_wf : Memory.wf CoreState.reset := ⟨Nat.zero_le _, rfl⟩

theorem takeFault_wf {c : CoreState} (f : Cause) (h : Memory.wf c) : Memory.wf (takeFault f c) := h

theorem finalCore_wf {r : CmdResult} (h : Memory.wf r.core) : Memory.wf r.finalCore := by
  unfold CmdResult.finalCore
  split
  · exact h
  · exact takeFault_wf _ h

theorem appendAndRespond_wf (bs : Bits) {c : CoreState} (h : Memory.wf c) :
    Memory.wf (appendAndRespond Config.bcap bs c).core := by
  rcases appendAndRespond_cases Config.bcap bs c with ⟨hb, e⟩ | ⟨_, e⟩ <;> rw [e]
  · exact ⟨by simpa [CoreState.blen] using hb, h.2⟩
  · exact h

/-- The body of every command keeps the form. -/
theorem bodyOf_wf (i : Instr) {c : CoreState} (h : Memory.wf c) : Memory.wf (bodyOf i c).core := by
  cases i with
  | sysReset => exact reset_wf
  | bbClr => exact ⟨Nat.zero_le _, h.2⟩
  | bbApp n v => exact appendAndRespond_wf _ h
  | bbGet idx =>
    simp only [bodyOf, bbGetBody]
    split <;> exact h
  | bbGetw n idx =>
    simp only [bodyOf, bbGetwBody]
    split <;> exact h
  | ftCnt b =>
    simp only [bodyOf, ftCntBody]
    split <;> exact h
  | htBuild => exact ⟨h.1, buildTree_heap c.freq⟩
  | htNode i =>
    simp only [bodyOf, htNodeBody]
    split <;> exact h
  | htNfreq i =>
    simp only [bodyOf, htNfreqBody]
    split <;> exact h
  | ctBits b k =>
    simp only [bodyOf, ctBitsBody]
    split <;> exact h
  | enc b =>
    simp only [bodyOf, encBody]
    split
    · exact h
    · exact appendAndRespond_wf _ h
  | decBit =>
    simp only [bodyOf]
    rcases decBitBody_cases c with ⟨f, e⟩ | ⟨d, e⟩ | ⟨cur, o, e⟩ <;> rw [e] <;> exact h
  | decRun =>
    obtain ⟨rp, cur, rest, h1, -⟩ := decRunLoop_result (c.blen - c.rp.toNat) c []
    simp only [bodyOf, decRunBody, h1]
    exact h
  | _ => exact h

theorem withNeed_wf (need : Option Need) {body : CoreState → CmdResult} {c : CoreState} (h : Memory.wf c)
    (hb : Memory.wf (body c).core) : Memory.wf (withNeed need body c).core := by
  unfold withNeed
  split
  · exact hb
  split
  · exact hb
  · exact h

/-- Every command keeps the form, completed, faulted or refused. -/
theorem exec_wf {i : Instr} {s t : State} (h : Memory.wf s.core) (he : exec i s = .next t) : Memory.wf t.core := by
  rcases exec_next he with ⟨-, rfl⟩ | ⟨-, -, rfl⟩ | ⟨-, -, rfl⟩
  · exact finalCore_wf (bodyOf_wf i h)
  · exact h
  · exact finalCore_wf (withNeed_wf _ h (bodyOf_wf i h))

theorem runWord_wf {w : Word} {s t : State} (h : Memory.wf s.core) (he : runWord w s = .next t) :
    Memory.wf t.core := by
  unfold runWord at he
  split at he
  · exact exec_wf h he
  · rcases runGated_next he with ⟨-, rfl⟩ | ⟨-, rfl⟩
    · exact h
    · exact h

/-- Every step keeps the form. -/
theorem step_wf {s t : State} (h : Memory.wf s.core) (he : step s = .next t) : Memory.wf t.core := by
  unfold step at he
  split at he
  · cases he
    exact h
  · rename_i rest _
    exact runWord_wf (s := { s with inputs := rest }) h he
  · cases he
    exact reset_wf
  · split at he <;> cases he
    exact reset_wf

end Sys2Proof.Machine
end

