-- ==== Sys2Proof/Tests/Slice0.lean ====
section
/-! SUPPORT. Small tests of the model, one step each, their expected values from the spec's encodings (30_encoding.md R98
to R100) and vectors (95_test_vectors.md), and for every obligation that has hypotheses a state and operands that meet
them. -/

-- The proofs of this file are run one after another: run side by side, each waits in a thread with a stack of its own.
set_option Elab.async false

namespace Sys2Proof.Tests

open Sys2Proof.Machine

/-! ## Small states -/

/-- A Frequency Table with these counts, in order, and 0 elsewhere. -/
def table (l : List (Byte × Count)) : Vector Count 256 :=
  l.foldl (fun f p => f.set p.1.toNat p.2 p.1.isLt) (Vector.replicate 256 0#32)

/-- A core that holds this tree of this table, and these bits: TV set, CV and DV not. -/
def treeCore (freq : Vector Count 256) (tree : Builder) (bits : Bits) : CoreState :=
  { CoreState.reset with
    bits := bits, freq := freq, nodes := tree.nodes, root := tree.root, nxt := tree.nxt
    total := (nodeAt tree.nodes tree.root).freq, tv := true }

/-- The same with a code table, the decoder armed, the cursor at the root: every flag but FLT is set. -/
def armedCore (freq : Vector Count 256) (tree : Builder) (codes : List (Byte × Bits)) (bits : Bits) : CoreState :=
  { treeCore freq tree bits with
    code := codes.foldl (fun t p => setCode t p.1 p.2) CoreState.reset.code, cur := tree.root, cv := true, dv := true }

/-- A tree written out record by record. -/
def treeOf (root nxt : NodeIdx) (records : List (NodeIdx × Node)) : Builder :=
  { nodes := records.foldl (fun m p => setNode m p.1 p.2) CoreState.reset.nodes, heap := [], nxt := nxt, root := root }

/-- A machine with this core, no input and no transfer yet. -/
def on (c : CoreState) : State := { core := c, inputs := [], trace := [] }

/-- A faulted core (MissingCode, as in program P3). -/
def faultedCore : CoreState := { CoreState.reset with flt := true, fcode := 0x06#8, finfo := 0x63#40 }

/-- The command makes exactly these transfers from this core. -/
def makes (i : Instr) (c : CoreState) (ts : List Transfer) : Bool :=
  match exec i (on c) with
  | .next t => t.trace == ts
  | .fault _ => false
  | .refused _ => false

/-- The command answers with this response word and emits nothing. -/
def responds (i : Instr) (c : CoreState) (w : Word) : Bool := makes i c [.response w]

/-- What a command leaves in the core, when it answers a next state. -/
def coreAfter (i : Instr) (c : CoreState) : CoreState :=
  match exec i (on c) with
  | .next t => t.core
  | .fault _ => c
  | .refused _ => c

/-- The empty table, its sentinel tree, no code (V1). -/
def coreV1 : Bits → CoreState := armedCore (table []) (treeOf 0#9 256#9 [(0#9, .leaf 0#8 0#40)]) []

/-- One key and its one-leaf tree (V2). -/
def freqV2 : Vector Count 256 := table [(0x41#8, 3#32)]
def treeV2 : Builder := treeOf 256#9 257#9 [(65#9, .leaf 0x41#8 3#40), (256#9, .internal 511#9 65#9 3#40)]
def coreV2 : Bits → CoreState := armedCore freqV2 treeV2 [(0x41#8, [true])]

/-- Two keys (V3). -/
def freqV3 : Vector Count 256 := table [(0x61#8, 2#32), (0x62#8, 1#32)]
def treeV3 : Builder :=
  treeOf 256#9 257#9 [(97#9, .leaf 0x61#8 2#40), (98#9, .leaf 0x62#8 1#40), (256#9, .internal 98#9 97#9 3#40)]
def coreV3 : Bits → CoreState := armedCore freqV3 treeV3 [(0x61#8, [true]), (0x62#8, [false])]

/-- Five keys (V7); the codes are not written out. -/
def freqV7 : Vector Count 256 :=
  table [(0x61#8, 5#32), (0x62#8, 2#32), (0x63#8, 1#32), (0x64#8, 1#32), (0x72#8, 2#32)]
def treeV7 : Builder :=
  treeOf 259#9 260#9 [(97#9, .leaf 0x61#8 5#40), (98#9, .leaf 0x62#8 2#40), (99#9, .leaf 0x63#8 1#40),
    (100#9, .leaf 0x64#8 1#40), (114#9, .leaf 0x72#8 2#40), (256#9, .internal 99#9 100#9 2#40),
    (257#9, .internal 98#9 114#9 4#40), (258#9, .internal 256#9 257#9 6#40), (259#9, .internal 97#9 258#9 11#40)]
def coreV7 : Bits → CoreState := armedCore freqV7 treeV7 []

/-! ## The keys of the small tables, and the builds they choose -/

theorem keysOf_freqV1 : keysOf (table []) = [] := by
  rw [keysOf_eq_filter (p := fun _ => false) fun b => by simp [table, countOf_replicate]]
  simp

theorem keysOf_one (n : Count) (h : n ≠ 0#32) : keysOf (table [(0x41#8, n)]) = [0x41#8] := by
  rw [keysOf_eq_filter (p := fun b => b == 0x41#8) fun b => by
    simp only [table, List.foldl, countOf_set, countOf_replicate]
    by_cases e : b = 0x41#8 <;> simp [e, h]]
  decide +kernel

theorem keysOf_freqV2 : keysOf freqV2 = [0x41#8] := keysOf_one _ (by decide)

theorem keysOf_freqV3 : keysOf freqV3 = [0x61#8, 0x62#8] := by
  rw [keysOf_eq_filter (p := fun b => b == 0x61#8 || b == 0x62#8) fun b => by
    simp only [freqV3, table, List.foldl, countOf_set, countOf_replicate]
    by_cases e : b = 0x61#8 <;> by_cases f : b = 0x62#8 <;> simp [e, f]]
  decide +kernel

theorem keysOf_freqV7 : keysOf freqV7 = [0x61#8, 0x62#8, 0x63#8, 0x64#8, 0x72#8] := by
  rw [keysOf_eq_filter
    (p := fun b => b == 0x61#8 || b == 0x62#8 || b == 0x63#8 || b == 0x64#8 || b == 0x72#8) fun b => by
    simp only [freqV7, table, List.foldl, countOf_set, countOf_replicate]
    by_cases e : b = 0x61#8 <;> by_cases f : b = 0x62#8 <;> by_cases g : b = 0x63#8 <;>
      by_cases k : b = 0x64#8 <;> by_cases l : b = 0x72#8 <;> simp [e, f, g, k, l]]
  decide +kernel

theorem countOf_one (n : Count) : countOf (table [(0x41#8, n)]) 0x41#8 = n := by
  simp only [table, List.foldl, countOf_set, if_true]

theorem buildTree_freqV1 : buildTree (table []) = buildSentinel := buildTree_of_nil keysOf_freqV1

theorem buildTree_one (n : Count) (h : n ≠ 0#32) : buildTree (table [(0x41#8, n)]) = buildOneLeaf 0x41#8 n := by
  rw [buildTree_of_one (keysOf_one n h), countOf_one]

theorem buildTree_freqV2 : buildTree freqV2 = buildOneLeaf 0x41#8 3#32 := buildTree_one _ (by decide)

theorem buildTree_freqV3 : buildTree freqV3 = buildMerged freqV3 [0x61#8, 0x62#8] := buildTree_of_many keysOf_freqV3

theorem buildTree_freqV7 : buildTree freqV7 = buildMerged freqV7 [0x61#8, 0x62#8, 0x63#8, 0x64#8, 0x72#8] :=
  buildTree_of_many keysOf_freqV7

/-! ## Well-formedness: each constraint of R99 refuses a term that breaks it, and the decoder refuses its word -/

theorem test_wf_refuses_app_count_33 : (Instr.bbApp 33#8 0#32).wellFormed = false := by decide
theorem test_wf_refuses_app_value_too_wide : (Instr.bbApp 3#8 8#32).wellFormed = false := by decide
theorem test_wf_refuses_app_zero_with_value : (Instr.bbApp 0#8 1#32).wellFormed = false := by decide
theorem test_wf_refuses_getw_count_33 : (Instr.bbGetw 33#8 0#32).wellFormed = false := by decide
theorem test_wf_allows_app_32_any : (Instr.bbApp 32#8 0xFFFFFFFF#32).wellFormed = true := by decide

/-! ## Decoding: one word per command, written out from the encoding column of R98 -/

theorem test_decode_nop : decode 0x0000000000000000#64 = .ok .nop := by decide
theorem test_decode_sys_rd : decode 0x010A000000000000#64 = .ok (.sysRd .bcap) := by decide
theorem test_decode_sys_reset : decode 0x0200000000000000#64 = .ok .sysReset := by decide
theorem test_decode_bb_clr : decode 0x1000000000000000#64 = .ok .bbClr := by decide
theorem test_decode_bb_app : decode 0x11200000FFFFFFFF#64 = .ok (.bbApp 32#8 0xFFFFFFFF#32) := by decide
theorem test_decode_bb_get : decode 0x1200000080000001#64 = .ok (.bbGet 0x80000001#32) := by decide
theorem test_decode_bb_getw : decode 0x1320000000000008#64 = .ok (.bbGetw 32#8 8#32) := by decide
theorem test_decode_ft_clr : decode 0x2000000000000000#64 = .ok .ftClr := by decide
theorem test_decode_ft_cnt : decode 0x2141000000000000#64 = .ok (.ftCnt 0x41#8) := by decide
theorem test_decode_ft_ld : decode 0x22410000FFFFFFFE#64 = .ok (.ftLd 0x41#8 0xFFFFFFFE#32) := by decide
theorem test_decode_ft_rd : decode 0x2342000000000000#64 = .ok (.ftRd 0x42#8) := by decide
theorem test_decode_ht_build : decode 0x3000000000000000#64 = .ok .htBuild := by decide
theorem test_decode_ht_node : decode 0x31000000000001FF#64 = .ok (.htNode 511#9) := by decide
theorem test_decode_ht_nfreq : decode 0x3200000000000100#64 = .ok (.htNfreq 256#9) := by decide
theorem test_decode_ct_gen : decode 0x4000000000000000#64 = .ok .ctGen := by decide
theorem test_decode_ct_len : decode 0x4161000000000000#64 = .ok (.ctLen 0x61#8) := by decide
theorem test_decode_ct_bits : decode 0x4261000000000007#64 = .ok (.ctBits 0x61#8 7#3) := by decide
theorem test_decode_enc : decode 0x5063000000000000#64 = .ok (.enc 0x63#8) := by decide
theorem test_decode_dec_rst : decode 0x6000000000000000#64 = .ok .decRst := by decide
theorem test_decode_dec_bit : decode 0x6100000000000000#64 = .ok .decBit := by decide
theorem test_decode_dec_run : decode 0x6200000000000000#64 = .ok .decRun := by decide

/-- The words of section 2.8, each illegal for its own reason. -/
theorem test_decode_refuses_reserved_opcode :
    decode 0x0300000000000000#64 = .error .unknownOpcode ∧ decode 0xFF00000000000000#64 = .error .unknownOpcode := by
  decide

theorem test_decode_refuses_nonzero_field :
    decode 0x0001000000000000#64 = .error .nonzeroField ∧ decode 0x0000000000000001#64 = .error .nonzeroField ∧
    decode 0x0100000000000001#64 = .error .nonzeroField ∧ decode 0x2141000100000000#64 = .error .nonzeroField ∧
    decode 0x1201000000000000#64 = .error .nonzeroField ∧ decode 0x5061000000000001#64 = .error .nonzeroField ∧
    decode 0x6200000000000001#64 = .error .nonzeroField := by
  decide

theorem test_decode_refuses_operand :
    decode 0x010B000000000000#64 = .error .operandConstraint ∧
    decode 0x1103000000000008#64 = .error .operandConstraint ∧
    decode 0x1121000000000000#64 = .error .operandConstraint ∧
    decode 0x1100000000000001#64 = .error .operandConstraint ∧
    decode 0x1321000000000000#64 = .error .operandConstraint ∧
    decode 0x3100000000000200#64 = .error .operandConstraint ∧
    decode 0x3200000080000000#64 = .error .operandConstraint ∧
    decode 0x4261000000000008#64 = .error .operandConstraint := by
  decide

/-! ## One step of each command -/

/-- Section 2.8: IllegalCommand with bits 63:48 of the word. -/
theorem test_illegal_word_response : step (State.reset.withFetchWord 64 0x2141000100000000) =
    .next (State.reset.faultNext 0x01#8 0x2141#40) := rfl

/-- P3, 16: a faulted core refuses an illegal word as any other. -/
theorem test_illegal_word_refused_when_faulted : runWord 0x010B000000000000#64 (on faultedCore) =
    .next { on faultedCore with trace := [.response 0xFF00000000000000#64] } := rfl

/-- P3, 19 and 10. -/
theorem test_nop : responds .nop CoreState.reset 0#64 = true ∧
    responds .nop faultedCore 0xFF00000000000000#64 = true := by decide +kernel

/-- Section 2.7: the registers after reset, and STATUS 0xE after DEC.RST. -/
theorem test_sys_rd : responds (.sysRd .cur) CoreState.reset 0x1FF#64 = true ∧
    responds (.sysRd .nxt) CoreState.reset 0x100#64 = true ∧
    responds (.sysRd .status) (coreV3 []) 0xE#64 = true := by decide +kernel

/-- F7: NDB of a table with two keys. -/
theorem test_sys_rd_ndb : exec (.sysRd .ndb) (on (coreV3 [])) = .next ((on (coreV3 [])).okNext (coreV3 []) 2#40) := by
  show Host.Outcome.next ((on (coreV3 [])).okNext (coreV3 []) (dataOfNat (keysOf freqV3).length)) = _
  rw [keysOf_freqV3]
  rfl

/-- P3, 14: SYS.RD executes while FLT = 1. -/
theorem test_sys_rd_finfo_when_faulted : responds (.sysRd .finfo) faultedCore 0x63#64 = true := by decide +kernel

/-- P3, 17: SYS.RESET executes while FLT = 1. -/
theorem test_sys_reset : exec .sysReset (on faultedCore) =
    .next { State.reset with trace := [.response 0x0000000000000000#64] } := rfl

/-- B12: BLEN, RP and DV to 0, the tree kept. -/
theorem test_bb_clr : (coreAfter .bbClr { coreV3 [true] with rp := 1#32 }).blen = 0 ∧
    (coreAfter .bbClr { coreV3 [true] with rp := 1#32 }).rp = 0#32 ∧
    (coreAfter .bbClr (coreV3 [true])).status = 6#4 := by decide +kernel

/-- B1 and B10: the first bit in is the most significant of the n, and a leading 0 is kept. -/
theorem test_bb_app_bits : (bbAppBody 64 8#8 0x6E#32 CoreState.reset).core.bits =
      [false, true, true, false, true, true, true, false] ∧
    (bbAppBody 64 4#8 0b0110#32 CoreState.reset).core.bits = [false, true, true, false] := by decide +kernel

/-- B20 to B23, BCAP = 8: exactly full is allowed, one more bit is BitOverflow(1). -/
theorem test_bb_app_capacity :
    (bbAppBody 8 1#8 1#32 { CoreState.reset with bits := List.replicate 7 false }).responseWord = 8#64 ∧
    (bbAppBody 8 1#8 0#32 { CoreState.reset with bits := List.replicate 8 false }).responseWord =
      0x0500000000000001#64 := by decide +kernel

/-- B14. -/
theorem test_bb_get : responds (.bbGet 2#32) { CoreState.reset with bits := [true, true, false] } 0#64 = true ∧
    responds (.bbGet 3#32) { CoreState.reset with bits := [true, true, false] } 0x0400000000000003#64 = true := by
  decide +kernel

/-- B2, B16 and B17: packed in order, n = 0 past the end, and a sum that does not wrap. -/
theorem test_bb_getw : responds (.bbGetw 4#8 2#32)
      { CoreState.reset with bits := [false, true, true, false, true, true, true, false] } 0xB#64 = true ∧
    responds (.bbGetw 0#8 4#32) { CoreState.reset with bits := [true, true, false] } 0x0400000000000004#64 = true ∧
    responds (.bbGetw 32#8 0xFFFFFFFF#32) { CoreState.reset with bits := [true, true, false] }
      0x04000000FFFFFFFF#64 = true := by decide +kernel

/-- F9, and the flags of section 2.2. -/
theorem test_ft_clr : (coreAfter .ftClr (coreV3 [])).freqAt 0x61#8 = 0#32 ∧
    (coreAfter .ftClr (coreV3 [])).status = 0#4 := by decide +kernel

/-- F11 and F12: the greatest count, and CountOverflow with the flags kept. -/
theorem test_ft_cnt : responds (.ftCnt 0x41#8) { CoreState.reset with freq := table [(0x41#8, 0xFFFFFFFE#32)] }
      0x00000000FFFFFFFF#64 = true ∧
    responds (.ftCnt 0x41#8) { CoreState.reset with freq := table [(0x41#8, 0xFFFFFFFF#32)] }
      0x0300000000000041#64 = true := by decide +kernel

/-- F7 and F8: the count is set, to 0 too; the flags are withdrawn even when the value is the same. -/
theorem test_ft_ld : (coreAfter (.ftLd 0x61#8 2#32) { CoreState.reset with freq := freqV2 }).freqAt 0x61#8 = 2#32 ∧
    (coreAfter (.ftLd 0x61#8 0#32) (coreV3 [])).freqAt 0x61#8 = 0#32 ∧
    (coreAfter (.ftLd 0x61#8 2#32) (coreV3 [])).status = 0#4 := by decide +kernel

/-- F4 and F5. -/
theorem test_ft_rd : responds (.ftRd 0x41#8) { CoreState.reset with freq := freqV2 } 3#64 = true ∧
    responds (.ftRd 0x42#8) { CoreState.reset with freq := freqV2 } 0#64 = true := by decide +kernel

/-- V7: ROOT, NXT and TOTAL, and the flags after the build. -/
theorem test_ht_build : (htBuildBody (coreV7 [])).responseWord = 259#64 ∧
    (htBuildBody (coreV7 [])).core.nxt = 260#9 ∧ (htBuildBody (coreV7 [])).core.total = 11#40 ∧
    (htBuildBody (coreV7 [])).core.status = 2#4 := by
  have f : (coreV7 []).freq = freqV7 := rfl
  simp only [htBuildBody, respond_responseWord, respond_core, f, buildTree_freqV7]
  decide +kernel

/-- V1: the sentinel tree. -/
theorem test_ht_build_empty : (htBuildBody CoreState.reset).responseWord = 0#64 ∧
    (htBuildBody CoreState.reset).core.nxt = 256#9 := by
  have f : CoreState.reset.freq = table [] := rfl
  simp only [htBuildBody, respond_responseWord, respond_core, f, buildTree_freqV1]
  decide +kernel

/-- V7's records, V2's root, and 0 outside the tree. -/
theorem test_ht_node : responds (.htNode 258#9) (coreV7 []) 0x80C0003#64 = true ∧
    responds (.htNode 114#9) (coreV7 []) 0xFFFFDC9#64 = true ∧
    responds (.htNode 256#9) (coreV2 []) 0x20FFC03#64 = true ∧
    responds (.htNode 0#9) (coreV7 []) 0#64 = true := by decide +kernel

/-- V7's frequencies, and section 2.7: IndexRange(511), after the flag check. -/
theorem test_ht_nfreq : responds (.htNfreq 258#9) (coreV7 []) 6#64 = true ∧
    responds (.htNfreq 511#9) (coreV7 []) 0x04000000000001FF#64 = true ∧
    responds (.htNfreq 511#9) CoreState.reset 0x0200000000000001#64 = true := by decide +kernel

/-- Section 2.4, V3: 'b' -> "0", 'a' -> "1", and no other entry. -/
theorem test_ct_gen_codes : (ctGenBody (treeCore freqV3 treeV3 [])).core.code =
    setCode (setCode CoreState.reset.code 0x62#8 [false]) 0x61#8 [true] := by
  have h1 : nodeAt treeV3.nodes 256#9 = .internal 98#9 97#9 3#40 := by decide +kernel
  have h2 : nodeAt treeV3.nodes 98#9 = .leaf 0x62#8 1#40 := by decide +kernel
  have h3 : nodeAt treeV3.nodes 97#9 = .leaf 0x61#8 2#40 := by decide +kernel
  have h4 : derive treeV3.nodes (509 + 1 + 1) 256#9 [] (Vector.replicate 256 none) =
      setCode (setCode CoreState.reset.code 0x62#8 [false]) 0x61#8 [true] := by
    rw [derive, h1]
    simp only []
    rw [derive, h3, derive, h2]
    simp [Config.null, CoreState.reset]
  have n : (treeCore freqV3 treeV3 []).nodes = treeV3.nodes := rfl
  have r : (treeCore freqV3 treeV3 []).root = 256#9 := rfl
  simp only [ctGenBody, respond_core, n, r, deriveCodes, h1, Node.isInternal, if_true, Config.nnode]
  exact h4

/-- Section 2.4, V3: the number of entries. -/
theorem test_ct_gen : (ctGenBody (treeCore freqV3 treeV3 [])).responseWord = 2#64 := by
  have e : (fun b => (codeAt (setCode (setCode CoreState.reset.code 0x62#8 [false]) 0x61#8 [true]) b).isSome) =
      fun b : Byte => b == 0x61#8 || b == 0x62#8 := by
    funext b
    rw [codeAt_setCode, codeAt_setCode]
    by_cases h : b = 0x61#8 <;> by_cases k : b = 0x62#8 <;> simp [h, k, CoreState.reset]
  have c := test_ct_gen_codes
  simp only [ctGenBody, respond_core] at c
  rw [ctGenBody, respond_responseWord, c, codeCount, e]
  decide +kernel

/-- Section 2.4, V2 and V1. -/
theorem test_ct_len : responds (.ctLen 0x41#8) (coreV2 []) 0x101#64 = true ∧
    responds (.ctLen 0#8) (coreV1 []) 0#64 = true := by decide +kernel

/-- Section 2.4, V3 and V1; the third: chunk 1 of a code of 33 bits is its last bit (R207). -/
theorem test_ct_bits : responds (.ctBits 0x61#8 0#3) (coreV3 []) 1#64 = true ∧
    responds (.ctBits 0#8 0#3) (coreV1 []) 0x0600000000000000#64 = true ∧
    responds (.ctBits 5#8 1#3) { CoreState.reset with
      code := setCode CoreState.reset.code 5#8 (List.replicate 32 false ++ [true]), cv := true } 1#64 = true := by
  decide +kernel

/-- P3, 9, and EN4: MissingCode, and BitOverflow with nothing appended. -/
theorem test_enc : responds (.enc 0x63#8) (coreV3 []) 0x0600000000000063#64 = true ∧
    (encBody 1 0x61#8 (coreV3 [true])).responseWord = 0x0500000000000001#64 ∧
    (encBody 2 0x61#8 (coreV3 [true])).core.bits = [true, true] := by decide +kernel

/-- DE12, and the registers after DEC.RST in P1. -/
theorem test_dec_rst : responds .decRst CoreState.reset 0x0200000000000001#64 = true ∧
    (coreAfter .decRst { treeCore freqV3 treeV3 [true] with rp := 1#32 }).cur = 256#9 ∧
    (coreAfter .decRst { treeCore freqV3 treeV3 [true] with rp := 1#32 }).rp = 0#32 := by decide +kernel

/-- DE1 and DE2. -/
theorem test_dec_bit : makes .decBit (coreV7 [false, true, true])
      [.byteOut 0x61#8, .response 0x161#64] = true ∧
    (coreAfter .decBit { coreV7 [false, true, true] with rp := 1#32 }).cur = 258#9 := by decide +kernel

/-- DE6, DE8 and DE9. -/
theorem test_dec_bit_ends : responds .decBit (coreV1 [true]) 0x0700000200000000#64 = true ∧
    responds .decBit (coreV1 []) 0x200#64 = true ∧
    responds .decBit (treeCore freqV3 treeV3 []) 0x0200000000000003#64 = true := by decide +kernel

/-- DE5: the byte before the bad bit stands; RP and CUR are where the completed step left them. -/
theorem test_dec_run_no_transition : makes .decRun (coreV2 [true, false, true])
      [.byteOut 0x41#8, .response 0x0700000100000001#64] = true ∧
    (coreAfter .decRun (coreV2 [true, false, true])).rp = 1#32 ∧
    (coreAfter .decRun (coreV2 [true, false, true])).cur = 256#9 := by decide +kernel

/-- P5, 10: a truncated stream. -/
theorem test_dec_run_truncated : makes .decRun (coreV7 [false, true, true, false, true, true])
      [.byteOut 0x61#8, .byteOut 0x62#8, .response 0x0700000000000006#64] = true ∧
    (coreAfter .decRun (coreV7 [false, true, true, false, true, true])).cur = 257#9 := by decide +kernel

/-! ## The ports -/

theorem test_rst_port : step { core := faultedCore, inputs := [.reset], trace := [] } = .next State.reset := rfl

/-- An abandoned DEC.RUN: the first of its two bytes has gone out, there is no response. -/
theorem test_rst_during_command :
    (match step { core := coreV2 [true, true], inputs := [.commandThenReset 0x6200000000000000#64 1], trace := [] } with
      | .next t => t.trace == [.byteOut 0x41#8] && t.core.status == 0#4 && t.core.cur == 511#9
      | .fault _ => false
      | .refused _ => false) = true := by decide +kernel

/-! ## Notation (30_encoding.md R103, R104) -/

theorem test_assemble_operands : assembleLine "BB.APP 3, 0b110 ; three bits".toList = some [.bbApp 3#8 6#32] := by
  decide +kernel

theorem test_assemble_literal : assembleLine "BB.APP \"110\"".toList = some [.bbApp 3#8 6#32] := by decide +kernel

theorem test_assemble_quoted : assembleLine "FT.CNT 'a'".toList = some [.ftCnt 0x61#8] := by decide +kernel

theorem test_assemble_loadf : assembleLine "LOADF 0x41:3".toList = some [.ftClr, .ftLd 0x41#8 3#32] := by
  decide +kernel

theorem test_assemble_refuses_illegal : assembleLine "SYS.RD 11".toList = none := by decide +kernel

theorem test_append_chunks : (Pseudo.append (List.replicate 33 true)).expand =
    [.bbApp 32#8 0xFFFFFFFF#32, .bbApp 1#8 1#32] := by decide +kernel

/-! ## Witnesses: for each obligation with hypotheses, a state and operands that meet all of them -/

/-- The command answers a next state whose core passes this check. -/
def leads (i : Instr) (c : CoreState) (p : CoreState → Bool) : Bool :=
  match exec i (on c) with
  | .next t => p t.core
  | .fault _ => false
  | .refused _ => false

/-- The first command that appends: one bit always fits. -/
theorem exec_append_one : exec (.bbApp 1#8 1#32) (on CoreState.reset) =
    .next ((on CoreState.reset).okNext { CoreState.reset with bits := [true] } 1#40) := by
  have h : bodyOf (.bbApp 1#8 1#32) CoreState.reset = respond { CoreState.reset with bits := [true] } 1#40 :=
    appendAndRespond_fits (bcap := Config.bcap) (bs := [true]) (c := CoreState.reset) bcap_pos
  rw [exec_unfaulted rfl]
  exact congrArg (fun r => Host.Outcome.next ((on CoreState.reset).commit r)) h

/-- The codes of V2 and V3 (section 2.4), from the table. -/
theorem codes_freqV2 : codeAt (codesOfTable freqV2) 0x41#8 = some [true] := by
  rw [codesOfTable, buildTree_freqV2]
  decide +kernel

theorem codes_freqV3 : codeAt (codesOfTable freqV3) 0x61#8 = some [true] ∧
    codeAt (codesOfTable freqV3) 0x62#8 = some [false] := by
  rw [codesOfTable, buildTree_freqV3]
  decide +kernel

theorem two_keys_freqV3 : 2 ≤ (keysOf freqV3).length := by
  rw [keysOf_freqV3]
  decide

theorem witness_DecodeOfEncodeIsTheCommand : (Instr.bbApp 32#8 0xFFFFFFFF#32).wellFormed = true ∧
    (Instr.bbApp 0#8 0#32).wellFormed = true ∧ (Instr.bbGetw 32#8 0xFFFFFFFF#32).wellFormed = true := by decide

theorem witness_DecodedWordIsTheEncoding : decode 0x13200000FFFFFFFF#64 = .ok (.bbGetw 32#8 0xFFFFFFFF#32) := by
  decide

theorem witness_ReservedOpcodesAndFieldsAreIllegal : rsvField 0x2141000100000000#64 ≠ 0#16 ∧
    (opField 0xFF00000000000000#64).toNat = 0xFF ∧ (opField 0x0300000000000000#64).toNat = 0x03 ∧
    (opField 0x6300000000000000#64).toNat = 0x63 := by decide

theorem witness_PackAndUnpackAreInverse : 0 < 2 ^ 0 ∧ 0xFFFFFFFF < 2 ^ 32 ∧ 31 < 32 := by decide

theorem witness_StepRunsTheDecodedCommand :
    (State.reset.withFetchWord 64 0x1000000000000000).inputs = .command 0x1000000000000000#64 :: [] ∧
    decode 0x1000000000000000#64 = .ok .bbClr := ⟨rfl, by decide⟩

theorem witness_UndecodableWordRaisesIllegalCommand :
    (State.reset.withFetchWord 64 0x0300000000000000).inputs = .command 0x0300000000000000#64 :: [] ∧
    decode 0x0300000000000000#64 = .error .unknownOpcode ∧
    (State.reset.withFetchWord 64 0x0300000000000000).unfaulted := ⟨rfl, by decide, rfl⟩

/-- The three inputs that are no plain command. -/
theorem witness_RstPortResetsAndIdleHolds :
    { State.reset with inputs := [.reset] }.inputs = HostInput.reset :: [] ∧
    { State.reset with inputs := [.commandThenReset 0#64 0] }.inputs = HostInput.commandThenReset 0#64 0 :: [] ∧
    State.reset.inputs = [] := ⟨rfl, rfl, rfl⟩

theorem witness_OneResponseForEveryCommand : makes .decBit (coreV2 [true])
    ([0x41#8].map .byteOut ++ [.response 0x141#64]) = true := by decide +kernel

theorem witness_FaultedCoreRefuses : (on faultedCore).core.flt = true ∧ Instr.nop ≠ .sysReset ∧
    (∀ r, Instr.nop ≠ .sysRd r) ∧ decode 0x0300000000000000#64 = .error .unknownOpcode :=
  ⟨rfl, by decide, nofun, by decide⟩

/-- A faulted core that is sent a command it refuses, and one that is sent SYS.RESET. -/
theorem witness_FaultHoldsUntilReset :
    (on faultedCore).core.flt = true ∧
    step { on faultedCore with inputs := [.command 0#64] } =
      .next { on faultedCore with trace := [.response 0xFF00000000000000#64] } ∧
    step { on faultedCore with inputs := [.command 0x0200000000000000#64] } =
      .next { State.reset with trace := [.response 0#64] } := ⟨rfl, rfl, rfl⟩

/-- The premises of each of its clauses. -/
theorem witness_SysResetLeavesTheResetState :
    { on faultedCore with inputs := [.reset] }.inputs = HostInput.reset :: [] ∧ (on faultedCore).core.flt = true ∧
    exec .sysReset (on faultedCore) = .next { State.reset with trace := [.response 0#64] } ∧
    State.reset.core.flt = false := ⟨rfl, rfl, rfl, rfl⟩

theorem witness_CommandsFaultWithoutTheirFlag : State.reset.unfaulted ∧ State.reset.core.tv = false ∧
    State.reset.core.cv = false ∧ State.reset.core.dv = false := ⟨rfl, rfl, rfl, rfl⟩

theorem witness_FaultEntryWritesOnlyTheFaultRegisters : State.reset.unfaulted ∧
    leads (.bbGet 0#32) CoreState.reset (fun c => c.flt) = true ∧
    leads .decRun (coreV2 [true, false]) (fun c => c.flt) = true := ⟨rfl, by decide +kernel, by decide +kernel⟩

theorem witness_FlagTransitionsOfEveryCommand :
    leads .bbClr (coreV2 [true]) (fun c => !c.flt && c.tv && c.cv && !c.dv) = true ∧
    leads (.enc 0#8) (coreV2 [true]) (fun c => c.flt && c.tv && c.cv && c.dv) = true := by decide +kernel

theorem witness_ReadsChangeNothingAndRepeat : onlyReads (.ftRd 0x41#8) = true ∧
    leads (.ftRd 0x41#8) (coreV2 []) (fun c => !c.flt) = true := by decide +kernel

theorem build_changes_root : ∃ t, exec .htBuild (on { CoreState.reset with freq := freqV2 }) = .next t ∧
    t.core.root ≠ CoreState.reset.root := by
  refine ⟨_, exec_unfaulted rfl, ?_⟩
  simp only [commit_core, bodyOf, needOf, withNeed_none, htBuildBody, respond_finalCore, on, buildTree_freqV2]
  decide

/-- Each of the memories and registers does change by one of the commands named for it. -/
theorem witness_EveryWriteIsByItsOwnCommands :
    leads .bbClr (coreV2 [true]) (fun c => c.bits != [true]) = true ∧
    (∃ t, exec (.bbApp 1#8 1#32) (on CoreState.reset) = .next t ∧ t.core.bits = CoreState.reset.bits ++ [true]) ∧
    leads (.ftCnt 0x41#8) (coreV2 []) (fun c => c.freqAt 0x41#8 != 3#32) = true ∧
    (∃ t, exec .htBuild (on { CoreState.reset with freq := freqV2 }) = .next t ∧ t.core.root ≠ CoreState.reset.root) ∧
    leads .ctGen (treeCore freqV2 treeV2 []) (fun c => codeAt c.code 0x41#8 != none) = true ∧
    leads .decBit (coreV2 [true]) (fun c => c.rp != 0#32) = true ∧
    leads .decRst (treeCore freqV2 treeV2 []) (fun c => c.cur != 511#9) = true ∧
    leads (.bbGet 1#32) (coreV2 [true]) (fun c => c.flt && c.fcode != 0#8 && c.finfo != 0#40) = true ∧
    leads .sysReset faultedCore (fun c => !c.flt && c.fcode != faultedCore.fcode) = true :=
  ⟨by decide +kernel, ⟨_, exec_append_one, rfl⟩, by decide +kernel, build_changes_root, by decide +kernel,
    by decide +kernel, by decide +kernel, by decide +kernel, by decide +kernel⟩

theorem witness_NopDoesNothing : State.reset.unfaulted ∧ (on faultedCore).core.flt = true := ⟨rfl, rfl⟩

theorem witness_SysRdReadsEachRegister : 10 < (11#8).toNat ∧ 1#16 ≠ 0#16 ∧ 1#32 ≠ 0#32 ∧ State.reset.unfaulted ∧
    (on faultedCore).core.flt = true := ⟨by decide, by decide, by decide, rfl, rfl⟩

theorem witness_BbClrEmptiesTheBuffer : (on (coreV2 [true])).unfaulted := rfl

/-- A buffer with exactly one free cell, and a full one. -/
theorem witness_BbAppAppendsAllOrNothing :
    ((32#8).toNat ≤ 32 ∧ (0xFFFFFFFF#32).toNat < 2 ^ (32#8).toNat) ∧
    ((1#8).toNat ≤ 32 ∧ (1#32).toNat < 2 ^ (1#8).toNat) ∧
    { CoreState.reset with bits := List.replicate (Config.bcap - 1) false }.blen + (1#8).toNat = Config.bcap ∧
    Config.bcap < { CoreState.reset with bits := List.replicate Config.bcap false }.blen + (1#8).toNat := by
  have h := bcap_pos
  refine ⟨by decide, by decide, ?_, ?_⟩
  · simp [CoreState.blen]
    omega
  · simp [CoreState.blen]

theorem witness_BbGetReadsOneBit : (on (coreV2 [true])).unfaulted ∧ (0#32).toNat < (coreV2 [true]).bits.length ∧
    (coreV2 [true]).blen ≤ (1#32).toNat := by decide

theorem witness_BbGetwReadsPackedBits : (on (coreV2 [true])).unfaulted ∧
    (0#8).toNat ≤ 32 ∧ (1#8).toNat ≤ 32 ∧ (32#8).toNat ≤ 32 ∧
    (0#32).toNat + (1#8).toNat ≤ (coreV2 [true]).blen ∧ (1#32).toNat + (0#8).toNat ≤ (coreV2 [true]).blen ∧
    (coreV2 [true]).blen < (2#32).toNat + (0#8).toNat ∧
    (coreV2 [true]).blen < (0xFFFFFFFF#32).toNat + (32#8).toNat := by decide

theorem witness_AppendedBitsReadBack : State.reset.unfaulted ∧ (1#8).toNat ≤ 32 ∧
    (1#32).toNat < 2 ^ (1#8).toNat ∧ State.reset.core.blen + (1#8).toNat ≤ Config.bcap ∧
    (∃ t, exec (.bbApp 1#8 1#32) (on CoreState.reset) = .next t) ∧
    (0#8).toNat ≤ 32 ∧ (0#32).toNat + (0#8).toNat ≤ State.reset.core.blen :=
  ⟨rfl, by decide, by decide, bcap_pos, ⟨_, exec_append_one⟩, by decide, by decide⟩

theorem witness_FtClrEmptiesTheTable : (on (coreV2 [])).unfaulted := rfl

/-- The count before the greatest one, and the greatest one. -/
theorem witness_FtCntCountsOneOccurrence :
    { CoreState.reset with freq := table [(0x41#8, 0xFFFFFFFE#32)] }.freqAt 0x41#8 ≠ 0xFFFFFFFF#32 ∧
    { CoreState.reset with freq := table [(0x41#8, 0xFFFFFFFF#32)] }.freqAt 0x41#8 = 0xFFFFFFFF#32 := by
  decide +kernel

theorem witness_FtLdSetsOneCount : (on (coreV2 [])).unfaulted := rfl

theorem witness_FtRdReadsOneCount : (on (coreV2 [])).unfaulted := rfl

theorem witness_CountingGivesOccurrences : State.reset.unfaulted ∧ ∀ b : Byte, [0x41#8].count b < 2 ^ 32 :=
  ⟨rfl, fun _ => Nat.lt_of_le_of_lt List.count_le_length (by decide)⟩

/-- A Leaf, and an Internal node one step above one. -/
theorem witness_CompareIsLexicographicInTheKey : leftSpine treeV3.nodes 511 97#9 = some (0, 0x61#8) ∧
    leftSpine treeV3.nodes 511 256#9 = some (1, 0x62#8) := by decide +kernel

theorem witness_CompareIsAntisymmetricAndTransitive : compareTrees treeV3.nodes 98#9 97#9 = .lt ∧
    compareTrees treeV3.nodes 97#9 256#9 = .lt := by decide +kernel

/-- A heap of one tree and a tree that is less, which sifts up; and the empty heap. -/
theorem witness_HeapInsertKeepsTheHeap : HeapProperty treeV3.nodes [97#9] ∧
    (∀ x ∈ [97#9], compareTrees treeV3.nodes 98#9 x ≠ .eq) ∧ HeapProperty treeV3.nodes [] := by
  refine ⟨fun p hp hl => ?_, by decide +kernel, fun p hp hl => ?_⟩
  · exact absurd hl (by simp; omega)
  · exact absurd hl (by simp)

theorem witness_HeapExtractReturnsTheMinimum : [98#9, 97#9] ≠ ([] : List NodeIdx) ∧
    HeapProperty treeV3.nodes [98#9, 97#9] ∧
    [98#9, 97#9].Pairwise (fun x y => compareTrees treeV3.nodes x y ≠ .eq) := by
  refine ⟨by decide, ?_, by decide +kernel⟩
  intro p hp hl
  obtain rfl : p = 1 := by simp at hl; omega
  decide +kernel

theorem witness_HeapBuildIsMinimumSelection : 2 ≤ (keysOf freqV3).length := two_keys_freqV3

theorem witness_HtBuildLeavesTheWellFormedTree : (on (coreV3 [])).unfaulted := rfl

/-- The empty table, and a table with one key. -/
theorem witness_HtBuildOnNoKeyOrOneKey : (∀ b, State.reset.core.freqAt b = 0#32) ∧
    (coreV2 []).freqAt 0x41#8 ≠ 0#32 ∧ (∀ b', b' ≠ 0x41#8 → (coreV2 []).freqAt b' = 0#32) := by
  refine ⟨countOf_replicate, by decide +kernel, fun b' h => ?_⟩
  have e : freqV2 = (Vector.replicate 256 0#32).set (0x41#8).toNat 3#32 (BitVec.isLt _) := rfl
  show countOf freqV2 b' = 0#32
  rw [e, countOf_set, if_neg h, countOf_replicate]

theorem witness_LeftChildComparesLess : 2 ≤ (keysOf freqV3).length ∧
    nodeAt (buildTree freqV3).nodes 256#9 = .internal 98#9 97#9 3#40 := by
  rw [buildTree_freqV3]
  exact ⟨two_keys_freqV3, by decide +kernel⟩

/-- Two cores with one table and nothing else in common, both of which the build completes on. -/
theorem witness_BuildDependsOnTheTableAlone : (on (coreV2 [true])).unfaulted ∧
    (on { CoreState.reset with freq := freqV2 }).unfaulted ∧
    (coreV2 [true]).freq = { CoreState.reset with freq := freqV2 }.freq ∧
    (∃ t, exec .htBuild (on (coreV2 [true])) = .next t) ∧
    ∃ t, exec .htBuild (on { CoreState.reset with freq := freqV2 }) = .next t :=
  ⟨rfl, rfl, rfl, exec_answers_next .., exec_answers_next ..⟩

theorem witness_TotalIsTheSumOfCounts : State.reset.unfaulted ∧ ∃ t, exec .htBuild State.reset = .next t :=
  ⟨rfl, exec_answers_next ..⟩

/-- NULL, an absent record, a Leaf and an Internal node. -/
theorem witness_HtNodeReadsARecord : 511 < (512#32).toNat ∧ State.reset.core.tv = false ∧ (on (coreV3 [])).unfaulted ∧ (coreV3 []).tv = true ∧
    (0#9 ≠ 511#9 ∧ nodeAt (coreV3 []).nodes 0#9 = .absent) ∧
    (97#9 ≠ 511#9 ∧ nodeAt (coreV3 []).nodes 97#9 = .leaf 0x61#8 2#40) ∧
    (256#9 ≠ 511#9 ∧ nodeAt (coreV3 []).nodes 256#9 = .internal 98#9 97#9 3#40) := by decide +kernel

theorem witness_HtNfreqReadsAFrequency : 511 < (0xFFFFFFFF#32).toNat ∧ State.reset.core.tv = false ∧ (on (coreV3 [])).unfaulted ∧ (coreV3 []).tv = true ∧
    (510#9 ≠ 511#9 ∧ nodeAt (coreV3 []).nodes 510#9 = .absent) ∧
    (98#9 ≠ 511#9 ∧ nodeAt (coreV3 []).nodes 98#9 = .leaf 0x62#8 1#40) ∧
    (256#9 ≠ 511#9 ∧ nodeAt (coreV3 []).nodes 256#9 = .internal 98#9 97#9 3#40) := by decide +kernel

theorem witness_CtGenWritesTheCodeTable : State.reset.core.tv = false ∧ (on (coreV1 [])).unfaulted ∧ (coreV1 []).tv = true ∧
    nodeAt (coreV1 []).nodes (coreV1 []).root = .leaf 0#8 0#40 ∧
    (on (coreV3 [])).unfaulted ∧ (coreV3 []).tv = true ∧
    nodeAt (coreV3 []).nodes (coreV3 []).root = .internal 98#9 97#9 3#40 := by decide +kernel

theorem witness_CodeIsThePathToTheLeaf : keysOf freqV2 ≠ [] := by
  rw [keysOf_freqV2]
  decide

/-- One key, and two. -/
theorem witness_OneCodeOfLegalLengthPerKey :
    (codeAt (codesOfTable freqV2) 0x41#8 = some [true] ∧ (keysOf freqV2).length = 1) ∧
    codeAt (codesOfTable freqV3) 0x61#8 = some [true] ∧ 2 ≤ (keysOf freqV3).length :=
  ⟨⟨codes_freqV2, by rw [keysOf_freqV2]; rfl⟩, codes_freqV3.1, two_keys_freqV3⟩

theorem witness_CodesArePrefixFree : 0x61#8 ≠ 0x62#8 ∧ codeAt (codesOfTable freqV3) 0x61#8 = some [true] ∧
    codeAt (codesOfTable freqV3) 0x62#8 = some [false] := ⟨by decide, codes_freqV3⟩

theorem witness_CodeLengthsFillTheCodeSpace : 2 ≤ (keysOf freqV3).length := two_keys_freqV3

theorem witness_CtLenReadsValidAndLength : State.reset.core.cv = false ∧ (on (coreV2 [])).unfaulted ∧ (coreV2 []).cv = true ∧
    codeAt (coreV2 []).code 0#8 = none ∧ codeAt (coreV2 []).code 0x41#8 = some [true] ∧ [true].length ≤ 255 := by
  decide +kernel

/-- No entry; a chunk at the end of the code, and the first chunk. -/
theorem witness_CtBitsReadsAChunk : 7 < (8#32).toNat ∧ State.reset.core.cv = false ∧ (on (coreV2 [])).unfaulted ∧ (coreV2 []).cv = true ∧
    codeAt (coreV2 []).code 0#8 = none ∧ codeAt (coreV2 []).code 0x41#8 = some [true] ∧
    [true].length ≤ 32 * (1#3).toNat ∧ 32 * (0#3).toNat < [true].length := by decide +kernel

/-- No entry; a code that fills the buffer exactly, and a full buffer. -/
theorem witness_EncAppendsTheCode : State.reset.core.cv = false ∧ (coreV2 []).cv = true ∧ codeAt (coreV2 []).code 0#8 = none ∧
    codeAt (coreV2 (List.replicate (Config.bcap - 1) false)).code 0x41#8 = some [true] ∧
    (coreV2 (List.replicate (Config.bcap - 1) false)).blen + [true].length = Config.bcap ∧
    codeAt (coreV2 (List.replicate Config.bcap false)).code 0x41#8 = some [true] ∧
    Config.bcap < (coreV2 (List.replicate Config.bcap false)).blen + [true].length := by
  have h := bcap_pos
  refine ⟨rfl, rfl, by decide +kernel, rfl, ?_, rfl, ?_⟩
  · simp [CoreState.blen, coreV2, armedCore, treeCore]
    omega
  · simp [CoreState.blen, coreV2, armedCore, treeCore]

theorem witness_EncodingConcatenatesTheCodes : (on (coreV2 [])).unfaulted ∧ (coreV2 []).cv = true ∧
    (∀ b ∈ [0x41#8], (codeAt (coreV2 []).code b).isSome = true) ∧
    (codesOf (coreV2 []).code [0x41#8]).length ≤ Config.bcap := by
  have e : codesOf (coreV2 []).code [0x41#8] = [true] := by decide +kernel
  exact ⟨rfl, rfl, by decide +kernel, by simpa [e] using bcap_pos⟩

theorem witness_DecRstArmsTheDecoder : State.reset.core.tv = false ∧ (on (treeCore freqV3 treeV3 [])).unfaulted ∧
    (on (treeCore freqV3 treeV3 [])).core.tv = true := ⟨rfl, rfl, rfl⟩

/-- Not armed; at the end of the bits, at the root and one step below it; the cursor at a Leaf; a NULL left child; a Leaf
to the right; an Internal node to the right. -/
theorem witness_DecBitMakesOneMove :
    State.reset.core.dv = false ∧
    ((coreV7 []).dv = true ∧ (coreV7 []).rp.toNat = (coreV7 []).blen ∧ (coreV7 []).cur = (coreV7 []).root ∧
      { coreV7 [] with cur := 258#9 }.cur ≠ (coreV7 []).root) ∧
    ((coreV1 [true]).dv = true ∧ (nodeAt (coreV1 [true]).nodes (coreV1 [true]).cur).isLeaf = true) ∧
    (nodeAt (coreV2 [false]).nodes (coreV2 [false]).cur = .internal 511#9 65#9 3#40 ∧ (coreV2 [false]).bits[0] = false) ∧
    (nodeAt (coreV2 [true]).nodes 65#9 = .leaf 0x41#8 3#40 ∧ (coreV2 [true]).bits[0] = true) ∧
    (nodeAt (coreV7 [true]).nodes (coreV7 [true]).cur = .internal 97#9 258#9 11#40 ∧
      nodeAt (coreV7 [true]).nodes 258#9 = .internal 256#9 257#9 6#40) := by decide +kernel

/-- Not armed; at the end of the bits; a bit step that completes and one that faults. -/
theorem witness_DecRunIsRepeatedDecBit : State.reset.core.dv = false ∧
    ((coreV7 []).rp.toNat = (coreV7 []).blen ∧ { coreV7 [] with cur := 258#9 }.cur ≠ (coreV7 []).root) ∧
    (coreV2 [true]).dv = true ∧ (coreV2 [true]).rp.toNat < (coreV2 [true]).blen ∧
    (coreV2 [true]).blen ≤ Config.bcap ∧ leads .decBit (coreV2 [true]) (fun c => !c.flt) = true ∧
    leads .decBit (coreV2 [false]) (fun c => c.flt) = true :=
  ⟨rfl, by decide +kernel, rfl, by decide, bcap_pos, by decide +kernel, by decide +kernel⟩

/-- A state that meets the invariants of R35 with every flag but FLT set. -/
theorem coreV2_inv : (coreV2 [true]).Inv where
  bounds := ⟨Nat.zero_le _, bcap_pos⟩
  flags := ⟨fun _ => rfl, fun _ => rfl⟩
  tree _ := by
    refine ⟨?_, ?_⟩
    · show TreeWellFormed freqV2 treeV2.nodes 256#9 _ 257#9
      refine (treeWellFormed_of_one keysOf_freqV2).mpr ⟨rfl, by decide +kernel, rfl, fun i => ?_⟩
      show nodeAt (setNode (setNode CoreState.reset.nodes (leafIdx 0x41#8) (.leaf 0x41#8 3#40)) 256#9
        (.internal 511#9 (leafIdx 0x41#8) 3#40)) i = _
      rw [nodeAt_setNode _ _ _ _ (by decide), nodeAt_setNode _ _ _ _ (by decide)]
      have e : countOf freqV2 0x41#8 = 3#32 := rfl
      simp [e, CoreState.reset]
    · show isBuildOf freqV2 treeV2.nodes 256#9 _ 257#9
      unfold isBuildOf
      rw [buildTree_freqV2]
      refine ⟨?_, rfl, rfl, by decide +kernel⟩
      simp [treeV2, treeOf, buildOneLeaf, emptyBuilder, CoreState.reset, leafIdx, zext40, Config.firstInternal,
        Config.null]
  codes _ := by
    show setCode CoreState.reset.code 0x41#8 [true] = deriveCodes treeV2.nodes 256#9
    have h1 : nodeAt treeV2.nodes 256#9 = .internal 511#9 65#9 3#40 := by decide +kernel
    have h2 : nodeAt treeV2.nodes 65#9 = .leaf 0x41#8 3#40 := by decide +kernel
    have h3 : derive treeV2.nodes (509 + 1 + 1) 256#9 [] (Vector.replicate 256 none) =
        setCode CoreState.reset.code 0x41#8 [true] := by
      rw [derive, h1]
      simp only []
      rw [derive, h2]
      simp [Config.null, CoreState.reset]
    rw [deriveCodes, h1, if_pos (by rfl)]
    exact h3.symm
  cursor _ := ⟨by decide +kernel, .inl (by decide +kernel), [], rfl⟩
  fault := ⟨fun _ => ⟨rfl, rfl⟩, nofun⟩
  codeLengths b := by
    have e : codeAt (coreV2 [true]).code b = if b = 0x41#8 then some [true] else none :=
      (codeAt_setCode ..).trans (by simp [CoreState.reset])
    unfold CoreState.cval CoreState.clen
    rw [e]
    by_cases h : b = 0x41#8 <;> simp [h]
  heapEmpty := rfl

theorem witness_DecRunEmitsTheEncodedBytes : (on (coreV2 [true])).unfaulted ∧ (on (coreV2 [true])).core.Inv ∧
    (coreV2 [true]).dv = true ∧ (coreV2 [true]).cur = (coreV2 [true]).root ∧
    (∀ b ∈ [0x41#8], countOf (coreV2 [true]).freq b ≠ 0#32) ∧
    (coreV2 [true]).bits.drop (coreV2 [true]).rp.toNat = codesOf (codesOfTable (coreV2 [true]).freq) [0x41#8] :=
  ⟨rfl, coreV2_inv, rfl, rfl, by decide +kernel, by
    show [true] = codesOf (codesOfTable freqV2) [0x41#8]
    simp [codesOf, codes_freqV2]⟩

theorem witness_EveryStepKeepsTheInvariants : (on (coreV2 [true])).core.Inv ∧
    ∃ t, step { on (coreV2 [true]) with inputs := [.command 0x6200000000000000#64] } = .next t :=
  ⟨coreV2_inv, exec_answers_next .decRun (on (coreV2 [true]))⟩

/-- The empty input, and one byte. -/
theorem witness_RoundTripEmitsTheInput : State.reset.unfaulted ∧ (∀ b : Byte, [0x41#8].count b < 2 ^ 32) ∧
    (codesOf (codesOfTable (tableOf [])) []).length ≤ Config.bcap ∧
    (codesOf (codesOfTable (tableOf [0x41#8])) [0x41#8]).length ≤ Config.bcap := by
  have t : tableOf [0x41#8] = table [(0x41#8, 1#32)] := by
    apply freq_ext
    intro b
    simp only [tableOf, table, List.foldl, countOf_set, countOf_replicate]
    by_cases h : b = 0x41#8 <;> simp [countOf, h, eq_comm]
  have e : codesOf (codesOfTable (tableOf [0x41#8])) [0x41#8] = [true] := by
    rw [t, codesOfTable, buildTree_one _ (by decide)]
    decide +kernel
  exact ⟨rfl, fun _ => Nat.lt_of_le_of_lt List.count_le_length (by decide), Nat.zero_le _, by
    rw [e]
    exact bcap_pos⟩

/-- A buffer that is full. -/
theorem witness_LoadedContainerIsTheContainer :
    { CoreState.reset with bits := List.replicate Config.bcap true }.bits.length ≤ Config.bcap ∧
    State.reset.unfaulted := ⟨by simp, rfl⟩

theorem witness_ReadOutGivesTheContainer : (on (coreV2 [true])).unfaulted ∧ (coreV2 [true]).blen ≤ Config.bcap :=
  ⟨rfl, bcap_pos⟩

end Sys2Proof.Tests
end

section
/-! SUPPORT. Bit-strings and the integers they are packed into (00_scope.md R12). `pack` and `unpack` are both described
from the right, one last bit at a time: that bit is the least significant one, so it is the remainder modulo 2. -/

namespace Sys2Proof.Machine

@[simp] theorem unpack_zero (v : Nat) : unpack 0 v = [] := rfl

/-- The last bit of the string is bit 0 of the number, and the string before it is that of the halved number. -/
theorem unpack_succ (n v : Nat) : unpack (n + 1) v = unpack n (v / 2) ++ [v.testBit 0] := by
  have front : ∀ i ∈ List.range n, v.testBit (n - i) = (v / 2).testBit (n - 1 - i) := by
    intro i hi
    rw [List.mem_range] at hi
    rw [← Nat.testBit_succ, show (n - 1 - i).succ = n - i by omega]
  simpa [unpack, List.range_succ] using front

theorem getElem?_unpack {n i : Nat} (v : Nat) (hi : i < n) : (unpack n v)[i]? = some (v.testBit (n - 1 - i)) := by
  simp [unpack, hi]

/-- Packing the low n bits of any number keeps just those bits. -/
theorem pack_unpack (n v : Nat) : pack (unpack n v) = v % 2 ^ n := by
  induction n generalizing v with
  | zero => simp [Nat.mod_one]
  | succ n ih =>
    calc pack (unpack (n + 1) v)
      _ = 2 * (v / 2 % 2 ^ n) + (v.testBit 0).toNat := by rw [unpack_succ, pack_append_singleton, ih]
      _ = v % 2 + 2 * (v / 2 % 2 ^ n) := by rw [Nat.toNat_testBit, pow_zero, Nat.div_one, add_comm]
      _ = v % 2 ^ (n + 1) := by rw [pow_succ', Nat.mod_mul]

theorem pack_unpack_of_lt {n v : Nat} (h : v < 2 ^ n) : pack (unpack n v) = v := by
  rw [pack_unpack, Nat.mod_eq_of_lt h]

theorem pack_lt_two_pow_length (s : Bits) : pack s < 2 ^ s.length := by
  induction s using List.reverseRecOn with
  | nil => simp
  | append_singleton s b ih =>
    have hb : b.toNat < 2 := b.toNat_lt
    rw [pack_append_singleton, List.length_append, List.length_singleton, pow_succ]
    omega

theorem unpack_pack (s : Bits) : unpack s.length (pack s) = s := by
  induction s using List.reverseRecOn with
  | nil => rfl
  | append_singleton s b ih =>
    have half : (2 * pack s + b.toNat) / 2 = pack s := by
      have hb : b.toNat < 2 := b.toNat_lt
      omega
    have low : (2 * pack s + b.toNat).testBit 0 = b := by cases b <;> simp
    rw [List.length_append, List.length_singleton, pack_append_singleton, unpack_succ, half, low, ih]

/-- The sum of R12: a bit appended on the right doubles the weight of every bit before it, and has weight 1 itself. -/
theorem pack_eq_sum (s : Bits) :
    pack s = ((List.range s.length).map fun i => (s.getD i false).toNat * 2 ^ (s.length - 1 - i)).sum := by
  induction s using List.reverseRecOn with
  | nil => rfl
  | append_singleton s b ih =>
    have doubled : ∀ i ∈ List.range s.length, ((s ++ [b]).getD i false).toNat * 2 ^ (s.length - i) =
        2 * ((s.getD i false).toNat * 2 ^ (s.length - 1 - i)) := by
      intro i hi
      rw [List.mem_range] at hi
      rw [List.getD_append _ _ _ _ hi, show s.length - i = s.length - 1 - i + 1 by omega, pow_succ]
      ring
    rw [pack_append_singleton, ih, ← List.sum_map_mul_left, ← List.map_congr_left doubled]
    simp [List.range_succ]

/-- Settles O6: the value, the bound and both inverses come by taking off the last bit, the elements from the definition
of unpack. -/
theorem packAndUnpackAreInverse : Obligations.PackAndUnpackAreInverse :=
  ⟨pack_eq_sum, fun _ _ => pack_unpack_of_lt, fun s => ⟨pack_lt_two_pow_length s, unpack_pack s⟩,
    fun n v => ⟨unpack_length n v, fun _ => getElem?_unpack v⟩⟩

end Sys2Proof.Machine
end

section
/-! SUPPORT. What a command can do to the core, said once: it is refused, it completes with an effect named for it, or it
raises. The table of flag transitions (10_state.md R39) and the list of who writes what (10_state.md R21, 20_memory.md R61)
are read off the effects. -/

namespace Sys2Proof.Machine

/-! ## The effects -/

/-- The core before and after a command that completes. The premises are the checks that the command has passed. -/
inductive Effect : Instr → CoreState → CoreState → Prop where
  /-- The reading commands, and NOP. -/
  | read {i : Instr} {c : CoreState} (reads : onlyReads i = true) : Effect i c c
  | reset {c : CoreState} : Effect .sysReset c CoreState.reset
  | clearBits {c : CoreState} : Effect .bbClr c { c with bits := [], rp := 0#32, dv := false }
  /-- BB.APP and ENC. -/
  | append {i : Instr} {c : CoreState} (bs : Bits) (appends : (∃ n v, i = .bbApp n v) ∨ ∃ b, i = .enc b)
      (fits : c.blen + bs.length ≤ Config.bcap) : Effect i c { c with bits := c.bits ++ bs }
  /-- FT.CLR, FT.CNT and FT.LD. -/
  | count {i : Instr} {c : CoreState} (freq : Vector Count 256)
      (counts : i = .ftClr ∨ (∃ b, i = .ftCnt b) ∨ ∃ b n, i = .ftLd b n) :
      Effect i c { c with freq := freq }.withdrawDerived
  | build {c : CoreState} : Effect .htBuild c (htBuildBody c).core
  | generate {c : CoreState} (tv : c.tv = true) :
      Effect .ctGen c { c with code := deriveCodes c.nodes c.root, cv := true }
  | arm {c : CoreState} (tv : c.tv = true) : Effect .decRst c { c with cur := c.root, rp := 0#32, dv := true }
  /-- DEC.BIT at the end of the bits. -/
  | atEnd {c : CoreState} : Effect .decBit c c
  | bit {c c' : CoreState} {e : Option Byte} (dv : c.dv = true) (more : c.rp.toNat < c.blen)
      (moves : bitStep c = .ok (c', e)) : Effect .decBit c c'
  | run {c : CoreState} (dv : c.dv = true) : Effect .decRun c (decRunBody c).core

/-- The core before and after a command that raises, short of fault entry: DEC.RUN alone has done anything. -/
inductive Raised : Instr → CoreState → CoreState → Prop where
  | unchanged {i : Instr} {c : CoreState} : Raised i c c
  | run {c : CoreState} (dv : c.dv = true) : Raised .decRun c (decRunBody c).core

/-! ## Every command has one of them -/

theorem bodyOf_core_of_onlyReads {i : Instr} (c : CoreState) (h : onlyReads i = true) : (bodyOf i c).core = c := by
  cases i with
  | nop | sysRd | ftRd | ctLen => rfl
  | bbGet => simp only [bodyOf, bbGetBody]; split <;> rfl
  | bbGetw => simp only [bodyOf, bbGetwBody]; split <;> rfl
  | htNode => simp only [bodyOf, htNodeBody]; split <;> rfl
  | htNfreq => simp only [bodyOf, htNfreqBody]; split <;> rfl
  | ctBits => simp only [bodyOf, ctBitsBody]; split <;> rfl
  | _ => cases h

theorem appendAndRespond_effect {i : Instr} (hi : (∃ n v, i = .bbApp n v) ∨ ∃ b, i = .enc b) {bs : Bits}
    {c : CoreState} {d : Data} (h : (appendAndRespond Config.bcap bs c).verdict = .ok d) :
    Effect i c (appendAndRespond Config.bcap bs c).core := by
  rcases appendAndRespond_cases Config.bcap bs c with ⟨fits, e⟩ | ⟨-, e⟩
  · rw [e]
    exact .append bs hi fits
  · rw [e] at h
    cases h

theorem decBitBody_effect {c : CoreState} {d : Data} (dv : c.dv = true) (h : (decBitBody c).verdict = .ok d) :
    Effect .decBit c (decBitBody c).core := by
  unfold decBitBody at h ⊢
  split at h
  · split at h
    · cases h
    · simp only [*, if_true]
      exact .bit dv ‹_› ‹_›
  · split at h
    · simp only [*, if_true, if_false]
      exact .atEnd
    · cases h

/-- A body that completes, its flag checked, has the command's effect. -/
theorem bodyOf_effect {i : Instr} {c : CoreState} {d : Data} (ready : ∀ n, needOf i = some n → c.ready n = true)
    (h : (bodyOf i c).verdict = .ok d) : Effect i c (bodyOf i c).core := by
  by_cases hr : onlyReads i = true
  · rw [bodyOf_core_of_onlyReads c hr]
    exact .read hr
  cases i with
  | sysReset => exact .reset
  | bbClr => exact .clearBits
  | bbApp n v => exact appendAndRespond_effect (.inl ⟨n, v, rfl⟩) h
  | ftClr => exact .count _ (.inl rfl)
  | ftCnt b =>
    simp only [bodyOf, ftCntBody] at h ⊢
    split at h
    · cases h
    · simp only [*, if_false]
      exact .count _ (.inr (.inl ⟨b, rfl⟩))
  | ftLd b n => exact .count _ (.inr (.inr ⟨b, n, rfl⟩))
  | htBuild => exact .build
  | ctGen => exact .generate (ready _ rfl)
  | enc b =>
    simp only [bodyOf, encBody] at h ⊢
    cases hs : codeAt c.code b <;> rw [hs] at h
    case none => cases h
    case some bs => exact appendAndRespond_effect (.inr ⟨b, rfl⟩) h
  | decRst => exact .arm (ready _ rfl)
  | decBit => exact decBitBody_effect (ready _ rfl) h
  | decRun => exact .run (ready _ rfl)
  | _ => exact absurd rfl hr

/-- A body that raises, its flag checked. -/
theorem bodyOf_raisedFrom {i : Instr} {c : CoreState} {f : Cause} (ready : ∀ n, needOf i = some n → c.ready n = true)
    (h : (bodyOf i c).verdict = .raised f) : Raised i c (bodyOf i c).core := by
  by_cases hi : i = .decRun
  · subst hi
    exact .run (ready _ rfl)
  · rw [bodyOf_raised h hi]
    exact .unchanged

/-- The core after a body is the effect of the command, or fault entry on what it had done when it raised. -/
theorem bodyOf_finalCore {i : Instr} {c : CoreState} (ready : ∀ n, needOf i = some n → c.ready n = true) :
    Effect i c (bodyOf i c).finalCore ∨
      ∃ f c', Raised i c c' ∧ (bodyOf i c).finalCore = takeFault f c' := by
  unfold CmdResult.finalCore
  split
  case h_1 h => exact .inl (bodyOf_effect ready h)
  case h_2 f h => exact .inr ⟨f, _, bodyOf_raisedFrom ready h, rfl⟩

/-- Everything a command can do to the core: it is refused, it has its effect, or an unfaulted core takes a fault. -/
theorem exec_core {i : Instr} {s t : State} (h : exec i s = .next t) :
    (s.core.flt = true ∧ t.core = s.core) ∨ Effect i s.core t.core ∨
      (s.core.flt = false ∧ ∃ f c, Raised i s.core c ∧ t.core = takeFault f c) := by
  rcases exec_next h with ⟨hi, rfl⟩ | ⟨-, hf, rfl⟩ | ⟨-, hf, rfl⟩
  · cases i with
    | sysRd r => exact .inr (.inl (.read rfl))
    | sysReset => exact .inr (.inl .reset)
    | _ => cases hi
  · exact .inl ⟨hf, rfl⟩
  · simp only [commit_core, withNeed]
    split
    case h_1 hn => exact .inr ((bodyOf_finalCore (by simp [hn])).imp_right (⟨hf, ·⟩))
    case h_2 n hn =>
      split
      case isTrue hr =>
        exact .inr ((bodyOf_finalCore (by simpa [hn] using hr)).imp_right (⟨hf, ·⟩))
      case isFalse => exact .inr (.inr ⟨hf, .notReady n, s.core, .unchanged, rfl⟩)

/-! ## What the decoder leaves alone -/

theorem decRunBody_moved (c : CoreState) : ∃ rp cur, (decRunBody c).core = c.moved rp cur := by
  obtain ⟨rp, cur, -, h, -⟩ := decRunLoop_result (c.blen - c.rp.toNat) c []
  exact ⟨rp, cur, h⟩

theorem Raised.moved {i : Instr} {c c' : CoreState} (h : Raised i c c') :
    ∃ rp cur, c' = c.moved rp cur := by
  cases h with
  | unchanged => exact ⟨c.rp, c.cur, rfl⟩
  | run => exact decRunBody_moved c

/-! ## Flags (10_state.md R39) -/

theorem Effect.flags {i : Instr} {c c' : CoreState} (h : Effect i c c') :
    (c'.tv, c'.cv, c'.dv) = flagsAfter i c.tv c.cv c.dv := by
  cases h with
  | read reads => cases i <;> simp_all [onlyReads, flagsAfter]
  | append bs appends => obtain ⟨n, v, rfl⟩ | ⟨b, rfl⟩ := appends <;> rfl
  | count freq counts => obtain rfl | ⟨b, rfl⟩ | ⟨b, n, rfl⟩ := counts <;> rfl
  | arm => rfl
  | bit dv _ moves =>
    rw [bitStep_ok moves]
    rfl
  | run =>
    obtain ⟨rp, cur, e⟩ := decRunBody_moved c
    rw [e]
    rfl
  | reset | clearBits | build | generate | atEnd => rfl

/-- A command that completes leaves the fault registers as they are, or it is SYS.RESET. -/
theorem Effect.faultRegisters {i : Instr} {c c' : CoreState} (h : Effect i c c') :
    i = .sysReset ∨ (c'.flt = c.flt ∧ c'.fcode = c.fcode ∧ c'.finfo = c.finfo) := by
  cases h with
  | reset => exact .inl rfl
  | bit _ _ moves =>
    rw [bitStep_ok moves]
    exact .inr ⟨rfl, rfl, rfl⟩
  | run =>
    obtain ⟨rp, cur, e⟩ := decRunBody_moved c
    rw [e]
    exact .inr ⟨rfl, rfl, rfl⟩
  | _ => exact .inr ⟨rfl, rfl, rfl⟩

theorem Effect.unfaulted {i : Instr} {c c' : CoreState} (h : Effect i c c') (hf : c.flt = false) : c'.flt = false := by
  rcases h.faultRegisters with rfl | ⟨e, -⟩
  · cases h with
    | read reads => cases reads
    | reset => rfl
    | append _ appends => simp at appends
    | count _ counts => simp at counts
  · rw [e, hf]

/-- Settles O16: an effect has the flags of the table, and fault entry keeps the flags of a core that at most RP and CUR
have moved in. -/
theorem flagTransitionsOfEveryCommand : Obligations.FlagTransitionsOfEveryCommand := by
  intro i s t hs h
  rcases exec_core h with ⟨hf, -⟩ | he | ⟨-, f, c, hc, ht⟩
  · exact absurd (hs.symm.trans hf) (by decide)
  · exact ⟨fun _ => he.flags, fun hf => absurd ((he.unfaulted hs).symm.trans hf) (by decide)⟩
  · obtain ⟨rp, cur, rfl⟩ := hc.moved
    rw [ht]
    exact ⟨nofun, fun _ => rfl⟩

/-! ## Who writes what -/

/-- Settles O18: each effect changes the fields that are named for its commands, fault entry the fault registers alone. -/
theorem everyWriteIsByItsOwnCommands : Obligations.EveryWriteIsByItsOwnCommands := by
  intro i s t h
  rcases exec_core h with ⟨-, ht⟩ | he | ⟨hf, f, c, hc, ht⟩
  · simp [ht]
  · generalize t.core = c' at he ⊢
    cases he with
    | read | clearBits | generate | arm | atEnd => simp
    | reset => simp [CoreState.reset]
    | append bs appends => simpa using fun _ => .inr appends
    | count freq counts => simpa using fun _ => counts.imp_right (·.imp_right .inl)
    | build => simp [htBuildBody]
    | bit _ _ moves =>
      rw [bitStep_ok moves]
      simp
    | run =>
      obtain ⟨rp, cur, e⟩ := decRunBody_moved s.core
      simp [e]
  · cases hc with
    | unchanged => simp [ht, hf]
    | run =>
      obtain ⟨rp, cur, e⟩ := decRunBody_moved s.core
      simp [ht, hf, e]

end Sys2Proof.Machine
end

section
/-! SUPPORT. What the heap operations and the first loop of BuildMerged leave (42_tree_builder.md R164, R170 to R172), and
the sum of a table's counts (41_frequency_counter.md R147). -/

namespace Sys2Proof.Machine

/-! ## The heap, as a collection of its entries -/

theorem heapInsert_perm (nodes : Vector Node 511) (h : List NodeIdx) (t : NodeIdx) :
    (heapInsert nodes h t).Perm (t :: h) :=
  (siftUp_perm nodes (h.length + 1) (h ++ [t]) h.length (by simp)).trans (List.perm_append_singleton t h)

theorem heapExtractMin_perm (nodes : Vector Node 511) {h : List NodeIdx} (hne : h ≠ []) :
    h.Perm ((heapExtractMin nodes h).1 :: (heapExtractMin nodes h).2) := by
  obtain ⟨front, last, rfl⟩ := List.eq_nil_or_concat' h |>.resolve_left hne
  cases front with
  | nil => exact .refl _
  | cons d ds =>
    have e : heapExtractMin nodes (d :: ds ++ [last]) =
        (d, siftDown nodes (ds.length + 2) (last :: ds) 0) := by
      simp [heapExtractMin, heapAt, List.dropLast_cons_of_ne_nil]
    rw [e]
    exact .cons d ((List.perm_append_singleton last ds).trans (siftDown_perm ..).symm)

@[simp] theorem heapExtractMin_singleton (nodes : Vector Node 511) (x : NodeIdx) :
    heapExtractMin nodes [x] = (x, []) := rfl

/-! ## The leaves -/

/-- An index below 256 is the index of some byte's Leaf. -/
theorem exists_leafIdx_of_lt {i : NodeIdx} (h : i.toNat < 256) : ∃ b, leafIdx b = i :=
  ⟨BitVec.ofNat 8 i.toNat, BitVec.eq_of_toNat_eq (by rw [leafIdx_toNat, BitVec.toNat_ofNat, Nat.mod_eq_of_lt h])⟩

theorem insertLeaf_foldl_nxt (freq : Vector Count 256) (keys : List Byte) (t : Builder) :
    (keys.foldl (insertLeaf freq) t).nxt = t.nxt := by
  induction keys generalizing t with
  | nil => rfl
  | cons b bs ih => exact ih _

theorem insertLeaf_foldl_heap_perm (freq : Vector Count 256) (keys : List Byte) (t : Builder) :
    (keys.foldl (insertLeaf freq) t).heap.Perm (keys.map leafIdx ++ t.heap) := by
  induction keys generalizing t with
  | nil => exact .refl _
  | cons b bs ih =>
    exact (ih _).trans (((heapInsert_perm ..).append_left _).trans List.perm_middle)

theorem nodeAt_leafIdx_insertLeaf_foldl (freq : Vector Count 256) (keys : List Byte) (t : Builder) (b : Byte) :
    nodeAt (keys.foldl (insertLeaf freq) t).nodes (leafIdx b) =
      if b ∈ keys then .leaf b (zext40 (countOf freq b)) else nodeAt t.nodes (leafIdx b) := by
  induction keys generalizing t with
  | nil => simp
  | cons k ks ih =>
    have written : nodeAt (insertLeaf freq t k).nodes (leafIdx b) =
        if b = k then .leaf b (zext40 (countOf freq b)) else nodeAt t.nodes (leafIdx b) := by
      rw [insertLeaf, nodeAt_setNode _ _ _ _ (leafIdx_ne_null k)]
      by_cases h : b = k
      · subst h
        simp [countOf]
      · simp [h, mt leafIdx_injective h]
    rw [List.foldl_cons, ih, written]
    by_cases h : b = k <;> simp [h]

theorem nodeAt_insertLeaf_foldl_of_le (freq : Vector Count 256) (keys : List Byte) (t : Builder) {i : NodeIdx}
    (hi : 256 ≤ i.toNat) : nodeAt (keys.foldl (insertLeaf freq) t).nodes i = nodeAt t.nodes i := by
  induction keys generalizing t with
  | nil => rfl
  | cons k ks ih =>
    have hk : i ≠ leafIdx k := by
      rintro rfl
      have := leafIdx_lt k
      omega
    rw [List.foldl_cons, ih, insertLeaf, nodeAt_setNode _ _ _ _ (leafIdx_ne_null k), if_neg hk]

/-! ## The sum of the counts -/

theorem toList_eq_map_countOf (freq : Vector Count 256) : freq.toList = allBytes.map (countOf freq) := by
  apply List.ext_getElem
  · simp
  · intro i h _
    have hi : i < 256 := by simpa using h
    simp [allBytes, countOf, Nat.mod_eq_of_lt hi]

theorem sum_map_filter_of_zero {α : Type} (f : α → Nat) (p : α → Bool) (l : List α) (h : ∀ x ∈ l, p x = false → f x = 0) :
    ((l.filter p).map f).sum = (l.map f).sum := by
  induction l with
  | nil => rfl
  | cons x xs ih =>
    rw [List.forall_mem_cons] at h
    cases hx : p x <;> simp [hx, ih h.2, h.1]

/-- The bytes that are no key add nothing to the sum. -/
theorem sumCounts_eq_sum_keys (freq : Vector Count 256) :
    sumCounts freq = ((keysOf freq).map fun b => (countOf freq b).toNat).sum := by
  rw [sumCounts, toList_eq_map_countOf, List.map_map, keysOf, sum_map_filter_of_zero]
  · rfl
  · intro b _ hb
    simpa [countOf, ← BitVec.toNat_inj] using hb

/-- 256 counts of 32 bits fit 40 bits (20_memory.md R76). -/
theorem sumCounts_lt (freq : Vector Count 256) : sumCounts freq < 2 ^ 40 := by
  have h := List.sum_le_card_nsmul (freq.toList.map BitVec.toNat) (2 ^ 32 - 1) fun x hx => by
    obtain ⟨n, -, rfl⟩ := List.mem_map.mp hx
    exact Nat.le_pred_of_lt n.isLt
  simp only [List.length_map, Vector.length_toList, smul_eq_mul] at h
  unfold sumCounts
  omega

end Sys2Proof.Machine
end

section
/-! SUPPORT. The merge loop of BuildMerged keeps a forest (42_tree_builder.md R164): the records so far make disjoint trees
whose roots are the heap's entries, with the sum of the counts spread over the roots. When one root is left, the forest is the
merged tree of 10_state.md R36. The order in which the heap gives its entries does not matter here. -/

namespace Sys2Proof.Machine

/-- The record at i is an Internal node over two different present records of lower index, its frequency their exact sum. -/
def ExactInternal (nodes : Vector Node 511) (i : NodeIdx) : Prop :=
  ∃ l r f, nodeAt nodes i = .internal l r f ∧ l ≠ r ∧ l.toNat < i.toNat ∧ r.toNat < i.toNat ∧
    (nodeAt nodes l).nv = true ∧ (nodeAt nodes r).nv = true ∧
    f.toNat = (nodeAt nodes l).freq.toNat + (nodeAt nodes r).freq.toNat

/-- The sum of the frequencies of the trees in the heap. -/
def heapTotal (nodes : Vector Node 511) (h : List NodeIdx) : Nat := (h.map fun x => (nodeAt nodes x).freq.toNat).sum

/-- The state of BuildMerged between two rounds of its second loop. -/
structure MergeForest (freq : Vector Count 256) (t : Builder) : Prop where
  nonempty : t.heap ≠ []
  firstInternal : 256 ≤ t.nxt.toNat
  size : t.nxt.toNat + t.heap.length = 256 + (keysOf freq).length
  leaves : ∀ b : Byte, nodeAt t.nodes (leafIdx b) =
    if countOf freq b = 0#32 then .absent else .leaf b ((countOf freq b).setWidth 40)
  internals : ∀ i : NodeIdx, 256 ≤ i.toNat → i.toNat < t.nxt.toNat → ExactInternal t.nodes i
  others : ∀ i : NodeIdx, t.nxt.toNat ≤ i.toNat → nodeAt t.nodes i = .absent
  nodup : t.heap.Nodup
  present : ∀ x ∈ t.heap, (nodeAt t.nodes x).nv = true
  roots : ∀ x ∈ t.heap, ∀ p, ¬ isChildOf t.nodes x p
  oneParent : ∀ i : NodeIdx, (nodeAt t.nodes i).nv = true → i ∉ t.heap → ∃! p, isChildOf t.nodes i p
  total : heapTotal t.nodes t.heap = sumCounts freq

theorem heapTotal_perm (nodes : Vector Node 511) {h h' : List NodeIdx} (p : h.Perm h') :
    heapTotal nodes h = heapTotal nodes h' := (p.map _).sum_eq

@[simp] theorem heapTotal_cons (nodes : Vector Node 511) (x : NodeIdx) (h : List NodeIdx) :
    heapTotal nodes (x :: h) = (nodeAt nodes x).freq.toNat + heapTotal nodes h := rfl

@[simp] theorem nv_absent : Node.absent.nv = false := rfl
@[simp] theorem nv_leaf (b : Byte) (f : Freq) : (Node.leaf b f).nv = true := rfl
@[simp] theorem nv_internal (l r : NodeIdx) (f : Freq) : (Node.internal l r f).nv = true := rfl
@[simp] theorem isInternal_absent : Node.absent.isInternal = false := rfl
@[simp] theorem isInternal_leaf (b : Byte) (f : Freq) : (Node.leaf b f).isInternal = false := rfl
@[simp] theorem isInternal_internal (l r : NodeIdx) (f : Freq) : (Node.internal l r f).isInternal = true := rfl

/-! ## After the leaves -/

/-- BuildMerged after its first loop. -/
def leafPhase (freq : Vector Count 256) : Builder := (keysOf freq).foldl (insertLeaf freq) emptyBuilder

theorem leafPhase_nxt (freq : Vector Count 256) : (leafPhase freq).nxt = 256#9 := insertLeaf_foldl_nxt ..

theorem leafPhase_heap_perm (freq : Vector Count 256) :
    (leafPhase freq).heap.Perm ((keysOf freq).map leafIdx) :=
  (insertLeaf_foldl_heap_perm ..).trans (by simp [emptyBuilder])

theorem nodeAt_leafPhase_leafIdx (freq : Vector Count 256) (b : Byte) : nodeAt (leafPhase freq).nodes (leafIdx b) =
    if countOf freq b = 0#32 then .absent else .leaf b ((countOf freq b).setWidth 40) := by
  rw [leafPhase, nodeAt_leafIdx_insertLeaf_foldl]
  by_cases h : countOf freq b = 0#32 <;> simp [mem_keysOf, h, zext40, emptyBuilder]

theorem nodeAt_leafPhase_of_le (freq : Vector Count 256) {i : NodeIdx} (hi : 256 ≤ i.toNat) :
    nodeAt (leafPhase freq).nodes i = .absent :=
  (nodeAt_insertLeaf_foldl_of_le freq _ _ hi).trans (nodeAt_replicate i)

theorem isInternal_leafPhase (freq : Vector Count 256) (i : NodeIdx) :
    (nodeAt (leafPhase freq).nodes i).isInternal = false := by
  rcases Nat.lt_or_ge i.toNat 256 with hi | hi
  · obtain ⟨b, rfl⟩ := exists_leafIdx_of_lt hi
    rw [nodeAt_leafPhase_leafIdx]
    split <;> rfl
  · rw [nodeAt_leafPhase_of_le freq hi]
    rfl

/-- The records after the first loop are exactly the heap's entries. -/
theorem mem_leafPhase_heap {freq : Vector Count 256} {i : NodeIdx} :
    i ∈ (leafPhase freq).heap ↔ (nodeAt (leafPhase freq).nodes i).nv = true := by
  rw [(leafPhase_heap_perm freq).mem_iff, List.mem_map]
  constructor
  · rintro ⟨b, hb, rfl⟩
    rw [nodeAt_leafPhase_leafIdx, if_neg (mem_keysOf.mp hb), nv_leaf]
  · intro h
    rcases Nat.lt_or_ge i.toNat 256 with hi | hi
    · obtain ⟨b, rfl⟩ := exists_leafIdx_of_lt hi
      refine ⟨b, mem_keysOf.mpr fun hb => ?_, rfl⟩
      simp [nodeAt_leafPhase_leafIdx, hb] at h
    · simp [nodeAt_leafPhase_of_le freq hi] at h

theorem leafPhase_heapTotal (freq : Vector Count 256) :
    heapTotal (leafPhase freq).nodes (leafPhase freq).heap = sumCounts freq := by
  rw [heapTotal_perm _ (leafPhase_heap_perm freq), sumCounts_eq_sum_keys, heapTotal, List.map_map]
  refine congrArg List.sum (List.map_congr_left fun b hb => ?_)
  rw [Function.comp_apply, nodeAt_leafPhase_leafIdx, if_neg (mem_keysOf.mp hb)]
  exact BitVec.toNat_setWidth_of_le (by decide)

/-- The second loop begins with every key alone in its tree. -/
theorem mergeForest_leafPhase {freq : Vector Count 256} (hne : keysOf freq ≠ []) : MergeForest freq (leafPhase freq) where
  nonempty e := by simpa [e, hne] using leafPhase_heap_perm freq
  firstInternal := by simp [leafPhase_nxt]
  size := by simp [leafPhase_nxt, (leafPhase_heap_perm freq).length_eq]
  leaves := nodeAt_leafPhase_leafIdx freq
  internals i h h' := by simp [leafPhase_nxt] at h'; omega
  others i h := nodeAt_leafPhase_of_le freq (by simpa [leafPhase_nxt] using h)
  nodup := (leafPhase_heap_perm freq).nodup_iff.mpr ((keysOf_nodup freq).map fun _ _ => leafIdx_injective)
  present _ := mem_leafPhase_heap.mp
  roots _ _ p h := by simp [isChildOf, isInternal_leafPhase] at h
  oneParent _ h hi := absurd (mem_leafPhase_heap.mpr h) hi
  total := leafPhase_heapTotal freq

/-! ## One round -/

/-- NODE after a round that puts a new record over l and r. -/
def combined (t : Builder) (l r : NodeIdx) : Vector Node 511 :=
  setNode t.nodes t.nxt (.internal l r ((nodeAt t.nodes l).freq + (nodeAt t.nodes r).freq))

/-- A round of the merge takes two trees l and r from the heap and puts one new record over both: l is the lesser one, or the
second one taken. -/
theorem mergeStep_combines (t : Builder) (h : 1 < t.heap.length) :
    ∃ l r rest, t.heap.Perm (l :: r :: rest) ∧ (mergeStep t).heap.Perm (t.nxt :: rest) ∧
      (mergeStep t).nodes = combined t l r := by
  have px := heapExtractMin_perm t.nodes (h := t.heap) (by rintro e; simp [e] at h)
  have py := heapExtractMin_perm t.nodes (h := (heapExtractMin t.nodes t.heap).2)
    (by rintro e; have := heapExtractMin_length t.nodes t.heap; simp [e] at this; omega)
  have both := px.trans (py.cons _)
  have put := heapInsert_perm (mergeStep t).nodes
    (heapExtractMin t.nodes (heapExtractMin t.nodes t.heap).2).2 t.nxt
  by_cases less : compareTrees t.nodes (heapExtractMin t.nodes t.heap).1
      (heapExtractMin t.nodes (heapExtractMin t.nodes t.heap).2).1 = .lt
  · exact ⟨_, _, _, both, put, by simp [mergeStep, mergeNode, less, combined]⟩
  · exact ⟨_, _, _, both.trans (.swap ..), put, by simp [mergeStep, mergeNode, less, combined, BitVec.add_comm]⟩

section Round

variable {freq : Vector Count 256} {t : Builder} {l r : NodeIdx} {rest : List NodeIdx}

theorem MergeForest.nxt_lt (h : MergeForest freq t) (h1 : 1 < t.heap.length) : t.nxt.toNat < 511 := by
  have hn := keysOf_length_le freq
  have hs := h.size
  omega

theorem MergeForest.lt_nxt (h : MergeForest freq t) {i : NodeIdx} (hi : (nodeAt t.nodes i).nv = true) :
    i.toNat < t.nxt.toNat := by
  by_contra hc
  simp [h.others i (by omega)] at hi

/-- An Internal record is one of those that the rounds have made. -/
theorem MergeForest.of_isInternal (h : MergeForest freq t) {p : NodeIdx} (hp : (nodeAt t.nodes p).isInternal = true) :
    256 ≤ p.toNat ∧ p.toNat < t.nxt.toNat := by
  constructor
  · by_contra hc
    obtain ⟨b, rfl⟩ := exists_leafIdx_of_lt (i := p) (by omega)
    rw [h.leaves] at hp
    split at hp <;> simp at hp
  · by_contra hc
    simp [h.others p (by omega)] at hp

theorem MergeForest.of_isChildOf (h : MergeForest freq t) {i p : NodeIdx} (hc : isChildOf t.nodes i p) :
    (nodeAt t.nodes i).nv = true ∧ i.toNat < p.toNat ∧ p.toNat < t.nxt.toNat := by
  obtain ⟨hp, hi⟩ := hc
  obtain ⟨h1, h2⟩ := h.of_isInternal hp
  obtain ⟨l, r, f, e, -, hl, hr, pl, pr, -⟩ := h.internals p h1 h2
  rw [e] at hi
  rcases hi with rfl | rfl
  · exact ⟨pl, hl, h2⟩
  · exact ⟨pr, hr, h2⟩

theorem nodeAt_combined (h : MergeForest freq t) (h1 : 1 < t.heap.length) (i : NodeIdx) :
    nodeAt (combined t l r) i =
      if i = t.nxt then .internal l r ((nodeAt t.nodes l).freq + (nodeAt t.nodes r).freq) else nodeAt t.nodes i :=
  nodeAt_setNode _ _ _ _ fun e => by simpa [e, Config.null] using h.nxt_lt h1

theorem nodeAt_combined_of_nv (h : MergeForest freq t) (h1 : 1 < t.heap.length) {i : NodeIdx}
    (hi : (nodeAt t.nodes i).nv = true) : nodeAt (combined t l r) i = nodeAt t.nodes i := by
  rw [nodeAt_combined h h1, if_neg]
  rintro rfl
  exact absurd (h.lt_nxt hi) (Nat.lt_irrefl _)

/-- The new record is the parent of l and r, and every other record keeps its children. -/
theorem isChildOf_combined (h : MergeForest freq t) (h1 : 1 < t.heap.length) (i p : NodeIdx) :
    isChildOf (combined t l r) i p ↔ (p = t.nxt ∧ (l = i ∨ r = i)) ∨ isChildOf t.nodes i p := by
  unfold isChildOf
  rw [nodeAt_combined h h1]
  by_cases hp : p = t.nxt
  · simp [hp, h.others t.nxt (Nat.le_refl _), Node.left, Node.right]
  · simp [hp]

/-- The frequencies of the trees in the heap fit 40 bits together, so the sum of two of them is exact. -/
theorem MergeForest.toNat_freq_add (h : MergeForest freq t) (hp : t.heap.Perm (l :: r :: rest)) :
    ((nodeAt t.nodes l).freq + (nodeAt t.nodes r).freq).toNat =
      (nodeAt t.nodes l).freq.toNat + (nodeAt t.nodes r).freq.toNat := by
  have ht := h.total
  have hlt := sumCounts_lt freq
  rw [heapTotal_perm _ hp, heapTotal_cons, heapTotal_cons] at ht
  exact BitVec.toNat_add_of_lt (by omega)

theorem MergeForest.exactInternal_combined (h : MergeForest freq t) (hp : t.heap.Perm (l :: r :: rest))
    {i : NodeIdx} (hi : 256 ≤ i.toNat) (hin : i.toNat ≤ t.nxt.toNat) : ExactInternal (combined t l r) i := by
  have h1 : 1 < t.heap.length := by simp [hp.length_eq]
  by_cases hnew : i = t.nxt
  · have pl := h.present l (hp.mem_iff.mpr (by simp))
    have pr := h.present r (hp.mem_iff.mpr (by simp))
    have hne : l ≠ r := by
      have hd := hp.nodup_iff.mp h.nodup
      simp_all
    subst hnew
    refine ⟨l, r, _, by rw [nodeAt_combined h h1, if_pos rfl], hne, h.lt_nxt pl, h.lt_nxt pr, ?_⟩
    rw [nodeAt_combined_of_nv h h1 pl, nodeAt_combined_of_nv h h1 pr]
    exact ⟨pl, pr, h.toNat_freq_add hp⟩
  · have hlt : i.toNat < t.nxt.toNat := Nat.lt_of_le_of_ne hin fun e => hnew (BitVec.eq_of_toNat_eq e)
    obtain ⟨a, b, f, e, hne, ha, hb, pa, pb, hf⟩ := h.internals i hi hlt
    refine ⟨a, b, f, by rw [nodeAt_combined h h1, if_neg hnew, e], hne, ha, hb, ?_⟩
    rw [nodeAt_combined_of_nv h h1 pa, nodeAt_combined_of_nv h h1 pb]
    exact ⟨pa, pb, hf⟩

/-- The new record has no parent, and neither has a root that the round does not take. -/
theorem MergeForest.roots_combined (h : MergeForest freq t) (hp : t.heap.Perm (l :: r :: rest)) {x : NodeIdx}
    (hx : x ∈ t.nxt :: rest) (p : NodeIdx) : ¬ isChildOf (combined t l r) x p := by
  have h1 : 1 < t.heap.length := by simp [hp.length_eq]
  have hd := hp.nodup_iff.mp h.nodup
  rw [isChildOf_combined h h1]
  rcases List.mem_cons.mp hx with rfl | hx
  · have absent : ∀ i, (nodeAt t.nodes i).nv = true → i ≠ t.nxt := by
      rintro i hi rfl
      exact absurd (h.lt_nxt hi) (Nat.lt_irrefl _)
    rintro (⟨-, hlr⟩ | hold)
    · have pl := absent l (h.present l (hp.mem_iff.mpr (by simp)))
      have pr := absent r (h.present r (hp.mem_iff.mpr (by simp)))
      exact hlr.elim pl pr
    · exact absent _ (h.of_isChildOf hold).1 rfl
  · rintro (⟨-, rfl | rfl⟩ | hold)
    · simp_all
    · simp_all
    · exact h.roots x (hp.mem_iff.mpr (by simp [hx])) p hold

/-- A present record that is no root after the round: l or r, whose one parent is the new record, or an earlier non-root,
which keeps its one parent. -/
theorem MergeForest.oneParent_combined (h : MergeForest freq t) (hp : t.heap.Perm (l :: r :: rest)) {i : NodeIdx}
    (hi : (nodeAt (combined t l r) i).nv = true) (hroot : i ∉ t.nxt :: rest) :
    ∃! p, isChildOf (combined t l r) i p := by
  have h1 : 1 < t.heap.length := by simp [hp.length_eq]
  rw [List.mem_cons, not_or] at hroot
  obtain ⟨hnew, hrest⟩ := hroot
  rw [nodeAt_combined h h1, if_neg hnew] at hi
  by_cases hlr : l = i ∨ r = i
  · have noOld : ∀ p, ¬ isChildOf t.nodes i p := h.roots i (hp.mem_iff.mpr (by simp; tauto))
    refine ⟨t.nxt, (isChildOf_combined h h1 ..).mpr (.inl ⟨rfl, hlr⟩), fun p hc => ?_⟩
    exact ((isChildOf_combined h h1 ..).mp hc).elim (·.1) fun hold => absurd hold (noOld p)
  · have hout : i ∉ t.heap := fun hm => by
      have := hp.mem_iff.mp hm
      simp only [List.mem_cons] at this
      tauto
    simpa only [isChildOf_combined h h1, hlr, and_false, false_or] using h.oneParent i hi hout

theorem MergeForest.heapTotal_combined (h : MergeForest freq t) (hp : t.heap.Perm (l :: r :: rest)) :
    heapTotal (combined t l r) (t.nxt :: rest) = sumCounts freq := by
  have h1 : 1 < t.heap.length := by simp [hp.length_eq]
  have kept : heapTotal (combined t l r) rest = heapTotal t.nodes rest :=
    congrArg List.sum (List.map_congr_left fun x hx => by
      rw [nodeAt_combined_of_nv h h1 (h.present x (hp.mem_iff.mpr (by simp [hx])))])
  calc heapTotal (combined t l r) (t.nxt :: rest)
    _ = ((nodeAt t.nodes l).freq + (nodeAt t.nodes r).freq).toNat + heapTotal t.nodes rest := by
      rw [heapTotal_cons, kept, nodeAt_combined h h1, if_pos rfl]
      rfl
    _ = heapTotal t.nodes (l :: r :: rest) := by
      rw [h.toNat_freq_add hp, heapTotal_cons, heapTotal_cons, Nat.add_assoc]
    _ = sumCounts freq := by rw [← heapTotal_perm _ hp, h.total]

/-- A round keeps the forest. -/
theorem MergeForest.mergeStep (h : MergeForest freq t) (h1 : 1 < t.heap.length) : MergeForest freq (mergeStep t) := by
  obtain ⟨l, r, rest, hp, hheap, hnodes⟩ := mergeStep_combines t h1
  have hnxt : (Machine.mergeStep t).nxt.toNat = t.nxt.toNat + 1 := by
    have := h.nxt_lt h1
    exact BitVec.toNat_add_of_lt (by simp; omega)
  have absent := h.others t.nxt (Nat.le_refl _)
  have hd := hp.nodup_iff.mp h.nodup
  have hrest : ∀ x ∈ rest, x ∈ t.heap := fun x hx => hp.mem_iff.mpr (by simp [hx])
  exact {
    nonempty := fun e => by simp [e] at hheap
    firstInternal := by have := h.firstInternal; omega
    size := by
      have := h.size
      rw [hp.length_eq] at this
      rw [hnxt, hheap.length_eq, ← this]
      simp only [List.length_cons]
      omega
    leaves := fun b => by
      have hb : leafIdx b ≠ t.nxt := fun e => by
        have hlt := leafIdx_lt b
        have hge := h.firstInternal
        rw [e] at hlt
        omega
      rw [hnodes, nodeAt_combined h h1, if_neg hb, h.leaves]
    internals := fun i hi hin => by
      rw [hnodes]
      exact h.exactInternal_combined hp hi (by omega)
    others := fun i hi => by
      have hne : i ≠ t.nxt := by rintro rfl; omega
      rw [hnodes, nodeAt_combined h h1, if_neg hne, h.others i (by omega)]
    nodup := by
      refine hheap.nodup_iff.mpr (List.nodup_cons.mpr ⟨fun hm => ?_, by simp_all⟩)
      simpa [absent] using h.present _ (hrest _ hm)
    present := fun x hx => by
      rw [hnodes, nodeAt_combined h h1]
      split
      · rfl
      · exact h.present x (hrest x (by simpa [*] using hheap.mem_iff.mp hx))
    roots := fun x hx p hc => by
      rw [hnodes] at hc
      exact h.roots_combined hp (hheap.mem_iff.mp hx) p hc
    oneParent := fun i hi hroot => by
      rw [hnodes] at hi ⊢
      exact h.oneParent_combined hp hi (mt hheap.mem_iff.mpr hroot)
    total := by rw [hnodes, heapTotal_perm _ hheap, h.heapTotal_combined hp] }

end Round

/-! ## The whole loop -/

/-- What every round keeps, the loop keeps. -/
theorem mergeLoop_keeps {P : Builder → Prop} (round : ∀ t, P t → 1 < t.heap.length → P (mergeStep t)) (fuel : Nat)
    {t : Builder} (h : P t) : P (mergeLoop fuel t) := by
  induction fuel generalizing t with
  | zero => exact h
  | succ fuel ih =>
    unfold mergeLoop
    split
    · exact ih (round t h ‹_›)
    · exact h

/-- A forest of one tree is the merged tree of R36. Its root is the last record made, which could be a child of a later
record alone. -/
theorem MergeForest.mergedTree {freq : Vector Count 256} {t : Builder} {root : NodeIdx} (h : MergeForest freq t)
    (many : 2 ≤ (keysOf freq).length) (one : t.heap = [root]) :
    MergedTree freq t.nodes root (nodeAt t.nodes root).freq t.nxt := by
  have hsize : t.nxt.toNat = 255 + (keysOf freq).length := by
    have := h.size
    simp only [one, List.length_singleton] at this
    omega
  have hn := keysOf_length_le freq
  have rootIdx : root.toNat = 254 + (keysOf freq).length := by
    have hlast : (BitVec.ofNat 9 (254 + (keysOf freq).length)).toNat = 254 + (keysOf freq).length := by
      rw [BitVec.toNat_ofNat, Nat.mod_eq_of_lt (by omega)]
    obtain ⟨a, b, f, e, -⟩ := h.internals (BitVec.ofNat 9 (254 + (keysOf freq).length)) (by omega) (by omega)
    by_contra hne
    have hout : BitVec.ofNat 9 (254 + (keysOf freq).length) ∉ t.heap := by
      rw [one, List.mem_singleton]
      rintro rfl
      exact hne hlast
    obtain ⟨p, hc, -⟩ := h.oneParent _ (by rw [e]; rfl) hout
    obtain ⟨-, hlt, hlt'⟩ := h.of_isChildOf hc
    omega
  exact {
    leaves := h.leaves
    internals := fun i hi hi' => h.internals i hi (by omega)
    others := fun i hi => h.others i (by omega)
    rootIdx := rootIdx
    nxtIdx := hsize
    oneParent := fun i hi hr => h.oneParent i hi (by simpa [one] using hr)
    totalFreq := ⟨rfl, by simpa [one, heapTotal] using h.total⟩ }

theorem buildTree_of_two_le {freq : Vector Count 256} (many : 2 ≤ (keysOf freq).length) :
    buildTree freq = takeRoot (mergeLoop (keysOf freq).length (leafPhase freq)) := by
  match hk : keysOf freq with
  | [] | [_] => simp [hk] at many
  | b :: b' :: bs =>
    rw [buildTree_of_many hk, leafPhase, hk]
    rfl

theorem mergedTree_buildTree {freq : Vector Count 256} (many : 2 ≤ (keysOf freq).length) :
    MergedTree freq (buildTree freq).nodes (buildTree freq).root
      (nodeAt (buildTree freq).nodes (buildTree freq).root).freq (buildTree freq).nxt := by
  have hne : keysOf freq ≠ [] := by rintro e; simp [e] at many
  have forest := mergeLoop_keeps (P := MergeForest freq) (fun _ => .mergeStep) (keysOf freq).length
    (mergeForest_leafPhase hne)
  have short := mergeLoop_heap_length (keysOf freq).length (leafPhase freq) (by simp [(leafPhase_heap_perm freq).length_eq])
  obtain ⟨root, one⟩ := List.length_eq_one_iff.mp
    (Nat.le_antisymm short (List.length_pos_iff.mpr forest.nonempty))
  rw [buildTree_of_two_le many]
  simpa [takeRoot, one] using forest.mergedTree many one

/-! ## Every table -/

theorem treeWellFormed_of_nil {freq : Vector Count 256} (h : keysOf freq = []) {nodes : Vector Node 511}
    {root : NodeIdx} {total : Freq} {nxt : NodeIdx} :
    TreeWellFormed freq nodes root total nxt ↔ root = 0#9 ∧ total = 0#40 ∧ nxt = 256#9 ∧
      ∀ i : NodeIdx, nodeAt nodes i = if i = 0#9 then .leaf 0#8 0#40 else .absent := by
  simp only [TreeWellFormed, h]

theorem treeWellFormed_of_two_le {freq : Vector Count 256} (many : 2 ≤ (keysOf freq).length) {nodes : Vector Node 511}
    {root : NodeIdx} {total : Freq} {nxt : NodeIdx} :
    TreeWellFormed freq nodes root total nxt ↔ MergedTree freq nodes root total nxt := by
  match hk : keysOf freq with
  | [] | [_] => simp [hk] at many
  | b :: b' :: bs => simp only [TreeWellFormed, hk]

theorem nodeAt_buildSentinel (i : NodeIdx) :
    nodeAt buildSentinel.nodes i = if i = 0#9 then .leaf 0#8 0#40 else .absent := by
  simp [buildSentinel, nodeAt_setNode _ _ _ _ (show 0#9 ≠ Config.null by decide), emptyBuilder]

theorem nodeAt_buildOneLeaf (b : Byte) (n : Count) (i : NodeIdx) :
    nodeAt (buildOneLeaf b n).nodes i =
      if i = 256#9 then .internal 511#9 (leafIdx b) (n.setWidth 40)
      else if i = leafIdx b then .leaf b (n.setWidth 40) else .absent := by
  rw [buildOneLeaf, nodeAt_setNode _ _ _ _ (by decide), nodeAt_setNode _ _ _ _ (leafIdx_ne_null b), emptyBuilder,
    nodeAt_replicate]
  rfl

/-- The build leaves a well-formed tree of every table (10_state.md R36). -/
theorem treeWellFormed_buildTree (freq : Vector Count 256) :
    TreeWellFormed freq (buildTree freq).nodes (buildTree freq).root
      (nodeAt (buildTree freq).nodes (buildTree freq).root).freq (buildTree freq).nxt := by
  match hk : keysOf freq with
  | [] =>
    rw [buildTree_of_nil hk, treeWellFormed_of_nil hk, nodeAt_buildSentinel]
    exact ⟨rfl, rfl, rfl, nodeAt_buildSentinel⟩
  | [b] =>
    rw [buildTree_of_one hk, treeWellFormed_of_one hk, nodeAt_buildOneLeaf]
    exact ⟨rfl, rfl, rfl, nodeAt_buildOneLeaf b _⟩
  | b :: b' :: bs =>
    have many : 2 ≤ (keysOf freq).length := by simp [hk]
    exact (treeWellFormed_of_two_le many).mpr (mergedTree_buildTree many)

/-- Settles O36: the registers are the build's by definition, and the build's tree is well formed. -/
theorem htBuildLeavesTheWellFormedTree : Obligations.HtBuildLeavesTheWellFormedTree := by
  refine ⟨by decide, by decide, fun s hs => ?_⟩
  refine ⟨_, _, _, _, treeWellFormed_buildTree s.core.freq, ⟨rfl, rfl, rfl, rfl⟩, ?_⟩
  rw [exec_unfaulted hs, ← buildTree_heap s.core.freq]
  rfl

end Sys2Proof.Machine
end

section
/-! SUPPORT. The eight invariants of 10_state.md R35 hold after reset and every step keeps them: the code lengths come from
the indices, which fall along every path of a well-formed tree, and the cursor's path grows by the bit that a step reads. -/

namespace Sys2Proof.Machine

/-! ## The indices along a path, and the code lengths (43_code_table.md R202, R204) -/

/-- Internal records stand at 256 and above, and their children have lower indices, a NULL left child excepted. -/
def ChildrenBelow (nodes : Vector Node 511) : Prop :=
  ∀ (i l r : NodeIdx) (f : Freq), nodeAt nodes i = .internal l r f →
    256 ≤ i.toNat ∧ (l = Config.null ∨ l.toNat < i.toNat) ∧ r.toNat < i.toNat

theorem MergedTree.childrenBelow {freq : Vector Count 256} {nodes : Vector Node 511} {root nxt : NodeIdx} {total : Freq}
    (h : MergedTree freq nodes root total nxt) : ChildrenBelow nodes := by
  intro i l r f e
  have hi : 256 ≤ i.toNat := by
    by_contra hc
    obtain ⟨b, rfl⟩ := exists_leafIdx_of_lt (i := i) (by omega)
    rw [h.leaves] at e
    split at e <;> cases e
  have hi' : i.toNat < 255 + (keysOf freq).length := by
    by_contra hc
    rw [h.others i (by omega)] at e
    cases e
  obtain ⟨l', r', f', e', -, hl, hr, -⟩ := h.internals i hi hi'
  cases e.symm.trans e'
  exact ⟨hi, .inr hl, hr⟩

theorem TreeWellFormed.childrenBelow {freq : Vector Count 256} {nodes : Vector Node 511} {root nxt : NodeIdx}
    {total : Freq} (h : TreeWellFormed freq nodes root total nxt) : ChildrenBelow nodes := by
  match hk : keysOf freq with
  | [] =>
    obtain ⟨-, -, -, records⟩ := (treeWellFormed_of_nil hk).mp h
    intro i l r f e
    rw [records] at e
    split at e <;> cases e
  | [b] =>
    obtain ⟨-, -, -, records⟩ := (treeWellFormed_of_one hk).mp h
    intro i l r f e
    rw [records] at e
    split at e
    · subst i
      cases e
      have := leafIdx_lt b
      exact ⟨by decide, .inl rfl, by simpa⟩
    · split at e <;> cases e
  | b :: b' :: bs => exact ((treeWellFormed_of_two_le (by simp [hk])).mp h).childrenBelow

/-- The root is a record of the tree. -/
theorem TreeWellFormed.root_nv {freq : Vector Count 256} {nodes : Vector Node 511} {root nxt : NodeIdx} {total : Freq}
    (h : TreeWellFormed freq nodes root total nxt) : (nodeAt nodes root).nv = true := by
  match hk : keysOf freq with
  | [] =>
    obtain ⟨rfl, -, -, records⟩ := (treeWellFormed_of_nil hk).mp h
    rw [records, if_pos rfl, nv_leaf]
  | [b] =>
    obtain ⟨rfl, -, -, records⟩ := (treeWellFormed_of_one hk).mp h
    rw [records, if_pos rfl, nv_internal]
  | b :: b' :: bs =>
    have many : 2 ≤ (keysOf freq).length := by simp [hk]
    have merged := (treeWellFormed_of_two_le many).mp h
    have hr := merged.rootIdx
    obtain ⟨l, r, f, e, -⟩ := merged.internals root (by omega) (by omega)
    rw [e, nv_internal]

/-- An entry that Derive adds below i extends the path to i: by at least one bit when i is Internal, and by no more bits than
there are indices down to 255, since each step lowers the index. -/
theorem derive_length {nodes : Vector Node 511} (below : ChildrenBelow nodes) {fuel : Nat} {i : NodeIdx} {path s : Bits}
    {code : Vector (Option Bits) 256} {b : Byte} (h : codeAt (derive nodes fuel i path code) b = some s) :
    codeAt code b = some s ∨
      (path.length + (nodeAt nodes i).isInternal.toNat ≤ s.length ∧ s.length ≤ path.length + (i.toNat - 255)) := by
  induction fuel generalizing i path code with
  | zero => exact .inl h
  | succ fuel ih =>
    rw [derive] at h
    split at h
    next => exact .inl h
    next b' f e =>
      rw [codeAt_setCode] at h
      split at h
      · cases h
        simp [e]
      · exact .inl h
    next l r f e =>
      obtain ⟨hi, hl, hr⟩ := below i l r f e
      have lengthens : ∀ {j : NodeIdx} {bit : Bool}, j.toNat < i.toNat →
          (path ++ [bit]).length + (nodeAt nodes j).isInternal.toNat ≤ s.length ∧
            s.length ≤ (path ++ [bit]).length + (j.toNat - 255) →
          path.length + (nodeAt nodes i).isInternal.toNat ≤ s.length ∧ s.length ≤ path.length + (i.toNat - 255) := by
        intro j bit hj hs
        simp only [List.length_append, List.length_singleton] at hs
        simp only [e, isInternal_internal, Bool.toNat_true]
        omega
      rcases ih h with h | hs
      · split at h
        · exact .inl h
        · rcases ih h with h | hs
          · exact .inl h
          · exact .inr (lengthens (hl.resolve_left ‹_›) hs)
      · exact .inr (lengthens hr hs)

/-- A code has 1 to 255 bits, whatever the tree (43_code_table.md R204). -/
theorem deriveCodes_length {nodes : Vector Node 511} (below : ChildrenBelow nodes) {root : NodeIdx} {b : Byte} {s : Bits}
    (h : codeAt (deriveCodes nodes root) b = some s) : 1 ≤ s.length ∧ s.length ≤ 255 := by
  unfold deriveCodes at h
  split at h
  next internal =>
    rcases derive_length below h with h | ⟨h1, h2⟩
    · simp at h
    · have hlt := root.isLt
      simp only [internal, Bool.toNat_true, List.length_nil] at h1 h2
      have : root.toNat ≠ 511 := fun e => by
        rw [show root = Config.null from BitVec.eq_of_toNat_eq e] at internal
        simp at internal
      omega
  next => simp at h

/-! ## The cursor (45_decoder.md R232) -/

theorem followPath_append (nodes : Vector Node 511) (i : NodeIdx) (p q : Bits) :
    followPath nodes i (p ++ q) = (followPath nodes i p).bind fun j => followPath nodes j q := by
  induction p generalizing i with
  | nil => rfl
  | cons b p ih =>
    rw [List.cons_append, followPath, followPath]
    split
    next => rfl
    next => rfl
    next =>
      split
      next => exact ih _
      next =>
        split
        next => rfl
        next => exact ih _

/-- A bit step takes the cursor along one edge of the tree and arrives there. -/
theorem bitStep_follows {c c' : CoreState} {e : Option Byte} (h : bitStep c = .ok (c', e)) :
    ∃ bit j, followPath c.nodes c.cur [bit] = some j ∧ (c', e) = arrive { c with rp := c.rp + 1#32 } j := by
  unfold bitStep at h
  cases hn : nodeAt c.nodes c.cur with
  | absent | leaf => simp [hn, Node.isLeaf] at h
  | internal l r f =>
    simp only [hn, Node.isLeaf, isInternal_internal, Bool.not_true, Bool.false_eq_true, if_false, Node.left,
      Node.right] at h
    split at h
    · exact ⟨true, r, by simp [followPath, hn], (Except.ok.inj h).symm⟩
    · split at h
      · cases h
      · exact ⟨false, l, by simp [followPath, *], (Except.ok.inj h).symm⟩

/-! ## The invariants -/

/-- Settles O56: every memory is empty and every flag is 0. -/
theorem resetStateMeetsTheInvariants : Obligations.ResetStateMeetsTheInvariants where
  bounds := ⟨Nat.le_refl _, Nat.zero_le _⟩
  flags := ⟨nofun, nofun⟩
  tree := nofun
  codes := nofun
  cursor := nofun
  fault := ⟨fun _ => ⟨rfl, rfl⟩, nofun⟩
  codeLengths b := by simp [CoreState.cval, CoreState.clen, State.reset, CoreState.reset]
  heapEmpty := rfl

theorem Cause.code_ne_zero (f : Cause) : f.code ≠ 0#8 := by
  cases f <;> simp [Cause.code]

/-- Fault entry keeps the invariants: it writes the fault registers together (10_state.md R35 item 6). -/
theorem CoreState.Inv.takeFault {c : CoreState} (h : c.Inv) (f : Cause) : (takeFault f c).Inv :=
  { h with fault := ⟨nofun, fun _ => f.code_ne_zero⟩ }

/-- A bit step of an armed decoder keeps the invariants: RP stays within BLEN, and the cursor is at the root again or one
edge further along its path. -/
theorem CoreState.Inv.bitStep {c c' : CoreState} {e : Option Byte} (h : c.Inv) (dv : c.dv = true)
    (more : c.rp.toNat < c.blen) (moves : bitStep c = .ok (c', e)) : c'.Inv ∧ c'.rp.toNat = c.rp.toNat + 1 := by
  have hrp : (c.rp + 1#32).toNat = c.rp.toNat + 1 := by
    have := bcap_lt
    have := h.bounds.2
    exact BitVec.toNat_add_of_lt (by simp; omega)
  have hc' := bitStep_ok moves
  obtain ⟨bit, j, hj, arrives⟩ := bitStep_follows moves
  obtain ⟨-, -, path, hpath⟩ := h.cursor dv
  have wellFormed := (h.tree (h.flags.2 dv)).1
  have cursor : (nodeAt c.nodes c'.cur).nv = true ∧ ((nodeAt c.nodes c'.cur).isInternal = true ∨ c'.cur = c.root) ∧
      ∃ path, followPath c.nodes c.root path = some c'.cur := by
    cases leaf : (nodeAt c.nodes j).isLeaf with
    | true =>
      obtain ⟨rfl, -⟩ := Prod.mk.inj (arrives.trans (arrive_leaf leaf))
      exact ⟨wellFormed.root_nv, .inr rfl, [], rfl⟩
    | false =>
      obtain ⟨rfl, -⟩ := Prod.mk.inj (arrives.trans (arrive_internal leaf))
      have internal : (nodeAt c.nodes j).isInternal = true := by simpa [Node.isLeaf] using leaf
      exact ⟨by cases hn : nodeAt c.nodes j <;> simp_all, .inl internal,
        path ++ [bit], by rw [followPath_append, hpath]; exact hj⟩
  rw [hc']
  exact ⟨{ h with bounds := ⟨hrp.le.trans more, h.bounds.2⟩, cursor := fun _ => cursor }, hrp⟩

theorem CoreState.Inv.decRunLoop {n : Nat} {c : CoreState} (h : c.Inv) (dv : c.dv = true)
    (hn : c.rp.toNat + n ≤ c.blen) (out : List Byte) : (decRunLoop n c out).core.Inv := by
  induction n generalizing c out with
  | zero =>
    unfold Machine.decRunLoop
    split <;> exact h
  | succ n ih =>
    unfold Machine.decRunLoop
    split
    · exact h
    · rename_i c' e moves
      obtain ⟨h', hrp⟩ := h.bitStep dv (by omega) moves
      have same := bitStep_ok moves
      have hblen : c'.blen = c.blen := by rw [same]; rfl
      exact ih h' (by rw [same]; exact dv) (by omega) _

theorem CoreState.Inv.decRunBody {c : CoreState} (h : c.Inv) (dv : c.dv = true) : (decRunBody c).core.Inv := by
  have := h.bounds.1
  exact h.decRunLoop dv (by omega) []

theorem CoreState.Inv.raised {i : Instr} {c c' : CoreState} (h : c.Inv) (hr : Raised i c c') : c'.Inv := by
  cases hr with
  | unchanged => exact h
  | run dv => exact h.decRunBody dv

/-- Every effect keeps the invariants. -/
theorem CoreState.Inv.effect {i : Instr} {c c' : CoreState} (h : c.Inv) (he : Effect i c c') : c'.Inv := by
  cases he with
  | read | atEnd => exact h
  | reset => exact resetStateMeetsTheInvariants
  | clearBits => exact { h with bounds := ⟨Nat.le_refl _, Nat.zero_le _⟩, flags := ⟨h.flags.1, nofun⟩, cursor := nofun }
  | append bs _ fits =>
    have hlen : (c.bits ++ bs).length = c.blen + bs.length := List.length_append
    exact { h with bounds := ⟨h.bounds.1.trans (by simp [CoreState.blen]), hlen.trans_le fits⟩ }
  | count => exact { h with flags := ⟨nofun, nofun⟩, tree := nofun, codes := nofun, cursor := nofun }
  | build =>
    exact { h with
      flags := ⟨nofun, nofun⟩
      tree := fun _ => ⟨treeWellFormed_buildTree c.freq, rfl, rfl, rfl, rfl⟩
      codes := nofun
      cursor := nofun
      heapEmpty := congrArg List.length (buildTree_heap c.freq) }
  | generate tv =>
    have below := (h.tree tv).1.childrenBelow
    exact { h with
      flags := ⟨fun _ => tv, h.flags.2⟩
      codes := fun _ => rfl
      codeLengths := fun b => by
        unfold CoreState.cval CoreState.clen
        cases hs : codeAt (deriveCodes c.nodes c.root) b with
        | none => simp
        | some s => simpa using deriveCodes_length below hs }
  | arm tv =>
    exact { h with
      bounds := ⟨Nat.zero_le _, h.bounds.2⟩
      flags := ⟨h.flags.1, fun _ => tv⟩
      cursor := fun _ => ⟨(h.tree tv).1.root_nv, .inr rfl, [], rfl⟩ }
  | bit dv more moves => exact (h.bitStep dv more moves).1
  | run dv => exact h.decRunBody dv

theorem exec_inv {i : Instr} {s t : State} (h : s.core.Inv) (he : exec i s = .next t) : t.core.Inv := by
  rcases exec_core he with ⟨-, ht⟩ | he | ⟨-, f, c, hr, ht⟩
  · rwa [ht]
  · exact h.effect he
  · rw [ht]
    exact (h.raised hr).takeFault f

theorem runWord_inv {w : Word} {s t : State} (h : s.core.Inv) (he : runWord w s = .next t) : t.core.Inv := by
  unfold runWord at he
  split at he
  · exact exec_inv h he
  · rcases runGated_next he with ⟨-, rfl⟩ | ⟨-, rfl⟩
    · exact h
    · exact h.takeFault _

/-- Settles O57: a command keeps the invariants by its effect and by fault entry; the rst port leaves the reset state. -/
theorem everyStepKeepsTheInvariants : Obligations.EveryStepKeepsTheInvariants := by
  intro s t h he
  unfold step at he
  split at he
  next =>
    cases he
    exact h
  next rest _ => exact runWord_inv (s := { s with inputs := rest }) h he
  next =>
    cases he
    exact resetStateMeetsTheInvariants
  next =>
    split at he <;> cases he
    exact resetStateMeetsTheInvariants

end Sys2Proof.Machine
end

section
/-! SUPPORT. How a step runs a command word, and what a command answers as a function of the core alone: with it a
reading command repeats its response (20_memory.md R68). -/

namespace Sys2Proof.Machine

/-! ## A command word at the port (30_encoding.md R91, 60_exceptions.md R288) -/

theorem step_command {s : State} {w : Word} {rest : List HostInput} (h : s.inputs = .command w :: rest) :
    step s = runWord w { s with inputs := rest } := by
  simp only [step, h]

theorem runWord_decoded {w : Word} {i : Instr} (h : decode w = .ok i) (s : State) : runWord w s = exec i s := by
  simp only [runWord, h]

/-- Settles O7: the step gives the word to the core, and the core runs what the word decodes to. -/
theorem stepRunsTheDecodedCommand : Obligations.StepRunsTheDecodedCommand :=
  fun _ _ _ _ input decodes => (step_command input).trans (runWord_decoded decodes _)

/-! ## The answer of a command (30_encoding.md R92, R93) -/

/-- A command refused for its flag emits nothing, so still only DEC.BIT and DEC.RUN emit. -/
theorem withNeed_emitted {i : Instr} {c : CoreState} (h : (withNeed (needOf i) (bodyOf i) c).emitted ≠ []) :
    i = .decBit ∨ i = .decRun := by
  unfold withNeed at h
  split at h
  · exact bodyOf_emitted h
  · split at h
    · exact bodyOf_emitted h
    · exact absurd rfl h

/-- What a command answers is fixed by the core it finds: the core it leaves, the bytes that DEC.BIT and DEC.RUN alone
emit, and one response. -/
theorem exec_answers_by_core (i : Instr) (c : CoreState) : ∃ c' emitted resp,
    (emitted ≠ [] → i = .decBit ∨ i = .decRun) ∧ ∀ s : State, s.core = c →
      exec i s = .next { s with core := c', trace := s.trace ++ (emitted.map .byteOut ++ [.response resp]) } := by
  cases hi : runsFaulted i with
  | true =>
    refine ⟨(bodyOf i c).finalCore, (bodyOf i c).emitted, (bodyOf i c).responseWord, bodyOf_emitted, ?_⟩
    rintro s rfl
    rw [exec_eq, if_pos hi]
    rfl
  | false =>
    cases hf : c.flt with
    | true =>
      refine ⟨c, [], refusedWord, absurd rfl, ?_⟩
      rintro s rfl
      rw [exec_eq, hi, if_neg Bool.false_ne_true, runGated_faulted _ _ hf]
      rfl
    | false =>
      let r := withNeed (needOf i) (bodyOf i) c
      refine ⟨r.finalCore, r.emitted, r.responseWord, withNeed_emitted, ?_⟩
      rintro s rfl
      rw [exec_unfaulted hf]
      rfl

/-! ## The reading commands (20_memory.md R68) -/

/-- The effect of a reading command is none. -/
theorem Effect.eq_of_onlyReads {i : Instr} {c c' : CoreState} (h : Effect i c c') (reads : onlyReads i = true) :
    c' = c := by
  cases h with
  | read => rfl
  | append _ appends => obtain ⟨n, v, rfl⟩ | ⟨b, rfl⟩ := appends <;> cases reads
  | count _ counts => obtain rfl | ⟨b, rfl⟩ | ⟨b, n, rfl⟩ := counts <;> cases reads
  | _ => cases reads

/-- A reading command that raises no fault leaves the core as it was, faulted or not. -/
theorem exec_core_of_onlyReads {i : Instr} {s t : State} (reads : onlyReads i = true) (h : exec i s = .next t)
    (noFault : t.core.flt = s.core.flt) : t.core = s.core := by
  rcases exec_core h with ⟨-, same⟩ | effect | ⟨unfaulted, f, c, -, faults⟩
  · exact same
  · exact effect.eq_of_onlyReads reads
  · rw [faults, takeFault_flt, unfaulted] at noFault
    cases noFault

/-- Settles O17: the core is unchanged, and the answer is fixed by the core, so the same command answers the same. -/
theorem readsChangeNothingAndRepeat : Obligations.ReadsChangeNothingAndRepeat := by
  intro i s t reads h noFault
  have same := exec_core_of_onlyReads reads h noFault
  obtain ⟨c', emitted, resp, emits, answers⟩ := exec_answers_by_core i s.core
  obtain rfl : emitted = [] := by
    by_contra nonempty
    obtain rfl | rfl := emits nonempty <;> cases reads
  obtain rfl := Host.Outcome.next.inj (h.symm.trans (answers s rfl))
  obtain rfl : c' = s.core := same
  exact ⟨rfl, resp, rfl, answers _ rfl⟩

end Sys2Proof.Machine
end

section
/-! SUPPORT. What the decoder makes of a word (30_encoding.md R105), said once: a word decodes to a command exactly when the
command is well formed and the word is its encoding. That decoding and encoding are inverse is read off it, and that the
reserved words are illegal (R100). -/

namespace Sys2Proof

/-! ## The operand fields (R94, R95, R99) -/

/-- The operand fields that the format does not use are 0; with rsv = 0 this is `fieldsClear`. -/
def Format.admits (f : Format) (a : Byte) (imm : Imm) : Prop :=
  match f with
  | .z => a = 0#8 ∧ imm = 0#32
  | .a => imm = 0#32
  | .i => a = 0#8
  | .ai => True

theorem fieldsClear_iff (f : Format) (w : Word) :
    fieldsClear f w = true ↔ rsvField w = 0#16 ∧ f.admits (aField w) (immField w) := by
  cases f <;> simp [fieldsClear, Format.admits]

theorem eq_commandWord_iff {w : Word} {op : BitVec 8} {a : Byte} {imm : Imm} :
    w = commandWord op a imm ↔ rsvField w = 0#16 ∧ opField w = op ∧ aField w = a ∧ immField w = imm := by
  constructor
  · rintro rfl
    simp
  · rintro ⟨clear, rfl, rfl, rfl⟩
    exact (commandWord_of_fields clear).symm

theorem Csr.ofNumber_eq_some_iff {a : Byte} {r : Csr} : Csr.ofNumber a = some r ↔ a = r.number := by
  constructor
  · intro h
    unfold Csr.ofNumber at h
    split at h <;> cases h <;> exact BitVec.eq_of_toNat_eq ‹_›
  · rintro rfl
    cases r <;> rfl

theorem nodeOperand_eq_some_iff {imm : Imm} {i : NodeIdx} : nodeOperand imm = some i ↔ imm = i.setWidth 32 := by
  unfold nodeOperand
  split
  · rw [Option.some_inj]
    bv_omega
  · simp only [reduceCtorEq, false_iff]
    bv_omega

theorem chunkOperand_eq_some_iff {imm : Imm} {k : BitVec 3} : chunkOperand imm = some k ↔ imm = k.setWidth 32 := by
  unfold chunkOperand
  split
  · rw [Option.some_inj]
    bv_omega
  · simp only [reduceCtorEq, false_iff]
    bv_omega

/-! ## The opcode map (R98) -/

/-- The map has a row for the opcode, and the row makes the command i of these operands. -/
def RowMakes (op : BitVec 8) (a : Byte) (imm : Imm) (i : Instr) : Prop :=
  ∃ row, opRow op = some row ∧ row.fmt.admits a imm ∧ row.build a imm = some i

theorem rowMakes_iff {op : BitVec 8} {row : OpRow} (hrow : opRow op = some row) (a : Byte) (imm : Imm) (i : Instr) :
    RowMakes op a imm i ↔ row.fmt.admits a imm ∧ row.build a imm = some i := by
  simp [RowMakes, hrow]

/-- Every row makes commands of its own opcode only. -/
theorem RowMakes.opcode_eq {op : BitVec 8} {a : Byte} {imm : Imm} {i : Instr} (h : RowMakes op a imm i) :
    i.opcode = op := by
  obtain ⟨row, hrow, -, made⟩ := h
  rw [← BitVec.toNat_inj]
  revert i
  unfold opRow at hrow
  split at hrow <;> cases hrow <;> simp [Instr.opcode, *]

/-- The row of a command's opcode makes the command of its own operands only, when they keep the constraint of R99. -/
theorem rowMakes_opcode_iff (i : Instr) (a : Byte) (imm : Imm) :
    RowMakes i.opcode a imm i ↔ i.wellFormed = true ∧ a = i.aOperand ∧ imm = i.immOperand := by
  cases i with
  | bbApp n v =>
    rw [rowMakes_iff rfl]
    simpa [Format.admits, Instr.wellFormed, Instr.aOperand, Instr.immOperand] using by rintro rfl rfl; rfl
  | bbGetw n idx =>
    rw [rowMakes_iff rfl]
    simpa [Format.admits, Instr.wellFormed, Instr.aOperand, Instr.immOperand] using by rintro rfl; simp
  | _ =>
    rw [rowMakes_iff rfl]
    simp [Format.admits, Instr.wellFormed, Instr.aOperand, Instr.immOperand, Csr.ofNumber_eq_some_iff,
      nodeOperand_eq_some_iff, chunkOperand_eq_some_iff, and_comm]

/-- The opcodes that the map lists. -/
def opcodes : List Nat :=
  [0x00, 0x01, 0x02, 0x10, 0x11, 0x12, 0x13, 0x20, 0x21, 0x22, 0x23, 0x30, 0x31, 0x32, 0x40, 0x41, 0x42, 0x50, 0x60, 0x61,
    0x62]

theorem mem_opcodes_of_opRow {op : BitVec 8} {row : OpRow} (h : opRow op = some row) : op.toNat ∈ opcodes := by
  unfold opRow at h
  split at h <;> simp_all [opcodes]

/-! ## The decoder (R105) -/

theorem decode_eq_ok_iff_rowMakes {w : Word} {i : Instr} :
    decode w = .ok i ↔ rsvField w = 0#16 ∧ RowMakes (opField w) (aField w) (immField w) i := by
  unfold decode
  cases hrow : opRow (opField w) with
  | none => simp [RowMakes, hrow]
  | some row =>
    rw [rowMakes_iff hrow, ← and_assoc, ← fieldsClear_iff]
    dsimp only
    split
    · cases row.build (aField w) (immField w) <;> simp [*]
    · simp [*]

/-- A word decodes to a command exactly when the command is well formed and the word is its encoding. -/
theorem decode_eq_ok_iff {w : Word} {i : Instr} : decode w = .ok i ↔ i.wellFormed = true ∧ encode i = w := by
  rw [decode_eq_ok_iff_rowMakes, eq_comm (a := encode i), encode, eq_commandWord_iff]
  constructor
  · rintro ⟨clear, made⟩
    have op := made.opcode_eq
    rw [← op, rowMakes_opcode_iff] at made
    obtain ⟨wf, operands⟩ := made
    exact ⟨wf, clear, op.symm, operands⟩
  · rintro ⟨wf, clear, op, operands⟩
    rw [op, rowMakes_opcode_iff]
    exact ⟨clear, wf, operands⟩

/-- Settles O2: the encoding of a well-formed command is a word that decodes to it. -/
theorem decodeOfEncodeIsTheCommand : Obligations.DecodeOfEncodeIsTheCommand :=
  fun _ wf => decode_eq_ok_iff.mpr ⟨wf, rfl⟩

/-- Settles O3: no other word decodes to a command, and no command that is not well formed is decoded. -/
theorem decodedWordIsTheEncoding : Obligations.DecodedWordIsTheEncoding :=
  fun _ _ => decode_eq_ok_iff.mp

/-- Settles O5: a word that decodes has rsv = 0, and an opcode that the map does not list has no row. -/
theorem reservedOpcodesAndFieldsAreIllegal : Obligations.ReservedOpcodesAndFieldsAreIllegal := by
  constructor
  · intro w rsv
    cases hd : decode w with
    | error e => exact ⟨e, rfl⟩
    | ok i => exact absurd (decode_eq_ok_iff_rowMakes.mp hd).1 rsv
  · intro w reserved
    have noRow : opRow (opField w) = none :=
      Option.eq_none_iff_forall_ne_some.mpr fun _ h => reserved (mem_opcodes_of_opRow h)
    simp only [decode, noRow]

end Sys2Proof
end

section
/-! SUPPORT. The mask-and-match table (30_encoding.md R105). A row covers every bit of the word but the low bits of a and of
imm that its operands may set, so it matches the legal words of its own opcode; the opcodes of the rows are distinct. -/

namespace Sys2Proof

/-! ## Masks, field by field -/

theorem extractLsb'_and_not {k start len : Nat} (h : start + len ≤ k) (x y : BitVec k) :
    (x &&& ~~~y).extractLsb' start len = x.extractLsb' start len &&& ~~~(y.extractLsb' start len) := by
  ext i hi
  simp [show start + i < k by omega]

theorem opField_and_not (w m : Word) : opField (w &&& ~~~m) = opField w &&& ~~~opField m :=
  extractLsb'_and_not (by decide) w m

theorem aField_and_not (w m : Word) : aField (w &&& ~~~m) = aField w &&& ~~~aField m :=
  extractLsb'_and_not (by decide) w m

theorem rsvField_and_not (w m : Word) : rsvField (w &&& ~~~m) = rsvField w &&& ~~~rsvField m :=
  extractLsb'_and_not (by decide) w m

theorem immField_and_not (w m : Word) : immField (w &&& ~~~m) = immField w &&& ~~~immField m :=
  extractLsb'_and_not (by decide) w m

theorem and_allOnes_shiftLeft_eq_zero_iff {k : Nat} (x : BitVec k) (n : Nat) :
    x &&& (BitVec.allOnes k <<< n) = 0#k ↔ x.toNat < 2 ^ n := by
  have fits : x.toNat / 2 ^ n * 2 ^ n < 2 ^ k := (Nat.div_mul_le_self ..).trans_lt x.isLt
  rw [← BitVec.shiftLeft_ushiftRight, ← BitVec.toNat_inj]
  simp [Nat.shiftRight_eq_div_pow, Nat.shiftLeft_eq, Nat.mod_eq_of_lt fits]

/-- The mask that leaves free the low na bits of a and the low ni bits of imm, and covers every other bit. -/
def freeMask (na ni : Nat) : Word :=
  ~~~commandWord 0#8 (~~~(BitVec.allOnes 8 <<< na)) (~~~(BitVec.allOnes 32 <<< ni))

theorem and_freeMask_eq_iff {w : Word} {op : BitVec 8} {na ni : Nat} :
    w &&& freeMask na ni = commandWord op 0#8 0#32 ↔
      rsvField w = 0#16 ∧ opField w = op ∧ (aField w).toNat < 2 ^ na ∧ (immField w).toNat < 2 ^ ni := by
  rw [eq_commandWord_iff, freeMask, opField_and_not, aField_and_not, rsvField_and_not, immField_and_not]
  simp only [rsvField_commandWord, opField_commandWord, aField_commandWord, immField_commandWord, BitVec.not_not,
    BitVec.not_zero, BitVec.and_allOnes, and_allOnes_shiftLeft_eq_zero_iff]

/-! ## Which operands there are (R99) -/

theorem Csr.isSome_ofNumber (a : Byte) : (Csr.ofNumber a).isSome = decide (a.toNat ≤ 10) := by
  unfold Csr.ofNumber
  split
  case h_12 =>
    simp only [imp_false] at *
    simp only [Option.isSome_none, Bool.false_eq, decide_eq_false_iff_not]
    omega
  all_goals simp [*]

theorem isSome_nodeOperand (imm : Imm) : (nodeOperand imm).isSome = decide (imm.toNat < 2 ^ 9) := by
  unfold nodeOperand
  split <;> simp <;> omega

theorem isSome_chunkOperand (imm : Imm) : (chunkOperand imm).isSome = decide (imm.toNat < 2 ^ 3) := by
  unfold chunkOperand
  split <;> simp <;> omega

theorem exists_decode_eq_ok_iff {w : Word} {row : OpRow} (hrow : opRow (opField w) = some row) :
    (∃ i, decode w = .ok i) ↔ rsvField w = 0#16 ∧ row.fmt.admits (aField w) (immField w) ∧
      (row.build (aField w) (immField w)).isSome = true := by
  simp [decode_eq_ok_iff_rowMakes, rowMakes_iff hrow, Option.isSome_iff_exists]

/-! ## The rows -/

/-- The opcode that a row compares with. -/
def MaskRow.opcode (r : MaskRow) : BitVec 8 := opField r.pattern

/-- The row matches the legal words of its opcode, and no other. -/
def MaskRow.Agrees (r : MaskRow) : Prop := ∀ w, r.matches w = true ↔ opField w = r.opcode ∧ ∃ i, decode w = .ok i

/-- A row agrees with the decoder when its free bits and its constraint allow the operands that the opcode map allows. -/
theorem agrees_of_opRow {r : MaskRow} {row : OpRow} (na ni : Nat) (mask : r.mask = freeMask na ni)
    (pattern : r.pattern = commandWord r.opcode 0#8 0#32) (hrow : opRow r.opcode = some row)
    (same : ∀ w, ((aField w).toNat < 2 ^ na ∧ (immField w).toNat < 2 ^ ni) ∧ r.constraint w = true ↔
      row.fmt.admits (aField w) (immField w) ∧ (row.build (aField w) (immField w)).isSome = true) : r.Agrees := by
  intro w
  rw [MaskRow.matches, Bool.and_eq_true, decide_eq_true_iff, mask, pattern, and_freeMask_eq_iff, and_assoc, and_assoc, same,
    and_left_comm]
  exact and_congr_right fun op => (exists_decode_eq_ok_iff (op ▸ hrow)).symm

/-- Every row of the table agrees with the decoder; the two numbers of a row are the free bits of a and of imm. -/
theorem maskTable_agrees : ∀ r ∈ maskTable, r.Agrees := by
  have a_lt (w : Word) : (aField w).toNat < 256 := BitVec.isLt _
  have imm_lt (w : Word) : (immField w).toNat < 4294967296 := BitVec.isLt _
  simp only [maskTable, List.cons_append, List.nil_append, List.forall_mem_cons]
  refine ⟨agrees_of_opRow 0 0 rfl rfl rfl ?nop, agrees_of_opRow 8 0 rfl rfl rfl ?sysRd,
    agrees_of_opRow 0 0 rfl rfl rfl ?sysReset, agrees_of_opRow 0 0 rfl rfl rfl ?bbClr,
    agrees_of_opRow 8 32 rfl rfl rfl ?bbApp, agrees_of_opRow 0 32 rfl rfl rfl ?bbGet,
    agrees_of_opRow 8 32 rfl rfl rfl ?bbGetw, agrees_of_opRow 0 0 rfl rfl rfl ?ftClr,
    agrees_of_opRow 8 0 rfl rfl rfl ?ftCnt, agrees_of_opRow 8 32 rfl rfl rfl ?ftLd,
    agrees_of_opRow 8 0 rfl rfl rfl ?ftRd, agrees_of_opRow 0 0 rfl rfl rfl ?htBuild,
    agrees_of_opRow 0 9 rfl rfl rfl ?htNode, agrees_of_opRow 0 9 rfl rfl rfl ?htNfreq,
    agrees_of_opRow 0 0 rfl rfl rfl ?ctGen, agrees_of_opRow 8 0 rfl rfl rfl ?ctLen,
    agrees_of_opRow 8 3 rfl rfl rfl ?ctBits, agrees_of_opRow 8 0 rfl rfl rfl ?enc,
    agrees_of_opRow 0 0 rfl rfl rfl ?decRst, agrees_of_opRow 0 0 rfl rfl rfl ?decBit,
    agrees_of_opRow 0 0 rfl rfl rfl ?decRun, List.forall_mem_nil _⟩
  all_goals
    intro w
    simp [Format.admits, ← BitVec.toNat_inj, Csr.isSome_ofNumber, isSome_nodeOperand, isSome_chunkOperand, a_lt, imm_lt,
      and_comm]

theorem maskTable_opcodes : maskTable.map (·.opcode.toNat) = opcodes := by decide

theorem exists_maskRow_of_opRow {op : BitVec 8} {row : OpRow} (hrow : opRow op = some row) :
    ∃ r ∈ maskTable, op = r.opcode := by
  have listed := mem_opcodes_of_opRow hrow
  rw [← maskTable_opcodes, List.mem_map] at listed
  obtain ⟨r, hr, op⟩ := listed
  exact ⟨r, hr, BitVec.eq_of_toNat_eq op.symm⟩

theorem countP_matches_le_one (w : Word) : maskTable.countP (·.matches w) ≤ 1 := by
  have distinct : opcodes.Nodup := by decide
  calc maskTable.countP (·.matches w)
    _ ≤ maskTable.countP ((· == (opField w).toNat) ∘ (·.opcode.toNat)) :=
      List.countP_mono_left fun r hr hm => by simp [((maskTable_agrees r hr w).mp hm).1]
    _ = opcodes.count (opField w).toNat := by rw [← List.countP_map, maskTable_opcodes, List.count]
    _ ≤ 1 := List.nodup_iff_count_le_one.mp distinct _

/-- Settles O4: the row of a word's opcode matches it exactly when the word decodes, and no other row does. -/
theorem legalExactlyWhenOneTableRowMatches : Obligations.LegalExactlyWhenOneTableRowMatches := by
  intro w
  refine ⟨⟨?_, ?_⟩, List.countP_eq_length_filter.symm.trans_le (countP_matches_le_one w)⟩
  · rintro ⟨i, decodes⟩
    obtain ⟨-, row, hrow, -⟩ := decode_eq_ok_iff_rowMakes.mp decodes
    obtain ⟨r, hr, op⟩ := exists_maskRow_of_opRow hrow
    exact ⟨r, hr, (maskTable_agrees r hr w).mpr ⟨op, i, decodes⟩⟩
  · rintro ⟨r, hr, hm⟩
    exact ((maskTable_agrees r hr w).mp hm).2

end Sys2Proof
end

section
/-! SUPPORT. The form of a response (30_encoding.md R96, R97), and that every command answers one. -/

namespace Sys2Proof.Machine

/-- The statuses: OK, the codes of the seven faults, Refused (R97). -/
def statuses : List Nat := [0x00, 0x01, 0x02, 0x03, 0x04, 0x05, 0x06, 0x07, 0xFF]

/-- Bits 55:40 of the word are 0 and its status is one of R97's. -/
def IsResponse (w : Word) : Prop := w.extractLsb' 40 16 = 0#16 ∧ (w.extractLsb' 56 8).toNat ∈ statuses

theorem isResponse_responseWord {st : Status} (h : st.toNat ∈ statuses) (d : Data) : IsResponse (responseWord st d) :=
  ⟨reserved_responseWord st d, by rwa [status_responseWord]⟩

theorem Cause.code_mem_statuses (f : Cause) : f.code.toNat ∈ statuses := by
  cases f <;> simp [Cause.code, statuses]

theorem isResponse_refusedWord : IsResponse refusedWord := isResponse_responseWord (by decide) _

theorem CmdResult.isResponse (r : CmdResult) : IsResponse r.responseWord := by
  unfold CmdResult.responseWord
  split
  · exact isResponse_responseWord (by decide) _
  · exact isResponse_responseWord (Cause.code_mem_statuses _) _

/-- Settles O11: a command ends with the transfers of its result, its bytes and then its response, or it is refused with a
response alone. -/
theorem oneResponseForEveryCommand : Obligations.OneResponseForEveryCommand := by
  intro i s
  obtain ⟨t, h⟩ := exec_answers_next i s
  rcases exec_next h with ⟨-, rfl⟩ | ⟨-, -, rfl⟩ | ⟨-, -, rfl⟩
  · exact ⟨_, _, _, h, rfl, (List.append_assoc ..).symm, bodyOf_emitted, CmdResult.isResponse _⟩
  · exact ⟨_, [], _, h, rfl, by simp, absurd rfl, isResponse_refusedWord⟩
  · exact ⟨_, _, _, h, rfl, (List.append_assoc ..).symm, withNeed_emitted, CmdResult.isResponse _⟩

end Sys2Proof.Machine
end

section
/-! SUPPORT. The commands of the bit buffer (40_bit_buffer.md R122 to R125), one rule per way that each can end, and the
Bit Sequence read back after an append (R120, R126). -/

namespace Sys2Proof.Machine

/-! ## How a command of an unfaulted core ends -/

section Ends

variable {i : Instr} {s : State}

/-- A command whose checks and body respond completes. -/
theorem exec_of_respond {c : CoreState} {d : Data} (unfaulted : s.unfaulted)
    (h : withNeed (needOf i) (bodyOf i) s.core = respond c d) : exec i s = .next (s.okNext c d) := by
  rw [exec_unfaulted unfaulted, h, commit_respond]

/-- A command whose checks or body raise on the core as it was takes the fault. -/
theorem exec_of_raise {f : Cause} (unfaulted : s.unfaulted)
    (h : withNeed (needOf i) (bodyOf i) s.core = raise f s.core) :
    exec i s = .next (s.faultNext f.code f.info) := by
  rw [exec_unfaulted unfaulted, h, commit_raise]

end Ends

/-! ## The four commands -/

section Commands

variable {s : State} {n : Byte} {v : Imm} {idx : BitIdx}

theorem exec_bbClr (unfaulted : s.unfaulted) :
    exec .bbClr s = .next (s.okNext { s.core with bits := [], rp := 0#32, dv := false } 0#40) :=
  exec_of_respond unfaulted rfl

theorem exec_bbApp_fits (unfaulted : s.unfaulted) (fits : s.core.blen + n.toNat ≤ Config.bcap) :
    exec (.bbApp n v) s = .next (s.okNext { s.core with bits := s.core.bits ++ unpack n.toNat v.toNat }
      (BitVec.ofNat 40 (s.core.blen + n.toNat))) := by
  rw [← unpack_length n.toNat v.toNat] at fits
  simpa using exec_of_respond (i := .bbApp n v) unfaulted (appendAndRespond_fits fits)

theorem exec_bbApp_overflows (unfaulted : s.unfaulted) (past : Config.bcap < s.core.blen + n.toNat) :
    exec (.bbApp n v) s = .next (s.faultNext 0x05#8 (n.setWidth 40)) := by
  rw [← unpack_length n.toNat v.toNat] at past
  simpa [Cause.code, Cause.info, zext40] using
    exec_of_raise (i := .bbApp n v) unfaulted (appendAndRespond_overflows past)

theorem exec_bbGet_below (unfaulted : s.unfaulted) (below : idx.toNat < s.core.blen) :
    exec (.bbGet idx) s = .next (s.okNext s.core (dataOfNat (s.core.bitAt idx.toNat).toNat)) :=
  exec_of_respond unfaulted (if_neg below.not_ge)

theorem exec_bbGet_outside (unfaulted : s.unfaulted) (outside : s.core.blen ≤ idx.toNat) :
    exec (.bbGet idx) s = .next (s.faultNext 0x04#8 (idx.setWidth 40)) :=
  exec_of_raise (f := .indexRange idx) unfaulted (if_pos outside)

theorem exec_bbGetw_within (unfaulted : s.unfaulted) (within : idx.toNat + n.toNat ≤ s.core.blen) :
    exec (.bbGetw n idx) s = .next (s.okNext s.core (dataOfNat (pack (memRead s.core idx.toNat n.toNat)))) :=
  exec_of_respond unfaulted (if_neg within.not_gt)

theorem exec_bbGetw_outside (unfaulted : s.unfaulted) (outside : s.core.blen < idx.toNat + n.toNat) :
    exec (.bbGetw n idx) s = .next (s.faultNext 0x04#8 (idx.setWidth 40)) :=
  exec_of_raise (f := .indexRange idx) unfaulted (if_pos outside)

end Commands

/-- A bit widened to the data field is the data word 1 or 0. -/
theorem dataOfNat_toNat (b : Bool) : dataOfNat b.toNat = if b then 1#40 else 0#40 := by cases b <;> rfl

theorem bitAt_of_lt {c : CoreState} {i : Nat} (h : i < c.bits.length) : c.bitAt i = c.bits[i] := by
  simp [CoreState.bitAt, h]

theorem decode_encode_iff (i : Instr) : decode (encode i) = .ok i ↔ i.wellFormed = true :=
  decode_eq_ok_iff.trans (and_iff_left rfl)

/-- Settles O21: the body of BB.CLR needs no flag and always responds. -/
theorem bbClrEmptiesTheBuffer : Obligations.BbClrEmptiesTheBuffer :=
  ⟨rfl, (decode_encode_iff .bbClr).mpr rfl, fun _ => exec_bbClr⟩

/-- Settles O22: the append primitive adds the string that fits, and raises otherwise. -/
theorem bbAppAppendsAllOrNothing : Obligations.BbAppAppendsAllOrNothing := by
  refine ⟨fun _ _ => rfl, fun n v => ?_, fun s n v unfaulted _ _ =>
    ⟨exec_bbApp_fits unfaulted, exec_bbApp_overflows unfaulted⟩⟩
  refine Iff.trans ?_ (decode_encode_iff (.bbApp n v)).symm
  simp [Instr.wellFormed]

/-- Settles O23: below BLEN the cell read is an element of the list, and at BLEN the check raises. -/
theorem bbGetReadsOneBit : Obligations.BbGetReadsOneBit := by
  refine ⟨fun idx => ⟨rfl, (decode_encode_iff (.bbGet idx)).mpr rfl⟩, fun s idx unfaulted =>
    ⟨fun below => ?_, exec_bbGet_outside unfaulted⟩⟩
  rw [exec_bbGet_below unfaulted below, bitAt_of_lt below, dataOfNat_toNat]

/-- Settles O24: the range check compares the sum of natural numbers, and what passes it is packed. -/
theorem bbGetwReadsPackedBits : Obligations.BbGetwReadsPackedBits := by
  refine ⟨fun _ _ => rfl, fun n idx => ?_, fun s n idx unfaulted _ =>
    ⟨exec_bbGetw_within unfaulted, exec_bbGetw_outside unfaulted⟩⟩
  refine Iff.trans ?_ (decode_encode_iff (.bbGetw n idx)).symm
  simp [Instr.wellFormed]

/-! ## Reading back after an append -/

section Appended

variable {c c' : CoreState} {bs : Bits}

/-- A read within the old bits does not see the string appended. -/
theorem memRead_appended_old (appended : c'.bits = c.bits ++ bs) {i n : Nat} (within : i + n ≤ c.blen) :
    memRead c' i n = memRead c i n := by
  have old : n ≤ (c.bits.drop i).length := by
    rw [List.length_drop]
    exact Nat.le_sub_of_add_le' within
  rw [memRead, appended, List.drop_append_of_le_length (Nat.le_of_add_right_le within),
    List.take_append_of_le_length old, memRead]

/-- A read of the length of the string appended, at the old BLEN, gives it back. -/
theorem memRead_appended_new (appended : c'.bits = c.bits ++ bs) : memRead c' c.blen bs.length = bs := by
  rw [memRead, appended, CoreState.blen, List.drop_left, List.take_length]

theorem blen_appended (appended : c'.bits = c.bits ++ bs) : c'.blen = c.blen + bs.length := by
  rw [CoreState.blen, appended, List.length_append, CoreState.blen]

end Appended

/-- Settles O25: the append puts its string behind the old bits, so a read at the old BLEN is that string, packed, and a
read of old bits is as before. -/
theorem appendedBitsReadBack : Obligations.AppendedBitsReadBack := by
  intro s t n v unfaulted _ hv fits happ
  obtain ⟨still, appended⟩ : t.unfaulted ∧ t.core.bits = s.core.bits ++ unpack n.toNat v.toNat := by
    obtain rfl := Host.Outcome.next.inj ((exec_bbApp_fits unfaulted fits).symm.trans happ)
    exact ⟨unfaulted, rfl⟩
  have longer : t.core.blen = s.core.blen + n.toNat := by
    rw [blen_appended appended, unpack_length]
  constructor
  · have old_blen : (BitVec.ofNat 32 s.core.blen).toNat = s.core.blen :=
      Nat.mod_eq_of_lt ((Nat.le_of_add_right_le fits).trans_lt bcap_lt)
    have read : memRead t.core s.core.blen n.toNat = unpack n.toNat v.toNat := by
      simpa using memRead_appended_new appended
    rw [exec_bbGetw_within still (by rw [old_blen, longer]), old_blen, read, pack_unpack_of_lt hv, dataOfNat,
      BitVec.ofNat_toNat]
  · intro m idx _ within
    refine ⟨_, exec_bbGetw_within unfaulted within, ?_⟩
    rw [exec_bbGetw_within still (within.trans (by rw [longer]; exact Nat.le_add_right ..)),
      memRead_appended_old appended within]

end Sys2Proof.Machine
end

section
/-! SUPPORT. The commands of the frequency counter (41_frequency_counter.md R141 to R144), one rule per way that each can
end, and what a run of FT.CNT adds to the counts (R146, R147). -/

namespace Sys2Proof.Machine

/-! ## The four commands -/

section Commands

variable {s : State} {b : Byte} {n : Count}

theorem exec_ftClr (unfaulted : s.unfaulted) :
    exec .ftClr s = .next (s.okNext { s.core with freq := Vector.replicate 256 0#32 }.withdrawDerived 0#40) :=
  exec_of_respond unfaulted rfl

theorem exec_ftCnt_below (unfaulted : s.unfaulted) (below : s.core.freqAt b ≠ Config.maxCount) :
    exec (.ftCnt b) s = .next (s.okNext (s.core.setFreq b (s.core.freqAt b + 1#32)).withdrawDerived
      (zext40 (s.core.freqAt b + 1#32))) :=
  exec_of_respond unfaulted (if_neg below)

theorem exec_ftCnt_greatest (unfaulted : s.unfaulted) (greatest : s.core.freqAt b = Config.maxCount) :
    exec (.ftCnt b) s = .next (s.faultNext 0x03#8 (b.setWidth 40)) :=
  exec_of_raise (f := .countOverflow b) unfaulted (if_pos greatest)

theorem exec_ftLd (unfaulted : s.unfaulted) :
    exec (.ftLd b n) s = .next (s.okNext (s.core.setFreq b n).withdrawDerived 0#40) :=
  exec_of_respond unfaulted rfl

theorem exec_ftRd (unfaulted : s.unfaulted) :
    exec (.ftRd b) s = .next (s.okNext s.core (zext40 (s.core.freqAt b))) :=
  exec_of_respond unfaulted rfl

end Commands

/-! ## The count after a write -/

theorem countOf_setFreq (c : CoreState) (b b' : Byte) (n : Count) :
    countOf (c.setFreq b n).freq b' = if b' = b then n else c.freqAt b' := countOf_set ..

theorem countOf_setFreq_same (c : CoreState) (b : Byte) (n : Count) : countOf (c.setFreq b n).freq b = n := by
  rw [countOf_setFreq, if_pos rfl]

theorem countOf_setFreq_other (c : CoreState) {b b' : Byte} (n : Count) (h : b' ≠ b) :
    countOf (c.setFreq b n).freq b' = c.freqAt b' := by
  rw [countOf_setFreq, if_neg h]

/-- Below the greatest count the counter does not wrap (20_memory.md R76). -/
theorem toNat_add_one_of_ne_maxCount {n : Count} (h : n ≠ Config.maxCount) : (n + 1#32).toNat = n.toNat + 1 := by
  have ne : n.toNat ≠ 0xFFFFFFFF := fun e => h (BitVec.eq_of_toNat_eq e)
  exact BitVec.toNat_add_of_lt (by simp; omega)

/-- Settles O26: the body of FT.CLR needs no flag and always responds. -/
theorem ftClrEmptiesTheTable : Obligations.FtClrEmptiesTheTable :=
  ⟨rfl, (decode_encode_iff .ftClr).mpr rfl, fun _ unfaulted => ⟨_, countOf_replicate, exec_ftClr unfaulted⟩⟩

/-- Settles O27: below the greatest count the counter does not wrap, and at the greatest count the check raises. -/
theorem ftCntCountsOneOccurrence : Obligations.FtCntCountsOneOccurrence := by
  refine ⟨fun b => ⟨rfl, (decode_encode_iff (.ftCnt b)).mpr rfl⟩, fun s b unfaulted =>
    ⟨fun below => ?_, exec_ftCnt_greatest unfaulted⟩⟩
  refine ⟨(s.core.setFreq b (s.core.freqAt b + 1#32)).freq, ?_, fun _ => countOf_setFreq_other _ _, ?_⟩
  · rw [countOf_setFreq_same, toNat_add_one_of_ne_maxCount below]
  · rw [countOf_setFreq_same]
    exact exec_ftCnt_below unfaulted below

/-- Settles O28: the body of FT.LD needs no flag and writes one cell. -/
theorem ftLdSetsOneCount : Obligations.FtLdSetsOneCount :=
  ⟨fun b n => ⟨rfl, (decode_encode_iff (.ftLd b n)).mpr rfl⟩, fun s b n unfaulted =>
    ⟨(s.core.setFreq b n).freq, countOf_setFreq_same .., fun _ => countOf_setFreq_other _ _, exec_ftLd unfaulted⟩⟩

/-- Settles O29: the body of FT.RD needs no flag and responds on the core as it was. -/
theorem ftRdReadsOneCount : Obligations.FtRdReadsOneCount :=
  ⟨fun b => ⟨rfl, (decode_encode_iff (.ftRd b)).mpr rfl⟩, fun _ _ => exec_ftRd⟩

/-! ## Counting an input -/

/-- A command that answers a next state hands it to the rest of the sequence (20_memory.md R69). -/
theorem runCommands_cons_of_next {i : Instr} {s t : State} (h : exec i s = .next t) (is : List Instr) :
    runCommands (i :: is) s = runCommands is t := by
  simp only [runCommands, h]

/-- FT.CLR raises no fault and leaves every count 0. -/
theorem exec_ftClr_empties {s : State} (unfaulted : s.unfaulted) :
    ∃ t, exec .ftClr s = .next t ∧ t.unfaulted ∧ ∀ b, countOf t.core.freq b = 0#32 :=
  ⟨_, exec_ftClr unfaulted, unfaulted, countOf_replicate⟩

/-- An FT.CNT within the range of the counter raises no fault and counts its byte once. -/
theorem exec_ftCnt_counts {s : State} {x : Byte} (unfaulted : s.unfaulted)
    (below : (countOf s.core.freq x).toNat + 1 < 2 ^ 32) :
    ∃ t, exec (.ftCnt x) s = .next t ∧ t.unfaulted ∧
      ∀ b, (countOf t.core.freq b).toNat = (countOf s.core.freq b).toNat + [x].count b := by
  have ne : s.core.freqAt x ≠ Config.maxCount := fun e => by
    rw [← freqAt_eq, e] at below
    exact absurd below (by decide)
  refine ⟨_, exec_ftCnt_below unfaulted ne, unfaulted, fun b => ?_⟩
  change (countOf (s.core.setFreq x (s.core.freqAt x + 1#32)).freq b).toNat = _
  by_cases h : b = x
  · subst h
    rw [countOf_setFreq_same, toNat_add_one_of_ne_maxCount ne, freqAt_eq, List.count_singleton_self]
  · rw [countOf_setFreq_other _ _ h, freqAt_eq, List.count_singleton, if_neg (by simpa using Ne.symm h), Nat.add_zero]

/-- FT.CNT of each byte adds to every count the occurrences of its byte, while the sums stay in the range of the counter. -/
theorem runCommands_ftCnt {s : State} {bytes : List Byte} (unfaulted : s.unfaulted)
    (fits : ∀ b, (countOf s.core.freq b).toNat + bytes.count b < 2 ^ 32) :
    ∃ t, runCommands (bytes.map .ftCnt) s = .next t ∧ t.unfaulted ∧
      ∀ b, (countOf t.core.freq b).toNat = (countOf s.core.freq b).toNat + bytes.count b := by
  induction bytes generalizing s with
  | nil => exact ⟨s, rfl, unfaulted, fun _ => rfl⟩
  | cons x xs ih =>
    have split (b : Byte) : (x :: xs).count b = [x].count b + xs.count b := List.count_append (l₁ := [x])
    have below : (countOf s.core.freq x).toNat + 1 < 2 ^ 32 := by
      have := fits x
      rw [List.count_cons_self] at this
      omega
    obtain ⟨s', step, unfaulted', counted⟩ := exec_ftCnt_counts unfaulted below
    have counts (b : Byte) : (countOf s'.core.freq b).toNat + xs.count b =
        (countOf s.core.freq b).toNat + (x :: xs).count b := by
      rw [counted, split, Nat.add_assoc]
    obtain ⟨t, run, still, total⟩ := ih unfaulted' fun b => (counts b).trans_lt (fits b)
    exact ⟨t, (runCommands_cons_of_next step _).trans run, still, fun b => (total b).trans (counts b)⟩

/-- From the empty table the counts are the numbers of occurrences (41_frequency_counter.md R146). -/
theorem runCommands_ftClr_ftCnt {s : State} {bytes : List Byte} (unfaulted : s.unfaulted)
    (fits : ∀ b, bytes.count b < 2 ^ 32) :
    ∃ t, runCommands (.ftClr :: bytes.map .ftCnt) s = .next t ∧ t.unfaulted ∧
      ∀ b, (countOf t.core.freq b).toNat = bytes.count b := by
  obtain ⟨s', step, unfaulted', cleared⟩ := exec_ftClr_empties unfaulted
  have empty (b : Byte) : (countOf s'.core.freq b).toNat + bytes.count b = bytes.count b := by
    rw [cleared, BitVec.toNat_zero, Nat.zero_add]
  obtain ⟨t, run, still, total⟩ := runCommands_ftCnt unfaulted' fun b => (empty b).trans_lt (fits b)
  exact ⟨t, (runCommands_cons_of_next step _).trans run, still, fun b => (total b).trans (empty b)⟩

/-- The counts of a table of occurrences sum to the length of the input (41_frequency_counter.md R147): every byte of the
input is one of the 256 values. -/
theorem sumCounts_of_occurrences {freq : Vector Count 256} {bytes : List Byte}
    (h : ∀ b, (countOf freq b).toNat = bytes.count b) : sumCounts freq = bytes.length := by
  calc sumCounts freq
    _ = (allBytes.map fun b => bytes.count b).sum := by
      rw [sumCounts, toList_eq_map_countOf, List.map_map]
      exact congrArg List.sum (List.map_congr_left fun b _ => h b)
    _ = ∑ b ∈ allBytes.toFinset, (bytes : Multiset Byte).count b := by
      simp only [Multiset.coe_count, List.sum_toFinset _ allBytes_nodup]
    _ = bytes.length := Multiset.sum_count_eq_card fun b _ => List.mem_toFinset.mpr (mem_allBytes b)

/-- Settles O30: FT.CLR empties the table, each FT.CNT counts its byte once, and the numbers of occurrences sum to the
length. -/
theorem countingGivesOccurrences : Obligations.CountingGivesOccurrences := by
  intro s bytes unfaulted fits
  obtain ⟨t, run, still, counts⟩ := runCommands_ftClr_ftCnt unfaulted fits
  exact ⟨t, run, still, counts, sumCounts_of_occurrences counts⟩

end Sys2Proof.Machine
end

section
/-! SUPPORT. Compare as the order of a key (42_tree_builder.md R167): two left spines compare as their depths and then the
bytes at their ends do, whatever the node memory holds. -/

namespace Sys2Proof.Machine

/-- The depth of the left spine and the byte of the Leaf that ends it; a spine that the bound cuts off ends in 0. -/
def spineKey (nodes : Vector Node 511) : Nat → NodeIdx → ℕ × ℕ
  | 0, _ => (0, 0)
  | fuel + 1, x =>
    match nodeAt nodes x with
    | .internal l _ _ => ((spineKey nodes fuel l).1 + 1, (spineKey nodes fuel l).2)
    | .leaf b _ => (0, b.toNat)
    | .absent => (0, 0)

/-- The triple of R167, in lexicographic order. -/
def treeKey (nodes : Vector Node 511) (x : NodeIdx) : ℕ ×ₗ ℕ ×ₗ ℕ :=
  toLex ((nodeAt nodes x).freq.toNat, toLex (spineKey nodes 511 x))

section Record

variable {nodes : Vector Node 511} {x l r : NodeIdx} {b : Byte} {f : Freq}

theorem spineKey_of_internal (h : nodeAt nodes x = .internal l r f) (fuel : Nat) :
    spineKey nodes (fuel + 1) x = ((spineKey nodes fuel l).1 + 1, (spineKey nodes fuel l).2) := by
  simp only [spineKey, h]

theorem spineKey_of_leaf (h : nodeAt nodes x = .leaf b f) (fuel : Nat) :
    spineKey nodes (fuel + 1) x = (0, b.toNat) := by
  simp only [spineKey, h]

theorem spineKey_of_absent (h : nodeAt nodes x = .absent) (fuel : Nat) : spineKey nodes (fuel + 1) x = (0, 0) := by
  simp only [spineKey, h]

theorem treeKey_of_leaf (h : nodeAt nodes x = .leaf b f) : treeKey nodes x = toLex (f.toNat, toLex (0, b.toNat)) := by
  rw [treeKey, spineKey_of_leaf h, h]
  rfl

end Record

theorem compare_toLex (a b c d : ℕ) : compare (toLex (a, b)) (toLex (c, d)) = (compare a c).then (compare b d) := rfl

/-- The descent of both spines at once compares their depths and then their bytes: the side that reaches its Leaf first has
depth 0 from there on. -/
theorem spine_eq_compare (nodes : Vector Node 511) (fuel : Nat) (x y : NodeIdx) :
    spine nodes fuel x y = compare (toLex (spineKey nodes fuel x)) (toLex (spineKey nodes fuel y)) := by
  have level (d e : ℕ) : compare (d + 1) (e + 1) = compare d e := by
    simp only [Nat.compare_eq_ite_lt, Nat.add_lt_add_iff_right]
  have shallower (d : ℕ) : compare 0 (d + 1) = .lt := compare_lt_iff_lt.mpr d.succ_pos
  have deeper (d : ℕ) : compare (d + 1) 0 = .gt := compare_gt_iff_gt.mpr d.succ_pos
  induction fuel generalizing x y with
  | zero => rfl
  | succ fuel ih =>
    cases hx : nodeAt nodes x with
    | internal =>
      cases hy : nodeAt nodes y with
      | internal =>
        rw [spineKey_of_internal hx, spineKey_of_internal hy, compare_toLex, level, ← compare_toLex]
        simpa only [spine, hx, hy] using ih _ _
      | leaf | absent => simp [spine, spineKey, hx, hy, compare_toLex, deeper]
    | leaf | absent =>
      cases hy : nodeAt nodes y with
      | internal => simp [spine, spineKey, hx, hy, compare_toLex, shallower]
      | leaf | absent => simp [spine, spineKey, hx, hy, compare_toLex, Node.byte]

/-- Compare is the order of the keys. -/
theorem compareTrees_eq_compare (nodes : Vector Node 511) (x y : NodeIdx) :
    compareTrees nodes x y = compare (treeKey nodes x) (treeKey nodes y) := by
  unfold compareTrees treeKey
  rw [Prod.Lex.compare_def, compareLex, compareOn, compareOn, spine_eq_compare]
  dsimp only [ofLex_toLex]
  cases compare (nodeAt nodes x).freq.toNat (nodeAt nodes y).freq.toNat <;> rfl

theorem compareTrees_eq_lt_iff {nodes : Vector Node 511} {x y : NodeIdx} :
    compareTrees nodes x y = .lt ↔ treeKey nodes x < treeKey nodes y := by
  rw [compareTrees_eq_compare, compare_lt_iff_lt]

theorem compareTrees_eq_eq_iff {nodes : Vector Node 511} {x y : NodeIdx} :
    compareTrees nodes x y = .eq ↔ treeKey nodes x = treeKey nodes y := by
  rw [compareTrees_eq_compare, compare_eq_iff_eq]

theorem treeLess_iff {nodes : Vector Node 511} {x y : NodeIdx} :
    treeLess nodes x y = true ↔ treeKey nodes x < treeKey nodes y := by
  rw [treeLess, beq_iff_eq, compareTrees_eq_lt_iff]

/-- A left spine that reaches a Leaf has its depth and byte for a key. -/
theorem spineKey_of_leftSpine {nodes : Vector Node 511} {fuel : Nat} {x : NodeIdx} {d : Nat} {b : Byte}
    (h : leftSpine nodes fuel x = some (d, b)) : spineKey nodes fuel x = (d, b.toNat) := by
  induction fuel generalizing x d with
  | zero => cases h
  | succ fuel ih =>
    unfold leftSpine at h
    split at h
    case h_1 l _ _ hx =>
      obtain ⟨⟨d', b'⟩, hl, e⟩ := Option.map_eq_some_iff.mp h
      cases e
      rw [spineKey_of_internal hx, ih hl]
    case h_2 hx =>
      cases h
      exact spineKey_of_leaf hx fuel
    case h_3 hx =>
      cases h
      exact spineKey_of_absent hx fuel

/-- Settles O31: Compare is the order of the keys, and the spines that reach a Leaf have their triples for keys. -/
theorem compareIsLexicographicInTheKey : Obligations.CompareIsLexicographicInTheKey := by
  intro nodes x y dx dy bx by' hx hy
  rw [compareTrees_eq_compare, treeKey, treeKey, spineKey_of_leftSpine hx, spineKey_of_leftSpine hy]
  rfl

/-- Settles O32: the order of the keys is antisymmetric and transitive. -/
theorem compareIsAntisymmetricAndTransitive : Obligations.CompareIsAntisymmetricAndTransitive := by
  refine fun nodes => ⟨fun x y => ?_, fun x y z hxy hyz => ?_⟩
  · rw [compareTrees_eq_compare, compareTrees_eq_compare]
    exact Std.OrientedCmp.eq_swap
  · rw [compareTrees_eq_lt_iff] at *
    exact hxy.trans hyz

end Sys2Proof.Machine
end

section
/-! SUPPORT. HeapInsert and HeapExtractMin keep the heap property (42_tree_builder.md R170 to R172). Between two swaps the heap
is ordered but for one entry, which is on its way up or down; the entries above and below it are ordered across it. -/

namespace Sys2Proof.Machine

/-! ## The keys of the heap, by position -/

/-- The key of the tree at position p of the heap. -/
def keyAt (nodes : Vector Node 511) (h : List NodeIdx) (p : Nat) : ℕ ×ₗ ℕ ×ₗ ℕ := treeKey nodes (heapAt h p)

theorem heapAt_of_lt {h : List NodeIdx} {p : Nat} (hp : p < h.length) : heapAt h p = h[p] := by
  simp [heapAt, hp]

theorem heapAt_append_left {h : List NodeIdx} {p : Nat} (hp : p < h.length) (h' : List NodeIdx) :
    heapAt (h ++ h') p = heapAt h p := List.getD_append h h' _ p hp

theorem exists_heapAt_of_mem {h : List NodeIdx} {x : NodeIdx} (hx : x ∈ h) : ∃ p < h.length, heapAt h p = x := by
  obtain ⟨p, hp, e⟩ := List.getElem_of_mem hx
  exact ⟨p, hp, (heapAt_of_lt hp).trans e⟩

theorem heapAt_mem {h : List NodeIdx} {p : Nat} (hp : p < h.length) : heapAt h p ∈ h := by
  rw [heapAt_of_lt hp]
  exact List.getElem_mem hp

theorem heapProperty_iff {nodes : Vector Node 511} {h : List NodeIdx} :
    HeapProperty nodes h ↔ ∀ p, 0 < p → p < h.length → keyAt nodes h ((p - 1) / 2) < keyAt nodes h p := by
  simp only [HeapProperty, treeLess_iff, keyAt]

theorem heapAt_set {h : List NodeIdx} {p : Nat} (hp : p < h.length) (x : NodeIdx) (r : Nat) :
    heapAt (h.set p x) r = if r = p then x else heapAt h r := by
  unfold heapAt
  split
  case isTrue same => simp [same, hp]
  case isFalse other => simp [Ne.symm other]

theorem keyAt_heapSwap (nodes : Vector Node 511) {h : List NodeIdx} {p q : Nat} (hp : p < h.length) (hq : q < h.length)
    (r : Nat) : keyAt nodes (heapSwap h p q) r =
      if r = q then keyAt nodes h p else if r = p then keyAt nodes h q else keyAt nodes h r := by
  unfold keyAt
  rw [heapSwap, heapAt_set (by simpa using hq), heapAt_set hp]
  split_ifs <;> rfl

/-! ## Sifting up (R171) -/

/-- The heap property holds but for the entry at p, which may be less than its parent; its key is no other entry's. -/
structure Rising (nodes : Vector Node 511) (h : List NodeIdx) (p : Nat) : Prop where
  inUse : p < h.length
  ordered : ∀ q, 0 < q → q < h.length → q ≠ p → keyAt nodes h ((q - 1) / 2) < keyAt nodes h q
  bridged : ∀ q, 0 < q → q < h.length → (q - 1) / 2 = p → 0 < p → keyAt nodes h ((p - 1) / 2) < keyAt nodes h q
  apart : ∀ q, q < h.length → q ≠ p → keyAt nodes h q ≠ keyAt nodes h p

section Rising

variable {nodes : Vector Node 511} {h : List NodeIdx} {p : Nat}

/-- At the top, or below a lesser parent, the entry is in its place. -/
theorem Rising.heapProperty (rising : Rising nodes h p)
    (placed : 0 < p → keyAt nodes h ((p - 1) / 2) < keyAt nodes h p) : HeapProperty nodes h := by
  rw [heapProperty_iff]
  intro q hq hlen
  by_cases hqp : q = p
  · subst hqp
    exact placed hq
  · exact rising.ordered q hq hlen hqp

/-- An entry less than its parent rises by a swap with it. -/
theorem Rising.swap (rising : Rising nodes h p) (pos : 0 < p)
    (less : keyAt nodes h p < keyAt nodes h ((p - 1) / 2)) :
    Rising nodes (heapSwap h p ((p - 1) / 2)) ((p - 1) / 2) := by
  obtain ⟨inUse, ordered, bridged, apart⟩ := rising
  have key := keyAt_heapSwap nodes inUse (show (p - 1) / 2 < h.length by omega)
  generalize ha : (p - 1) / 2 = a at *
  have hap : a < p := by omega
  constructor <;> simp only [heapSwap_length, key, if_true]
  case inUse => omega
  case ordered =>
    intro q hq hlen hqa
    rw [if_neg hqa]
    by_cases hqp : q = p
    · rw [if_pos hqp, if_pos (by omega)]
      exact less
    rw [if_neg hqp]
    by_cases sibling : (q - 1) / 2 = a
    · rw [if_pos sibling]
      have := ordered q hq hlen hqp
      rw [sibling] at this
      exact less.trans this
    rw [if_neg sibling]
    by_cases child : (q - 1) / 2 = p
    · rw [if_pos child]
      exact bridged q hq hlen child pos
    rw [if_neg child]
    exact ordered q hq hlen hqp
  case bridged =>
    intro q hq hlen hqa pos_a
    have above : keyAt nodes h ((a - 1) / 2) < keyAt nodes h a := ordered a pos_a (by omega) (by omega)
    rw [if_neg (show (a - 1) / 2 ≠ a by omega), if_neg (show (a - 1) / 2 ≠ p by omega), if_neg (show q ≠ a by omega)]
    by_cases hqp : q = p
    · rw [if_pos hqp]
      exact above
    · rw [if_neg hqp]
      have := ordered q hq hlen hqp
      rw [hqa] at this
      exact above.trans this
  case apart =>
    intro q hlen hqa
    rw [if_neg hqa]
    by_cases hqp : q = p
    · rw [if_pos hqp]
      exact less.ne'
    · rw [if_neg hqp]
      exact apart q hlen hqp

end Rising

theorem heapProperty_siftUp {nodes : Vector Node 511} {fuel : Nat} {h : List NodeIdx} {p : Nat}
    (rising : Rising nodes h p) (enough : p < fuel) : HeapProperty nodes (siftUp nodes fuel h p) := by
  induction fuel generalizing h p with
  | zero => exact absurd enough p.not_lt_zero
  | succ fuel ih =>
    unfold siftUp
    split
    case isTrue top => exact rising.heapProperty fun pos => absurd top pos.ne'
    case isFalse below =>
      have pos : 0 < p := Nat.pos_of_ne_zero below
      have parent : (p - 1) / 2 < p := by omega
      simp only [treeLess_iff]
      split
      case isTrue less => exact ih (rising.swap pos less) (by omega)
      case isFalse notLess =>
        exact rising.heapProperty fun _ =>
          lt_of_le_of_ne (not_lt.mp notLess) (rising.apart _ (parent.trans rising.inUse) parent.ne)

/-- HeapInsert begins with the new entry below the others. -/
theorem rising_append {nodes : Vector Node 511} {h : List NodeIdx} {t : NodeIdx} (heap : HeapProperty nodes h)
    (apart : ∀ x ∈ h, treeKey nodes x ≠ treeKey nodes t) : Rising nodes (h ++ [t]) h.length := by
  rw [heapProperty_iff] at heap
  have old {q : Nat} (hq : q < h.length) : keyAt nodes (h ++ [t]) q = keyAt nodes h q :=
    congrArg _ (heapAt_append_left hq _)
  have new : keyAt nodes (h ++ [t]) h.length = treeKey nodes t := by simp [keyAt, heapAt]
  constructor <;> simp only [List.length_append, List.length_singleton]
  case inUse => omega
  case ordered =>
    intro q hq hlen hne
    rw [old (show q < h.length by omega), old (show (q - 1) / 2 < h.length by omega)]
    exact heap q hq (by omega)
  case bridged => omega
  case apart =>
    intro q hlen hne
    rw [new, old (show q < h.length by omega)]
    exact apart _ (heapAt_mem (by omega))

theorem heapProperty_heapInsert {nodes : Vector Node 511} {h : List NodeIdx} {t : NodeIdx} (heap : HeapProperty nodes h)
    (apart : ∀ x ∈ h, treeKey nodes x ≠ treeKey nodes t) : HeapProperty nodes (heapInsert nodes h t) :=
  heapProperty_siftUp (rising_append heap apart) h.length.lt_succ_self

/-- Settles O33: the new entry rises to its place, and swaps keep the entries. -/
theorem heapInsertKeepsTheHeap : Obligations.HeapInsertKeepsTheHeap := by
  refine fun nodes h t heap apart => ⟨heapProperty_heapInsert heap fun x hx same => ?_, heapInsert_perm nodes h t⟩
  exact apart x hx (compareTrees_eq_eq_iff.mpr same.symm)

/-! ## Sifting down (R172) -/

/-- The heap property holds but for the entry at p, which a child may be less than; no two entries have one key. -/
structure Sinking (nodes : Vector Node 511) (h : List NodeIdx) (p : Nat) : Prop where
  ordered : ∀ q, 0 < q → q < h.length → (q - 1) / 2 ≠ p → keyAt nodes h ((q - 1) / 2) < keyAt nodes h q
  bridged : ∀ q, 0 < q → q < h.length → (q - 1) / 2 = p → 0 < p → keyAt nodes h ((p - 1) / 2) < keyAt nodes h q
  apart : (h.map (treeKey nodes)).Nodup

/-- Two positions of a heap whose entries have different keys have different keys. -/
theorem keyAt_ne_of_nodup {nodes : Vector Node 511} {h : List NodeIdx} (apart : (h.map (treeKey nodes)).Nodup) {p q : Nat}
    (hp : p < h.length) (hq : q < h.length) (hpq : p ≠ q) : keyAt nodes h p ≠ keyAt nodes h q := by
  intro same
  rw [keyAt, keyAt, heapAt_of_lt hp, heapAt_of_lt hq] at same
  exact hpq ((apart.getElem_inj_iff (hi := by simpa using hp) (hj := by simpa using hq)).mp (by simpa using same))

/-- The lesser child is a child, and no child is less. -/
theorem lesserChild_least (nodes : Vector Node 511) (h : List NodeIdx) (p : Nat) :
    (lesserChild nodes h p - 1) / 2 = p ∧
    ∀ q, 0 < q → q < h.length → (q - 1) / 2 = p → keyAt nodes h (lesserChild nodes h p) ≤ keyAt nodes h q := by
  have child {q : Nat} (hq : 0 < q) (hqp : (q - 1) / 2 = p) : q = 2 * p + 1 ∨ q = 2 * p + 2 := by omega
  unfold lesserChild
  split
  case isTrue right =>
    rw [Bool.and_eq_true, treeLess_iff] at right
    refine ⟨by omega, fun q hq _ hqp => ?_⟩
    rcases child hq hqp with rfl | rfl
    · exact right.2.le
    · exact le_rfl
  case isFalse left =>
    rw [Bool.and_eq_true, treeLess_iff, not_and, decide_eq_true_iff] at left
    refine ⟨by omega, fun q hq hlen hqp => ?_⟩
    rcases child hq hqp with rfl | rfl
    · exact le_rfl
    · exact not_lt.mp (left hlen)

section Sinking

variable {nodes : Vector Node 511} {h : List NodeIdx} {p : Nat}

/-- Above greater children, if any, the entry is in its place. -/
theorem Sinking.heapProperty (sinking : Sinking nodes h p)
    (placed : ∀ q, 0 < q → q < h.length → (q - 1) / 2 = p → keyAt nodes h p < keyAt nodes h q) :
    HeapProperty nodes h := by
  rw [heapProperty_iff]
  intro q hq hlen
  by_cases hqp : (q - 1) / 2 = p
  · rw [hqp]
    exact placed q hq hlen hqp
  · exact sinking.ordered q hq hlen hqp

/-- An entry greater than a child sinks by a swap with the lesser child. -/
theorem Sinking.swap (sinking : Sinking nodes h p) (parent : 2 * p + 1 < h.length)
    (less : keyAt nodes h (lesserChild nodes h p) < keyAt nodes h p) :
    Sinking nodes (heapSwap h (lesserChild nodes h p) p) (lesserChild nodes h p) := by
  obtain ⟨ordered, bridged, apart⟩ := sinking
  obtain ⟨child, least⟩ := lesserChild_least nodes h p
  obtain ⟨hpc, inUse⟩ := lesserChild_bounds nodes parent
  have key := keyAt_heapSwap nodes inUse (show p < h.length by omega)
  have apart' := (((heapSwap_perm inUse (show p < h.length by omega)).map (treeKey nodes)).nodup_iff).mpr apart
  generalize hc : lesserChild nodes h p = c at *
  refine { ordered := ?ordered, bridged := ?bridged, apart := apart' } <;> simp only [heapSwap_length, key]
  case ordered =>
    intro q hq hlen hqc
    rw [if_neg hqc]
    by_cases sibling : (q - 1) / 2 = p
    · rw [if_pos sibling, if_neg (show q ≠ p by omega)]
      by_cases hq' : q = c
      · rw [if_pos hq']
        exact less
      · rw [if_neg hq']
        exact lt_of_le_of_ne (least q hq hlen sibling) (keyAt_ne_of_nodup apart inUse hlen (Ne.symm hq'))
    rw [if_neg sibling, if_neg (show q ≠ c by omega)]
    by_cases hq' : q = p
    · rw [if_pos hq', hq']
      exact bridged c (by omega) inUse child (by omega)
    · rw [if_neg hq']
      exact ordered q hq hlen sibling
  case bridged =>
    intro q hq hlen hqc _
    rw [child, if_pos rfl, if_neg (show q ≠ p by omega), if_neg (show q ≠ c by omega)]
    have := ordered q hq hlen (by omega)
    rwa [hqc] at this

end Sinking

theorem heapProperty_siftDown {nodes : Vector Node 511} {fuel : Nat} {h : List NodeIdx} {p : Nat}
    (sinking : Sinking nodes h p) (enough : h.length ≤ fuel + p) : HeapProperty nodes (siftDown nodes fuel h p) := by
  induction fuel generalizing h p with
  | zero => exact sinking.heapProperty (by omega)
  | succ fuel ih =>
    unfold siftDown
    split
    case isTrue childless => exact sinking.heapProperty (by omega)
    case isFalse parent =>
      obtain ⟨hpc, inUse⟩ := lesserChild_bounds nodes (Nat.lt_of_not_le parent)
      obtain ⟨-, least⟩ := lesserChild_least nodes h p
      simp only [treeLess_iff]
      split
      case isTrue less =>
        refine ih (sinking.swap (Nat.lt_of_not_le parent) less) ?_
        rw [heapSwap_length]
        omega
      case isFalse notLess =>
        have above := lt_of_le_of_ne (not_lt.mp notLess)
          (keyAt_ne_of_nodup sinking.apart (hpc.trans inUse) inUse hpc.ne)
        exact sinking.heapProperty fun q hq hlen hqp => above.trans_le (least q hq hlen hqp)

/-! ## The minimum -/

/-- The top of a heap is less than every other entry: every entry's parent is less, and is the top or below it. -/
theorem keyAt_zero_lt {nodes : Vector Node 511} {h : List NodeIdx} (heap : HeapProperty nodes h) (p : Nat) (pos : 0 < p)
    (hp : p < h.length) : keyAt nodes h 0 < keyAt nodes h p := by
  induction p using Nat.strong_induction_on with
  | _ p ih =>
    have above := heapProperty_iff.mp heap p pos hp
    rcases Nat.eq_zero_or_pos ((p - 1) / 2) with top | below
    · rwa [top] at above
    · exact (ih ((p - 1) / 2) (by omega) below (by omega)).trans above

theorem heapExtractMin_fst (nodes : Vector Node 511) (h : List NodeIdx) : (heapExtractMin nodes h).1 = heapAt h 0 := by
  unfold heapExtractMin
  split <;> rfl

/-- HeapExtractMin puts the last entry at the top and lets it sink. -/
theorem heapExtractMin_snd_of_two_le (nodes : Vector Node 511) (d last : NodeIdx) (ds : List NodeIdx) :
    (heapExtractMin nodes (d :: (ds ++ [last]))).2 = siftDown nodes (ds.length + 2) (last :: ds) 0 := by
  rw [← List.cons_append]
  simp [heapExtractMin, heapAt, List.dropLast_cons_of_ne_nil]

section Extract

variable {nodes : Vector Node 511} {h : List NodeIdx}

/-- The entries left are those at the positions but the first, and the top is less than they are. -/
theorem heapExtractMin_fst_lt (heap : HeapProperty nodes h) :
    ∀ y ∈ (heapExtractMin nodes h).2, treeKey nodes (heapExtractMin nodes h).1 < treeKey nodes y := by
  intro y hy
  cases h with
  | nil => cases hy
  | cons d ds =>
    have rest := heapExtractMin_perm nodes (List.cons_ne_nil d ds)
    rw [heapExtractMin_fst] at rest ⊢
    obtain ⟨p, hp, rfl⟩ := exists_heapAt_of_mem (rest.cons_inv.mem_iff.mpr hy)
    exact keyAt_zero_lt heap (p + 1) p.succ_pos (Nat.succ_lt_succ hp)

theorem heapProperty_heapExtractMin (heap : HeapProperty nodes h) (apart : (h.map (treeKey nodes)).Nodup) :
    HeapProperty nodes (heapExtractMin nodes h).2 := by
  rcases h with _ | ⟨d, ds⟩
  · exact fun p _ hp => absurd hp (Nat.not_lt_zero p)
  obtain rfl | ⟨ds, last, rfl⟩ := List.eq_nil_or_concat' ds
  · exact fun p _ hp => absurd hp (Nat.not_lt_zero p)
  rw [heapExtractMin_snd_of_two_le]
  have kept {q : Nat} (pos : 0 < q) (hq : q < (last :: ds).length) :
      keyAt nodes (last :: ds) q = keyAt nodes (d :: (ds ++ [last])) q := by
    obtain ⟨q, rfl⟩ := Nat.exists_eq_succ_of_ne_zero pos.ne'
    exact congrArg _ (heapAt_append_left (Nat.lt_of_succ_lt_succ hq) [last]).symm
  rw [heapProperty_iff] at heap
  refine heapProperty_siftDown ⟨fun q hq hlen below => ?_, fun q _ _ _ pos => absurd pos (Nat.lt_irrefl 0), ?_⟩ (by simp)
  · rw [kept hq hlen, kept (Nat.pos_of_ne_zero below) (by omega)]
    exact heap q hq (by simp at hlen ⊢; omega)
  · have same : (last :: ds).Perm (ds ++ [last]) := (List.perm_append_singleton last ds).symm
    exact (same.map _).nodup_iff.mpr (List.nodup_cons.mp apart).2

end Extract

/-- Settles O34: the top is the minimum, and the last entry sinks from there to its place. -/
theorem heapExtractReturnsTheMinimum : Obligations.HeapExtractReturnsTheMinimum := by
  intro nodes h nonempty heap apart
  have keys : (h.map (treeKey nodes)).Nodup :=
    List.pairwise_map.mpr (apart.imp fun differ => mt compareTrees_eq_eq_iff.mpr differ)
  exact ⟨heapExtractMin_perm nodes nonempty, heapProperty_heapExtractMin heap keys,
    fun y hy => treeLess_iff.mpr (heapExtractMin_fst_lt heap y hy)⟩

end Sys2Proof.Machine
end

section
/-! SUPPORT. BuildMerged with its heap (42_tree_builder.md R164, R173): Compare tells every two trees of the forest apart, so
each round takes the two least trees of the heap, and any other way to take them builds the same tree. -/

namespace Sys2Proof.Machine

/-! ## The keys of a forest -/

section Forest

variable {freq : Vector Count 256} {t : Builder}

/-- A present record is the Leaf of its index, or an Internal record whose left child is present and has a lower index. -/
theorem MergeForest.record_cases (h : MergeForest freq t) {x : NodeIdx} (hx : (nodeAt t.nodes x).nv = true) :
    (∃ b f, x = leafIdx b ∧ nodeAt t.nodes x = .leaf b f) ∨
    ∃ l r f, nodeAt t.nodes x = .internal l r f ∧ (nodeAt t.nodes l).nv = true ∧ l.toNat < x.toNat := by
  cases e : nodeAt t.nodes x with
  | absent => simp [e] at hx
  | internal l r f =>
    have child : isChildOf t.nodes l x := by simp [isChildOf, e, Node.left]
    obtain ⟨present, lower, -⟩ := h.of_isChildOf child
    exact .inr ⟨l, r, f, rfl, present, lower⟩
  | leaf b f =>
    rcases Nat.lt_or_ge x.toNat 256 with low | high
    · obtain ⟨b', rfl⟩ := exists_leafIdx_of_lt low
      rw [h.leaves] at e
      split at e <;> cases e
      exact .inl ⟨_, _, rfl, rfl⟩
    · obtain ⟨l, r, f', e', -⟩ := h.internals x high (h.lt_nxt hx)
      cases e.symm.trans e'

theorem MergeForest.parent_unique (h : MergeForest freq t) {i p q : NodeIdx} (hp : isChildOf t.nodes i p)
    (hq : isChildOf t.nodes i q) : p = q :=
  (h.oneParent i (h.of_isChildOf hp).1 fun root => h.roots i root p hp).unique hp hq

/-- Two present records with one spine key are one: their spines end in one Leaf, and every record has one parent. -/
theorem MergeForest.spineKey_inj (h : MergeForest freq t) {fuel : Nat} {x y : NodeIdx} (fx : x.toNat < fuel)
    (fy : y.toNat < fuel) (hx : (nodeAt t.nodes x).nv = true) (hy : (nodeAt t.nodes y).nv = true)
    (same : spineKey t.nodes fuel x = spineKey t.nodes fuel y) : x = y := by
  induction fuel generalizing x y with
  | zero => exact absurd fx (Nat.not_lt_zero _)
  | succ fuel ih =>
    rcases h.record_cases hx with ⟨b, f, rfl, ex⟩ | ⟨l, r, f, ex, hl, lower⟩ <;>
      rcases h.record_cases hy with ⟨b', f', rfl, ey⟩ | ⟨l', r', f', ey, hl', lower'⟩
    · rw [spineKey_of_leaf ex, spineKey_of_leaf ey, Prod.mk.injEq, BitVec.toNat_inj] at same
      rw [same.2]
    · rw [spineKey_of_leaf ex, spineKey_of_internal ey, Prod.mk.injEq] at same
      exact absurd same.1.symm (Nat.succ_ne_zero _)
    · rw [spineKey_of_internal ex, spineKey_of_leaf ey, Prod.mk.injEq] at same
      exact absurd same.1 (Nat.succ_ne_zero _)
    · rw [spineKey_of_internal ex, spineKey_of_internal ey, Prod.mk.injEq, Nat.add_right_cancel_iff] at same
      obtain rfl : l = l' := ih (by omega) (by omega) hl hl' (Prod.ext same.1 same.2)
      exact h.parent_unique (i := l) (by simp [isChildOf, ex, Node.left]) (by simp [isChildOf, ey, Node.left])

/-- Compare tells every two present records apart (R168). -/
theorem MergeForest.treeKey_inj (h : MergeForest freq t) {x y : NodeIdx} (hx : (nodeAt t.nodes x).nv = true)
    (hy : (nodeAt t.nodes y).nv = true) (same : treeKey t.nodes x = treeKey t.nodes y) : x = y := by
  have inBounds {z : NodeIdx} (hz : (nodeAt t.nodes z).nv = true) : z.toNat < 511 := by
    have := h.lt_nxt hz
    omega
  exact h.spineKey_inj (inBounds hx) (inBounds hy) hx hy (congrArg (fun k => ofLex (ofLex k).2) same)

/-- The record that a round adds changes no key: it is on no spine of a present record. -/
theorem MergeForest.treeKey_combined (h : MergeForest freq t) (h1 : 1 < t.heap.length) {l r x : NodeIdx}
    (hx : (nodeAt t.nodes x).nv = true) : treeKey (combined t l r) x = treeKey t.nodes x := by
  have spines (fuel : Nat) : spineKey (combined t l r) fuel x = spineKey t.nodes fuel x := by
    induction fuel generalizing x with
    | zero => rfl
    | succ fuel ih =>
      have kept : nodeAt (combined t l r) x = nodeAt t.nodes x := nodeAt_combined_of_nv h h1 hx
      rcases h.record_cases hx with ⟨b, f, -, e⟩ | ⟨a, c, f, e, ha, -⟩
      · rw [spineKey_of_leaf e, spineKey_of_leaf (kept.trans e)]
      · rw [spineKey_of_internal e, spineKey_of_internal (kept.trans e), ih ha]
  rw [treeKey, treeKey, spines, nodeAt_combined_of_nv h h1 hx]

end Forest

/-- The heap property is about the keys of the entries alone. -/
theorem HeapProperty.congr {nodes nodes' : Vector Node 511} {h : List NodeIdx} (heap : HeapProperty nodes h)
    (same : ∀ x ∈ h, treeKey nodes' x = treeKey nodes x) : HeapProperty nodes' h := by
  rw [heapProperty_iff] at heap ⊢
  intro p pos hp
  unfold keyAt
  rw [same _ (heapAt_mem (by omega)), same _ (heapAt_mem hp)]
  exact heap p pos hp

/-! ## The leaves -/

/-- The heap is in order and holds Leaves of bytes that are not among those still to be inserted. -/
structure LeafHeap (todo : List Byte) (t : Builder) : Prop where
  heap : HeapProperty t.nodes t.heap
  leaves : ∀ x ∈ t.heap, ∃ b ∉ todo, ∃ f, x = leafIdx b ∧ nodeAt t.nodes x = .leaf b f

theorem nodeAt_insertLeaf (freq : Vector Count 256) (t : Builder) (k : Byte) (i : NodeIdx) :
    nodeAt (insertLeaf freq t k).nodes i =
      if i = leafIdx k then .leaf k (zext40 (countOf freq k)) else nodeAt t.nodes i :=
  nodeAt_setNode _ _ _ _ (leafIdx_ne_null k)

/-- The Leaf of a new byte has a key of its own, and writing it changes no Leaf in the heap. -/
theorem LeafHeap.insertLeaf {k : Byte} {ks : List Byte} {t : Builder} (h : LeafHeap (k :: ks) t) (hk : k ∉ ks)
    (freq : Vector Count 256) : LeafHeap ks (insertLeaf freq t k) := by
  have new : nodeAt (Machine.insertLeaf freq t k).nodes (leafIdx k) = .leaf k (zext40 (countOf freq k)) := by
    rw [nodeAt_insertLeaf, if_pos rfl]
  have old : ∀ x ∈ t.heap, ∃ b ∉ k :: ks, ∃ f, x = leafIdx b ∧ nodeAt t.nodes x = .leaf b f ∧
      nodeAt (Machine.insertLeaf freq t k).nodes x = .leaf b f := by
    intro x hx
    obtain ⟨b, hb, f, rfl, e⟩ := h.leaves x hx
    have other : leafIdx b ≠ leafIdx k := fun e => hb (by simp [leafIdx_injective e])
    exact ⟨b, hb, f, rfl, e, by rw [nodeAt_insertLeaf, if_neg other, e]⟩
  refine ⟨heapProperty_heapInsert (h.heap.congr fun x hx => ?_) fun x hx same => ?_, fun x hx => ?_⟩
  · obtain ⟨b, -, f, -, e, e'⟩ := old x hx
    exact (treeKey_of_leaf e').trans (treeKey_of_leaf e).symm
  · obtain ⟨b, hb, f, -, -, e'⟩ := old x hx
    replace same := (treeKey_of_leaf e').symm.trans (same.trans (treeKey_of_leaf new))
    have : b.toNat = k.toNat := congrArg (fun p => (ofLex (ofLex p).2).2) same
    exact hb (by simp [BitVec.toNat_inj.mp this])
  · rcases List.mem_cons.mp ((heapInsert_perm ..).mem_iff.mp hx) with rfl | hx
    · exact ⟨k, hk, _, rfl, new⟩
    · obtain ⟨b, hb, f, rfl, -, e'⟩ := old x hx
      exact ⟨b, mt (List.mem_cons_of_mem k) hb, f, rfl, e'⟩

theorem LeafHeap.foldl_insertLeaf {keys : List Byte} {t : Builder} (h : LeafHeap keys t) (nodup : keys.Nodup)
    (freq : Vector Count 256) : LeafHeap [] (keys.foldl (Machine.insertLeaf freq) t) := by
  induction keys generalizing t with
  | nil => exact h
  | cons k ks ih =>
    obtain ⟨hk, nodup⟩ := List.nodup_cons.mp nodup
    exact ih (h.insertLeaf hk freq) nodup

theorem heapProperty_leafPhase (freq : Vector Count 256) : HeapProperty (leafPhase freq).nodes (leafPhase freq).heap :=
  have empty : LeafHeap (keysOf freq) emptyBuilder := ⟨fun _ _ hp => absurd hp (Nat.not_lt_zero _), nofun⟩
  (empty.foldl_insertLeaf (keysOf_nodup freq) freq).heap

/-! ## One round -/

/-- The state of BuildMerged between two rounds, its heap in order: every Internal record has its lesser child on the left. -/
structure MergeHeap (freq : Vector Count 256) (t : Builder) : Prop where
  forest : MergeForest freq t
  heap : HeapProperty t.nodes t.heap
  leftLess : ∀ i l r f, nodeAt t.nodes i = .internal l r f → treeKey t.nodes l < treeKey t.nodes r

/-- A round takes the least tree l and the second least tree r, and puts l to the left of r. -/
structure TakesMinima (t : Builder) (l r : NodeIdx) (rest : List NodeIdx) : Prop where
  entries : t.heap.Perm (l :: r :: rest)
  least : ∀ y ∈ r :: rest, treeKey t.nodes l < treeKey t.nodes y
  second : ∀ y ∈ rest, treeKey t.nodes r < treeKey t.nodes y
  heap : HeapProperty t.nodes rest
  round : mergeStep t =
    { t with nodes := combined t l r, heap := heapInsert (combined t l r) rest t.nxt, nxt := t.nxt + 1#9 }

section Round

variable {freq : Vector Count 256} {t : Builder}

theorem MergeHeap.keys_nodup (h : MergeHeap freq t) : (t.heap.map (treeKey t.nodes)).Nodup :=
  h.forest.nodup.map_on fun x hx y hy => h.forest.treeKey_inj (h.forest.present x hx) (h.forest.present y hy)

theorem MergeHeap.takesMinima (h : MergeHeap freq t) (h1 : 1 < t.heap.length) : ∃ l r rest, TakesMinima t l r rest := by
  have taken := heapExtractMin_perm t.nodes (List.ne_nil_of_length_pos (Nat.zero_lt_of_lt h1))
  have taken' := heapExtractMin_perm t.nodes (h := (heapExtractMin t.nodes t.heap).2)
    (List.ne_nil_of_length_pos (by rw [heapExtractMin_length]; omega))
  have heap := heapProperty_heapExtractMin h.heap h.keys_nodup
  have least := heapExtractMin_fst_lt h.heap
  have less := compareTrees_eq_lt_iff.mpr (least _ (taken'.mem_iff.mpr (List.mem_cons_self ..)))
  have keys := (List.nodup_cons.mp ((taken.map _).nodup_iff.mp h.keys_nodup)).2
  refine ⟨_, _, _, taken.trans (taken'.cons _), fun y hy => least y (taken'.mem_iff.mpr hy),
    heapExtractMin_fst_lt heap, heapProperty_heapExtractMin heap keys, ?_⟩
  simp only [mergeStep, mergeNode, less, if_true, combined]

/-- A round keeps the heap in order. -/
theorem MergeHeap.mergeStep (h : MergeHeap freq t) (h1 : 1 < t.heap.length) : MergeHeap freq (mergeStep t) := by
  obtain ⟨l, r, rest, entries, least, -, heap, round⟩ := h.takesMinima h1
  have forest := h.forest.mergeStep h1
  rw [round] at forest ⊢
  have present {x : NodeIdx} (hx : x ∈ l :: r :: rest) : (nodeAt t.nodes x).nv = true :=
    h.forest.present x (entries.mem_iff.mpr hx)
  have key {x : NodeIdx} (hx : (nodeAt t.nodes x).nv = true) : treeKey (combined t l r) x = treeKey t.nodes x :=
    h.forest.treeKey_combined h1 hx
  refine ⟨forest, heapProperty_heapInsert (heap.congr fun x hx => key (present (by simp [hx]))) fun x hx same => ?_, ?_⟩
  · have isNew : (nodeAt (combined t l r) t.nxt).nv = true := by rw [nodeAt_combined h.forest h1, if_pos rfl, nv_internal]
    have hx' := present (List.mem_cons_of_mem l (List.mem_cons_of_mem r hx))
    have old : (nodeAt (combined t l r) x).nv = true := by rwa [nodeAt_combined_of_nv h.forest h1 hx']
    obtain rfl := forest.treeKey_inj old isNew same
    exact absurd (h.forest.lt_nxt hx') (Nat.lt_irrefl _)
  · intro i a b f e
    dsimp only at e ⊢
    rw [nodeAt_combined h.forest h1] at e
    split at e
    case isTrue =>
      cases e
      rw [key (present (by simp)), key (present (by simp))]
      exact least _ (by simp)
    case isFalse =>
      have ha := (h.forest.of_isChildOf (i := a) (p := i) (by simp [isChildOf, e, Node.left])).1
      have hb := (h.forest.of_isChildOf (i := b) (p := i) (by simp [isChildOf, e, Node.right])).1
      rw [key ha, key hb]
      exact h.leftLess i a b f e

end Round

theorem mergeHeap_leafPhase {freq : Vector Count 256} (nonempty : keysOf freq ≠ []) : MergeHeap freq (leafPhase freq) where
  forest := mergeForest_leafPhase nonempty
  heap := heapProperty_leafPhase freq
  leftLess i l r f e := by simpa [e] using isInternal_leafPhase freq i

theorem keysOf_ne_nil {freq : Vector Count 256} (many : 2 ≤ (keysOf freq).length) : keysOf freq ≠ [] :=
  List.ne_nil_of_length_pos (Nat.zero_lt_of_lt many)

/-- Settles O38: every round puts the lesser tree on the left, and no later round changes the keys of its children. -/
theorem leftChildComparesLess : Obligations.LeftChildComparesLess := by
  intro freq i l r f many e
  rw [buildTree_of_two_le many] at e ⊢
  have ordered : MergeHeap freq (mergeLoop (keysOf freq).length (leafPhase freq)) :=
    mergeLoop_keeps (fun _ => .mergeStep) _ (mergeHeap_leafPhase (keysOf_ne_nil many))
  exact compareTrees_eq_lt_iff.mpr (ordered.leftLess i l r f e)

/-! ## Removing the minimum by a scan (R173) -/

theorem minimumOf_spec (nodes : Vector Node 511) (x : NodeIdx) (xs : List NodeIdx) :
    minimumOf nodes x xs ∈ x :: xs ∧ ∀ y ∈ x :: xs, treeKey nodes (minimumOf nodes x xs) ≤ treeKey nodes y := by
  induction xs generalizing x with
  | nil => simp [minimumOf]
  | cons z zs ih =>
    by_cases less : treeLess nodes z x = true
    · obtain ⟨mem, least⟩ := ih z
      rw [show minimumOf nodes x (z :: zs) = minimumOf nodes z zs by simp [minimumOf, less]]
      refine ⟨List.mem_cons_of_mem x mem, List.forall_mem_cons.mpr ⟨?_, least⟩⟩
      exact (least z (List.mem_cons_self ..)).trans (treeLess_iff.mp less).le
    · obtain ⟨mem, least⟩ := ih x
      rw [show minimumOf nodes x (z :: zs) = minimumOf nodes x zs by simp [minimumOf, less]]
      obtain ⟨leastHead, leastTail⟩ := List.forall_mem_cons.mp least
      refine ⟨(List.cons_subset_cons x (List.subset_cons_self z zs)) mem, ?_⟩
      rw [List.forall_mem_cons, List.forall_mem_cons]
      exact ⟨leastHead, leastHead.trans (not_lt.mp (mt treeLess_iff.mpr less)), leastTail⟩

/-- The scan finds an entry that is less than all the others. -/
theorem minimumOf_eq {nodes : Vector Node 511} {x m : NodeIdx} {xs rest : List NodeIdx} (entries : (x :: xs).Perm (m :: rest))
    (least : ∀ y ∈ rest, treeKey nodes m < treeKey nodes y) : minimumOf nodes x xs = m := by
  obtain ⟨mem, le⟩ := minimumOf_spec nodes x xs
  refine (List.mem_cons.mp (entries.mem_iff.mp mem)).resolve_right fun other => ?_
  exact absurd (least _ other) (not_lt.mpr (le m (entries.mem_iff.mpr (List.mem_cons_self ..))))

/-- One round of the build by scanning, when l is the least tree and r the second. -/
theorem mergeByMinimum_succ {nodes : Vector Node 511} {xs rest : List NodeIdx} {l r : NodeIdx}
    (entries : xs.Perm (l :: r :: rest)) (least : ∀ y ∈ r :: rest, treeKey nodes l < treeKey nodes y)
    (second : ∀ y ∈ rest, treeKey nodes r < treeKey nodes y) (fuel : Nat) (nxt : NodeIdx) :
    ∃ ys, ys.Perm rest ∧ mergeByMinimum (fuel + 1) nodes xs nxt =
      mergeByMinimum fuel (setNode nodes nxt (.internal l r ((nodeAt nodes l).freq + (nodeAt nodes r).freq)))
        (nxt :: ys) (nxt + 1#9) := by
  match xs with
  | [] | [_] => simpa using entries.length_eq
  | x :: y :: xs =>
    have first : minimumOf nodes x (y :: xs) = l := minimumOf_eq entries least
    have left : ((x :: y :: xs).erase l).Perm (r :: rest) := by simpa using entries.erase l
    cases e : (x :: y :: xs).erase l with
    | nil => simp [e] at left
    | cons z zs =>
      rw [e] at left
      have next : minimumOf nodes z zs = r := minimumOf_eq left second
      refine ⟨(z :: zs).erase r, by simpa using left.erase r, ?_⟩
      simp only [mergeByMinimum, first, e, next]

theorem mergeByMinimum_singleton (fuel : Nat) (nodes : Vector Node 511) (x nxt : NodeIdx) :
    mergeByMinimum fuel nodes [x] nxt = (nodes, x, nxt) := by
  cases fuel <;> rfl

/-- When one tree is left, both builds end with it. -/
theorem mergeByMinimum_eq_takeRoot {freq : Vector Count 256} {t : Builder} (h : MergeForest freq t)
    (one : t.heap.length ≤ 1) {xs : List NodeIdx} (entries : xs.Perm t.heap) (fuel : Nat) :
    mergeByMinimum fuel t.nodes xs t.nxt = ((takeRoot t).nodes, (takeRoot t).root, (takeRoot t).nxt) := by
  obtain ⟨x, e⟩ := List.length_eq_one_iff.mp (Nat.le_antisymm one (List.length_pos_iff.mpr h.nonempty))
  rw [e, List.perm_singleton] at entries
  rw [entries, mergeByMinimum_singleton]
  simp only [takeRoot, e, heapExtractMin_singleton]

/-- The loop with the heap and the loop with the scan take the same trees in every round. -/
theorem mergeByMinimum_eq_mergeLoop {freq : Vector Count 256} {fuel : Nat} {t : Builder} (h : MergeHeap freq t)
    (enough : t.heap.length ≤ fuel + 1) {xs : List NodeIdx} (entries : xs.Perm t.heap) :
    mergeByMinimum fuel t.nodes xs t.nxt = ((takeRoot (mergeLoop fuel t)).nodes, (takeRoot (mergeLoop fuel t)).root,
      (takeRoot (mergeLoop fuel t)).nxt) := by
  induction fuel generalizing t xs with
  | zero => exact mergeByMinimum_eq_takeRoot h.forest enough entries 0
  | succ fuel ih =>
    unfold mergeLoop
    split
    case isFalse one => exact mergeByMinimum_eq_takeRoot h.forest (not_lt.mp one) entries _
    case isTrue h1 =>
      obtain ⟨l, r, rest, taken, least, second, -, round⟩ := h.takesMinima h1
      obtain ⟨ys, left, e⟩ := mergeByMinimum_succ (entries.trans taken) least second fuel t.nxt
      have kept := h.mergeStep h1
      have shorter := mergeStep_heap_length t h1
      rw [e]
      rw [round] at kept shorter ⊢
      exact ih kept (by omega) ((left.cons _).trans (heapInsert_perm ..).symm)

theorem leafPhase_nodes (freq : Vector Count 256) : (leafPhase freq).nodes = leafRecords freq := by
  have (keys : List Byte) (t : Builder) : (keys.foldl (insertLeaf freq) t).nodes =
      keys.foldl (fun nodes b => setNode nodes (leafIdx b) (.leaf b ((countOf freq b).setWidth 40))) t.nodes := by
    induction keys generalizing t with
    | nil => rfl
    | cons b bs ih => exact ih _
  exact this _ _

/-- Settles O35: both builds begin with the Leaves of the keys and take the same two trees in every round. -/
theorem heapBuildIsMinimumSelection : Obligations.HeapBuildIsMinimumSelection := by
  intro freq many
  have entries := leafPhase_heap_perm freq
  rw [buildTree_of_two_le many, ← leafPhase_nodes, ← leafPhase_nxt freq]
  refine (mergeByMinimum_eq_mergeLoop (mergeHeap_leafPhase (keysOf_ne_nil many)) ?_ entries.symm).symm
  simp [entries.length_eq]

end Sys2Proof.Machine
end

section
/-! SUPPORT. The commands of the tree builder (42_tree_builder.md R161 to R163, R174, R175), and what HT.BUILD leaves as a
function of the Frequency Table (R169, R176). -/

namespace Sys2Proof

/-- A row that takes a node index makes no command of a larger operand (30_encoding.md R99). -/
theorem decode_nodeOperand_error {op : BitVec 8} {fmt : Format} {make : NodeIdx → Instr}
    (row : opRow op = some ⟨fmt, fun _ imm => (nodeOperand imm).map make⟩) (a : Byte) {imm : Imm}
    (large : 511 < imm.toNat) : ∃ e, decode (commandWord op a imm) = .error e := by
  cases decoded : decode (commandWord op a imm) with
  | error e => exact ⟨e, rfl⟩
  | ok i =>
    have made := (decode_eq_ok_iff_rowMakes.mp decoded).2
    rw [opField_commandWord, immField_commandWord, rowMakes_iff row] at made
    simp [nodeOperand, large.not_ge] at made

namespace Machine

/-! ## HT.BUILD -/

/-- What HT.BUILD leaves is the build of the table, well formed; the rest is as it was (R161). -/
theorem core_of_exec_htBuild {s t : State} (unfaulted : s.unfaulted) (h : exec .htBuild s = .next t) :
    t.unfaulted ∧ t.core.freq = s.core.freq ∧
    TreeWellFormed s.core.freq t.core.nodes t.core.root t.core.total t.core.nxt ∧
    isBuildOf s.core.freq t.core.nodes t.core.root t.core.total t.core.nxt := by
  obtain ⟨nodes, root, total, nxt, wellFormed, isBuild, built⟩ := htBuildLeavesTheWellFormedTree.2.2 s unfaulted
  obtain rfl := Host.Outcome.next.inj (built.symm.trans h)
  exact ⟨unfaulted, rfl, wellFormed, isBuild⟩

/-- The build of a table is one tree. -/
theorem isBuildOf_unique {freq : Vector Count 256} {nodes nodes' : Vector Node 511} {root root' : NodeIdx}
    {total total' : Freq} {nxt nxt' : NodeIdx} (h : isBuildOf freq nodes root total nxt)
    (h' : isBuildOf freq nodes' root' total' nxt') : nodes = nodes' ∧ root = root' ∧ total = total' ∧ nxt = nxt' := by
  obtain ⟨rfl, rfl, rfl, rfl⟩ := h
  obtain ⟨rfl, rfl, rfl, rfl⟩ := h'
  exact ⟨rfl, rfl, rfl, rfl⟩

/-- Settles O39: HT.BUILD leaves the build of FREQ, and FREQ itself as it was. -/
theorem buildDependsOnTheTableAlone : Obligations.BuildDependsOnTheTableAlone := by
  intro s s' t t' unfaulted unfaulted' same h h'
  obtain ⟨still, kept, -, built⟩ := core_of_exec_htBuild unfaulted h
  obtain ⟨-, -, -, built'⟩ := core_of_exec_htBuild unfaulted' h'
  obtain ⟨u, again⟩ := exec_answers_next .htBuild t
  obtain ⟨-, -, -, rebuilt⟩ := core_of_exec_htBuild still again
  rw [← same] at built'
  rw [kept] at rebuilt
  obtain ⟨nodes, root, total, nxt⟩ := isBuildOf_unique built built'
  exact ⟨nodes, root, total, nxt, u, again, isBuildOf_unique rebuilt built⟩

/-- The total of a well-formed tree is the sum of the counts, whatever the number of keys. -/
theorem TreeWellFormed.total_eq {freq : Vector Count 256} {nodes : Vector Node 511} {root : NodeIdx} {total : Freq}
    {nxt : NodeIdx} (h : TreeWellFormed freq nodes root total nxt) : total.toNat = sumCounts freq := by
  match hk : keysOf freq with
  | [] =>
    obtain ⟨-, rfl, -⟩ := (treeWellFormed_of_nil hk).mp h
    simp [sumCounts_eq_sum_keys, hk]
  | [b] =>
    obtain ⟨-, rfl, -⟩ := (treeWellFormed_of_one hk).mp h
    rw [sumCounts_eq_sum_keys, hk, BitVec.toNat_setWidth_of_le (by decide)]
    simp
  | _ :: _ :: _ => exact ((treeWellFormed_of_two_le (by simp [hk])).mp h).totalFreq.2

/-- Settles O40: TOTAL is read from the root's record, and the tree is well formed. -/
theorem totalIsTheSumOfCounts : Obligations.TotalIsTheSumOfCounts := by
  intro s t unfaulted h
  obtain ⟨-, -, wellFormed, -, -, -, total⟩ := core_of_exec_htBuild unfaulted h
  exact ⟨total, wellFormed.total_eq⟩

theorem keysOf_eq_nil {freq : Vector Count 256} (empty : ∀ b, countOf freq b = 0#32) : keysOf freq = [] :=
  List.eq_nil_iff_forall_not_mem.mpr fun b hb => mem_keysOf.mp hb (empty b)

theorem keysOf_eq_singleton {freq : Vector Count 256} {b : Byte} (key : countOf freq b ≠ 0#32)
    (only : ∀ b', b' ≠ b → countOf freq b' = 0#32) : keysOf freq = [b] := by
  refine List.perm_singleton.mp ((List.perm_ext_iff_of_nodup (keysOf_nodup freq) (List.nodup_singleton b)).mpr fun b' => ?_)
  rw [mem_keysOf, List.mem_singleton]
  exact ⟨fun h => by_contra fun ne => h (only b' ne), fun e => e ▸ key⟩

/-- Settles O37: the well-formed tree of a table with at most one key is fixed record by record (10_state.md R36). -/
theorem htBuildOnNoKeyOrOneKey : Obligations.HtBuildOnNoKeyOrOneKey := by
  intro s unfaulted
  obtain ⟨nodes, root, total, nxt, wellFormed, -, built⟩ := htBuildLeavesTheWellFormedTree.2.2 s unfaulted
  constructor
  · intro empty
    obtain ⟨rfl, rfl, rfl, records⟩ := (treeWellFormed_of_nil (keysOf_eq_nil empty)).mp wellFormed
    exact ⟨nodes, records, built⟩
  · intro b key only
    obtain ⟨rfl, rfl, rfl, records⟩ := (treeWellFormed_of_one (keysOf_eq_singleton key only)).mp wellFormed
    exact ⟨nodes, records, built⟩

/-! ## HT.NODE and HT.NFREQ -/

/-- A command whose flag is 0 is NotReady (60_exceptions.md R289). -/
theorem exec_notReady {s : State} {i : Instr} {n : Need} (needs : needOf i = some n) (unfaulted : s.unfaulted)
    (missing : s.core.ready n = false) : exec i s = .next (s.faultNext 0x02#8 n.info) :=
  exec_of_raise (f := .notReady n) unfaulted (by rw [needs, withNeed_missing _ missing])

/-- Fields shifted into place one after the other are shifted as far as the fields below them are wide. -/
theorem or_shiftLeft_fields {w : Nat} (right left byte low : BitVec w) :
    ((right <<< 9 ||| left) <<< 8 ||| byte) <<< 2 ||| low = low ||| byte <<< 2 ||| left <<< 10 ||| right <<< 19 := by
  simp only [BitVec.shiftLeft_or_distrib, ← BitVec.shiftLeft_add]
  rw [BitVec.or_comm _ low, BitVec.or_comm _ (byte <<< 2), BitVec.or_comm _ (left <<< _), ← BitVec.or_assoc,
    ← BitVec.or_assoc]

/-- The fields of a record, put together as one string, stand in the data word at their places (R174). -/
theorem node_fields_eq_or (right left : NodeIdx) (byte : Byte) (low : BitVec 2) :
    (0#12 ++ right ++ left ++ byte ++ low : Data) =
      low.setWidth 40 ||| byte.setWidth 40 <<< 2 ||| left.setWidth 40 <<< 10 ||| right.setWidth 40 <<< 19 := by
  calc (0#12 ++ right ++ left ++ byte ++ low : Data)
    _ = (0#12 ++ right ++ left ++ byte ++ low).setWidth 40 := (BitVec.setWidth_eq _).symm
    _ = ((right.setWidth 40 <<< 9 ||| left.setWidth 40) <<< 8 ||| byte.setWidth 40) <<< 2 ||| low.setWidth 40 := by
      simp only [BitVec.setWidth_append_eq_shiftLeft_setWidth_or, BitVec.setWidth_zero, BitVec.zero_shiftLeft,
        BitVec.zero_or]
    _ = _ := or_shiftLeft_fields ..

@[simp] theorem dataWord_absent : Node.absent.dataWord = 0#40 := rfl

@[simp] theorem dataWord_leaf (b : Byte) (f : Freq) :
    (Node.leaf b f).dataWord = 0#12 ++ 511#9 ++ 511#9 ++ b ++ 0b01#2 := by
  have low : (0b01#2).setWidth 40 = 1#40 ||| (BitVec.ofBool false).setWidth 40 <<< 1 := by decide
  rw [node_fields_eq_or, low]
  rfl

@[simp] theorem dataWord_internal (l r : NodeIdx) (f : Freq) :
    (Node.internal l r f).dataWord = 0#12 ++ r ++ l ++ 0#8 ++ 0b11#2 := by
  have low : (0b11#2).setWidth 40 = 1#40 ||| (BitVec.ofBool true).setWidth 40 <<< 1 := by decide
  rw [node_fields_eq_or, low]
  rfl

@[simp] theorem freq_absent : Node.absent.freq = 0#40 := rfl
@[simp] theorem freq_leaf (b : Byte) (f : Freq) : (Node.leaf b f).freq = f := rfl
@[simp] theorem freq_internal (l r : NodeIdx) (f : Freq) : (Node.internal l r f).freq = f := rfl

section Commands

variable {s : State} {i : NodeIdx}

theorem exec_htNode_null (unfaulted : s.unfaulted) (tree : s.core.tv = true) :
    exec (.htNode 511#9) s = .next (s.faultNext 0x04#8 511#40) :=
  exec_of_raise (f := .indexRange 511#32) unfaulted (withNeed_ready (n := .tree) _ tree)

theorem exec_htNode (unfaulted : s.unfaulted) (tree : s.core.tv = true) (inRange : i ≠ 511#9) :
    exec (.htNode i) s = .next (s.okNext s.core (nodeAt s.core.nodes i).dataWord) :=
  exec_of_respond unfaulted ((withNeed_ready (n := .tree) _ tree).trans (if_neg inRange))

theorem exec_htNfreq_null (unfaulted : s.unfaulted) (tree : s.core.tv = true) :
    exec (.htNfreq 511#9) s = .next (s.faultNext 0x04#8 511#40) :=
  exec_of_raise (f := .indexRange 511#32) unfaulted (withNeed_ready (n := .tree) _ tree)

theorem exec_htNfreq (unfaulted : s.unfaulted) (tree : s.core.tv = true) (inRange : i ≠ 511#9) :
    exec (.htNfreq i) s = .next (s.okNext s.core (nodeAt s.core.nodes i).freq) :=
  exec_of_respond unfaulted ((withNeed_ready (n := .tree) _ tree).trans (if_neg inRange))

end Commands

/-- A node index in the operand field of a command word (30_encoding.md R95). -/
theorem append_nodeIdx_eq_commandWord (op : BitVec 8) (i : NodeIdx) :
    op ++ 0#8 ++ 0#16 ++ 0#23 ++ i = commandWord op 0#8 (i.setWidth 32) := by
  have widened : i.setWidth 32 = 0#23 ++ i := BitVec.setWidth_eq_append (by decide)
  rw [widened, commandWord]
  exact BitVec.append_assoc

/-- Settles O41: the flag, then the index, are checked, and the record read is packed field by field. -/
theorem htNodeReadsARecord : Obligations.HtNodeReadsARecord := by
  refine ⟨fun i => ⟨(append_nodeIdx_eq_commandWord _ i).symm, (decode_encode_iff (.htNode i)).mpr rfl⟩,
    fun imm large => decode_nodeOperand_error rfl _ large, fun s i => exec_notReady (n := .tree) rfl,
    fun s i unfaulted tree => ⟨?_, fun inRange => ?_⟩⟩
  · rintro rfl
    exact exec_htNode_null unfaulted tree
  · rw [exec_htNode unfaulted tree inRange]
    refine ⟨fun e => ?_, fun b f e => ?_, fun l r f e => ?_⟩
    · rw [e, dataWord_absent]
    · rw [e, dataWord_leaf]
    · rw [e, dataWord_internal]

/-- Settles O42: the flag, then the index, are checked, and the record's frequency is read. -/
theorem htNfreqReadsAFrequency : Obligations.HtNfreqReadsAFrequency := by
  refine ⟨fun i => ⟨(append_nodeIdx_eq_commandWord _ i).symm, (decode_encode_iff (.htNfreq i)).mpr rfl⟩,
    fun imm large => decode_nodeOperand_error rfl _ large, fun s i => exec_notReady (n := .tree) rfl,
    fun s i unfaulted tree => ⟨?_, fun inRange => ?_⟩⟩
  · rintro rfl
    exact exec_htNfreq_null unfaulted tree
  · rw [exec_htNfreq unfaulted tree inRange]
    refine ⟨fun e => ?_, fun b f e => ?_, fun l r f e => ?_⟩
    · rw [e, freq_absent]
    · rw [e, freq_leaf]
    · rw [e, freq_internal]

end Machine

end Sys2Proof
end

section
/-! SUPPORT. The code table of a well-formed tree (43_code_table.md R200 to R205): Derive enters a byte with a path exactly
when the path reaches the byte's Leaf, one path reaches each record, and a Leaf has no record below it. -/

namespace Sys2Proof.Machine

/-! ## Paths to Leaves (R200) -/

/-- The path from the record at i ends at a Leaf of byte b. -/
def ReachesLeaf (nodes : Vector Node 511) (i : NodeIdx) (path : Bits) (b : Byte) : Prop :=
  ∃ j f, followPath nodes i path = some j ∧ nodeAt nodes j = .leaf b f

section Record

variable {nodes : Vector Node 511} {i l r : NodeIdx} {path : Bits} {b b' : Byte} {f : Freq}

theorem not_reachesLeaf_of_absent (h : nodeAt nodes i = .absent) : ¬ ReachesLeaf nodes i path b := by
  rintro ⟨j, g, hj, leaf⟩
  cases path with
  | nil =>
    cases hj
    rw [h] at leaf
    cases leaf
  | cons => simp [followPath, h] at hj

theorem followPath_of_leaf (h : nodeAt nodes i = .leaf b f) {j : NodeIdx} (hj : followPath nodes i path = some j) :
    path = [] ∧ i = j := by
  cases path with
  | nil => exact ⟨rfl, Option.some.inj hj⟩
  | cons => simp [followPath, h] at hj

theorem reachesLeaf_of_leaf (h : nodeAt nodes i = .leaf b' f) : ReachesLeaf nodes i path b ↔ path = [] ∧ b = b' := by
  constructor
  · rintro ⟨j, g, hj, leaf⟩
    obtain ⟨rfl, rfl⟩ := followPath_of_leaf h hj
    cases h.symm.trans leaf
    exact ⟨rfl, rfl⟩
  · rintro ⟨rfl, rfl⟩
    exact ⟨i, f, rfl, h⟩

theorem not_reachesLeaf_nil_of_internal (h : nodeAt nodes i = .internal l r f) : ¬ ReachesLeaf nodes i [] b := by
  rintro ⟨j, g, hj, leaf⟩
  cases hj
  rw [h] at leaf
  cases leaf

/-- A NULL left child needs no case of its own: no path from it reaches a Leaf. -/
theorem reachesLeaf_cons_of_internal (h : nodeAt nodes i = .internal l r f) (bit : Bool) :
    ReachesLeaf nodes i (bit :: path) b ↔ ReachesLeaf nodes (if bit then r else l) path b := by
  cases bit with
  | true => simp [ReachesLeaf, followPath, h]
  | false =>
    by_cases hl : l = Config.null
    · subst hl
      simpa [followPath, h, ReachesLeaf] using not_reachesLeaf_of_absent (path := path) (b := b) (nodeAt_null nodes)
    · simp [ReachesLeaf, followPath, h, hl]

end Record

/-! ## What Derive enters (R202) -/

section Derive

variable {nodes : Vector Node 511} {fuel : Nat} {i l r : NodeIdx} {path : Bits} {code : Vector (Option Bits) 256} {b : Byte}
  {f : Freq}

theorem derive_of_absent (h : nodeAt nodes i = .absent) : derive nodes fuel i path code = code := by
  cases fuel with
  | zero => rfl
  | succ => rw [derive, h]

theorem derive_succ_of_leaf (h : nodeAt nodes i = .leaf b f) :
    derive nodes (fuel + 1) i path code = setCode code b path := by
  rw [derive, h]

/-- A NULL left child needs no case of its own: Derive enters nothing there. -/
theorem derive_succ_of_internal (h : nodeAt nodes i = .internal l r f) : derive nodes (fuel + 1) i path code =
    derive nodes fuel r (path ++ [true]) (derive nodes fuel l (path ++ [false]) code) := by
  rw [derive, h]
  dsimp only
  split
  next hl =>
    subst hl
    rw [derive_of_absent (nodeAt_null nodes)]
  next => rfl

/-- An entry of the table after Derive was there before, or it is a path to the byte's Leaf. -/
theorem reachesLeaf_of_codeAt_derive {s : Bits} (h : codeAt (derive nodes fuel i path code) b = some s) :
    codeAt code b = some s ∨ ∃ q, s = path ++ q ∧ ReachesLeaf nodes i q b := by
  induction fuel generalizing i path code with
  | zero => exact .inl h
  | succ fuel ih =>
    cases e : nodeAt nodes i with
    | absent =>
      rw [derive_of_absent e] at h
      exact .inl h
    | leaf b' f =>
      rw [derive_succ_of_leaf e, codeAt_setCode] at h
      split at h
      next same =>
        cases h
        exact .inr ⟨[], (List.append_nil _).symm, (reachesLeaf_of_leaf e).mpr ⟨rfl, same⟩⟩
      next => exact .inl h
    | internal l r f =>
      have step {bit : Bool} (hq : ∃ q, s = path ++ [bit] ++ q ∧ ReachesLeaf nodes (if bit then r else l) q b) :
          ∃ q, s = path ++ q ∧ ReachesLeaf nodes i q b := by
        obtain ⟨q, hs, reach⟩ := hq
        exact ⟨bit :: q, by simpa using hs, (reachesLeaf_cons_of_internal e bit).mpr reach⟩
      rw [derive_succ_of_internal e] at h
      rcases ih h with h | right
      · exact (ih h).imp_right (step (bit := false))
      · exact .inr (step (bit := true) right)

theorem codeAt_derive_isSome_of_isSome (h : (codeAt code b).isSome) :
    (codeAt (derive nodes fuel i path code) b).isSome := by
  induction fuel generalizing i path code with
  | zero => exact h
  | succ fuel ih =>
    cases e : nodeAt nodes i with
    | absent => rwa [derive_of_absent e]
    | leaf b' f =>
      rw [derive_succ_of_leaf e, codeAt_setCode]
      split
      · rfl
      · exact h
    | internal l r f =>
      rw [derive_succ_of_internal e]
      exact ih (ih h)

/-- Within its bound Derive enters every byte whose Leaf a path reaches. -/
theorem codeAt_derive_isSome_of_reachesLeaf {q : Bits} (h : ReachesLeaf nodes i q b) (bound : q.length < fuel) :
    (codeAt (derive nodes fuel i path code) b).isSome := by
  induction fuel generalizing i path code q with
  | zero => exact absurd bound (Nat.not_lt_zero _)
  | succ fuel ih =>
    cases e : nodeAt nodes i with
    | absent => exact absurd h (not_reachesLeaf_of_absent e)
    | leaf b' f =>
      obtain ⟨-, rfl⟩ := (reachesLeaf_of_leaf e).mp h
      rw [derive_succ_of_leaf e, codeAt_setCode, if_pos rfl]
      rfl
    | internal l r f =>
      rw [derive_succ_of_internal e]
      cases q with
      | nil => exact absurd h (not_reachesLeaf_nil_of_internal e)
      | cons bit q =>
        rw [reachesLeaf_cons_of_internal e] at h
        have bound' : q.length < fuel := Nat.lt_of_succ_lt_succ bound
        cases bit with
        | false => exact codeAt_derive_isSome_of_isSome (ih h bound')
        | true => exact ih h bound'

end Derive

section DeriveCodes

variable {nodes : Vector Node 511} {root : NodeIdx} {b : Byte}

theorem deriveCodes_of_internal (internal : (nodeAt nodes root).isInternal = true) :
    deriveCodes nodes root = derive nodes Config.nnode root [] (Vector.replicate 256 none) := if_pos internal

/-- A root that is no Internal node yields no entry (R203). -/
theorem codeAt_deriveCodes_of_not_internal (h : (nodeAt nodes root).isInternal = false) (b : Byte) :
    codeAt (deriveCodes nodes root) b = none := by
  simp [deriveCodes, h]

theorem reachesLeaf_of_codeAt_deriveCodes {s : Bits} (h : codeAt (deriveCodes nodes root) b = some s) :
    (nodeAt nodes root).isInternal = true ∧ ReachesLeaf nodes root s b := by
  cases internal : (nodeAt nodes root).isInternal with
  | false => simp [codeAt_deriveCodes_of_not_internal internal] at h
  | true =>
    rw [deriveCodes_of_internal internal] at h
    rcases reachesLeaf_of_codeAt_derive h with h | ⟨q, rfl, reach⟩
    · simp at h
    · exact ⟨rfl, reach⟩

end DeriveCodes

/-! ## The tree that the paths run in (10_state.md R36) -/

/-- What the three cases of the well-formed tree share: indices fall from parent to child, a node's two children differ, a Leaf
stands at the index of its byte, and every record but the root has one parent. -/
structure RootedTree (nodes : Vector Node 511) (root : NodeIdx) : Prop where
  below : ChildrenBelow nodes
  distinct : ∀ (i l r : NodeIdx) (f : Freq), nodeAt nodes i = .internal l r f → l ≠ r
  leafAt : ∀ (i : NodeIdx) (b : Byte) (f : Freq), nodeAt nodes i = .leaf b f → i = leafIdx b
  parent : ∀ i : NodeIdx, (nodeAt nodes i).nv = true → i ≠ root → ∃ p, isChildOf nodes i p
  parentUnique : ∀ i p q : NodeIdx, (nodeAt nodes i).nv = true → isChildOf nodes i p → isChildOf nodes i q → p = q

theorem ne_null_of_nv {nodes : Vector Node 511} {i : NodeIdx} (h : (nodeAt nodes i).nv = true) : i ≠ Config.null := by
  rintro rfl
  simp at h

theorem nv_of_isInternal {n : Node} (h : n.isInternal = true) : n.nv = true := by
  cases n with
  | internal => rfl
  | absent | leaf => cases h

theorem exists_of_isChildOf {nodes : Vector Node 511} {i p : NodeIdx} (h : isChildOf nodes i p) :
    ∃ l r f, nodeAt nodes p = .internal l r f ∧ (l = i ∨ r = i) := by
  obtain ⟨internal, child⟩ := h
  cases e : nodeAt nodes p with
  | internal l r f =>
    rw [e] at child
    exact ⟨l, r, f, rfl, child⟩
  | absent | leaf => simp [e] at internal

theorem isChildOf_of_internal {nodes : Vector Node 511} {p l r : NodeIdx} {f : Freq} (h : nodeAt nodes p = .internal l r f)
    (bit : Bool) : isChildOf nodes (if bit then r else l) p := by
  rw [isChildOf, h]
  cases bit with
  | false => exact ⟨rfl, .inl rfl⟩
  | true => exact ⟨rfl, .inr rfl⟩

theorem ChildrenBelow.child_lt {nodes : Vector Node 511} (below : ChildrenBelow nodes) {i p : NodeIdx}
    (h : isChildOf nodes i p) (ne : i ≠ Config.null) : i.toNat < p.toNat := by
  obtain ⟨l, r, f, e, child⟩ := exists_of_isChildOf h
  obtain ⟨-, hl, hr⟩ := below p l r f e
  rcases child with rfl | rfl
  · exact hl.resolve_left ne
  · exact hr

/-- An Internal record of the merged tree is one of the n-1, over two different present records. -/
theorem MergedTree.of_internal {freq : Vector Count 256} {nodes : Vector Node 511} {root nxt : NodeIdx} {total : Freq}
    (h : MergedTree freq nodes root total nxt) {i l r : NodeIdx} {f : Freq} (e : nodeAt nodes i = .internal l r f) :
    i.toNat < 255 + (keysOf freq).length ∧ l ≠ r ∧ (nodeAt nodes l).nv = true ∧ (nodeAt nodes r).nv = true := by
  obtain ⟨hi, -, -⟩ := h.childrenBelow i l r f e
  have hi' : i.toNat < 255 + (keysOf freq).length := by
    by_contra hc
    simp [h.others i (Nat.not_lt.mp hc)] at e
  obtain ⟨l', r', f', e', distinct, -, -, hl, hr, -⟩ := h.internals i hi hi'
  cases e.symm.trans e'
  exact ⟨hi', distinct, hl, hr⟩

theorem MergedTree.leafAt {freq : Vector Count 256} {nodes : Vector Node 511} {root nxt : NodeIdx} {total : Freq}
    (h : MergedTree freq nodes root total nxt) {i : NodeIdx} {b : Byte} {f : Freq} (e : nodeAt nodes i = .leaf b f) :
    i = leafIdx b ∧ countOf freq b ≠ 0#32 := by
  rcases Nat.lt_or_ge i.toNat 256 with hi | hi
  · obtain ⟨b', rfl⟩ := exists_leafIdx_of_lt hi
    rw [h.leaves] at e
    split at e <;> cases e
    exact ⟨rfl, ‹_›⟩
  · rcases Nat.lt_or_ge i.toNat (255 + (keysOf freq).length) with hi' | hi'
    · obtain ⟨l, r, g, e', -⟩ := h.internals i hi hi'
      cases e.symm.trans e'
    · simp [h.others i hi'] at e

theorem MergedTree.rootedTree {freq : Vector Count 256} {nodes : Vector Node 511} {root nxt : NodeIdx} {total : Freq}
    (h : MergedTree freq nodes root total nxt) : RootedTree nodes root where
  below := h.childrenBelow
  distinct _ _ _ _ e := (h.of_internal e).2.1
  leafAt _ _ _ e := (h.leafAt e).1
  parent i hi ne := (h.oneParent i hi ne).exists
  parentUnique i p q hi hp hq := by
    by_cases ne : i = root
    · obtain ⟨l, r, f, e, -⟩ := exists_of_isChildOf hp
      have last := (h.of_internal e).1
      have lower := h.childrenBelow.child_lt hp (ne_null_of_nv hi)
      have := h.rootIdx
      rw [ne] at lower
      omega
    · exact (h.oneParent i hi ne).unique hp hq

theorem rootedTree_of_one {b : Byte} {n : Freq} {nodes : Vector Node 511}
    (below : ChildrenBelow nodes) (records : ∀ i : NodeIdx, nodeAt nodes i =
      if i = 256#9 then .internal 511#9 (leafIdx b) n else if i = leafIdx b then .leaf b n else .absent) :
    RootedTree nodes 256#9 := by
  have root_of_isChildOf {i p : NodeIdx} (h : isChildOf nodes i p) : p = 256#9 := by
    by_contra ne
    obtain ⟨l, r, f, e, -⟩ := exists_of_isChildOf h
    rw [records, if_neg ne] at e
    split at e <;> cases e
  refine ⟨below, fun i l r f e => ?_, fun i b' f e => ?_, fun i hi ne => ⟨256#9, ?_⟩, fun i p q _ hp hq => ?_⟩
  · rw [records] at e
    split at e
    · cases e
      exact (leafIdx_ne_null b).symm
    · split at e <;> cases e
  · rw [records] at e
    split at e
    · cases e
    · split at e <;> cases e
      assumption
  · rw [records, if_neg ne] at hi
    split at hi
    · subst i
      simp [isChildOf, records, Node.left, Node.right]
    · cases hi
  · rw [root_of_isChildOf hp, root_of_isChildOf hq]

/-- Every well-formed tree is one of these. -/
theorem TreeWellFormed.rootedTree {freq : Vector Count 256} {nodes : Vector Node 511} {root nxt : NodeIdx} {total : Freq}
    (h : TreeWellFormed freq nodes root total nxt) : RootedTree nodes root := by
  match hk : keysOf freq with
  | [] =>
    obtain ⟨rfl, -, -, records⟩ := (treeWellFormed_of_nil hk).mp h
    have not_internal (i l r : NodeIdx) (f : Freq) : nodeAt nodes i ≠ .internal l r f := by
      rw [records]
      split <;> simp
    have no_child {i p : NodeIdx} (hp : isChildOf nodes i p) : False := by
      obtain ⟨l, r, f, e, -⟩ := exists_of_isChildOf hp
      exact not_internal _ _ _ _ e
    refine ⟨h.childrenBelow, fun i l r f e => (not_internal _ _ _ _ e).elim, fun i b f e => ?_, fun i hi ne => ?_,
      fun i p q _ hp _ => (no_child hp).elim⟩
    · rw [records] at e
      split at e <;> cases e
      assumption
    · rw [records, if_neg ne] at hi
      cases hi
  | [b] =>
    have below := h.childrenBelow
    obtain ⟨rfl, -, -, records⟩ := (treeWellFormed_of_one hk).mp h
    exact rootedTree_of_one below records
  | b :: b' :: bs => exact ((treeWellFormed_of_two_le (by simp [hk])).mp h).rootedTree

/-! ## One path to each record -/

section Paths

variable {nodes : Vector Node 511} {root i j : NodeIdx} {p q : Bits}

theorem bit_eq_of_child_eq {l r : NodeIdx} (distinct : l ≠ r) {x y : Bool}
    (h : (if x then r else l) = if y then r else l) : x = y := by
  match x, y with
  | true, true | false, false => rfl
  | true, false => exact absurd h.symm distinct
  | false, true => exact absurd h distinct

/-- The last step of a path: from an Internal record to its child on the bit's side. -/
theorem followPath_concat {bit : Bool} (h : followPath nodes i (p ++ [bit]) = some j) :
    ∃ k l r f, followPath nodes i p = some k ∧ nodeAt nodes k = .internal l r f ∧ (if bit then r else l) = j := by
  rw [followPath_append, Option.bind_eq_some_iff] at h
  obtain ⟨k, hk, step⟩ := h
  cases e : nodeAt nodes k with
  | absent | leaf => simp [followPath, e] at step
  | internal l r f =>
    refine ⟨k, l, r, f, hk, e, ?_⟩
    cases bit with
    | true => simpa [followPath, e] using step
    | false =>
      have left : l ≠ Config.null ∧ l = j := by simpa [followPath, e] using step
      exact left.2

/-- The index falls with every step. -/
theorem ChildrenBelow.length_add_le (below : ChildrenBelow nodes) (h : followPath nodes i p = some j) :
    p.length + j.toNat ≤ i.toNat := by
  induction p generalizing i with
  | nil =>
    cases h
    simp
  | cons bit p ih =>
    cases e : nodeAt nodes i with
    | absent | leaf => simp [followPath, e] at h
    | internal l r f =>
      obtain ⟨-, hl, hr⟩ := below i l r f e
      rw [followPath, e] at h
      dsimp only at h
      rw [List.length_cons]
      split at h
      · have := ih h
        omega
      · split at h
        · cases h
        · have := ih h
          have := hl.resolve_left ‹_›
          omega

/-- No two paths from one record reach the same record: their last steps come from its one parent, to a different child each
if the bits differ. -/
theorem RootedTree.followPath_injective (tree : RootedTree nodes root) (hj : (nodeAt nodes j).nv = true)
    (hp : followPath nodes i p = some j) (hq : followPath nodes i q = some j) : p = q := by
  have nil_of_loop {p : Bits} {i : NodeIdx} (h : followPath nodes i p = some i) : p = [] := by
    have := tree.below.length_add_le h
    exact List.eq_nil_of_length_eq_zero (by omega)
  induction p using List.reverseRecOn generalizing j q with
  | nil =>
    cases hp
    exact (nil_of_loop hq).symm
  | append_singleton p x ih =>
    induction q using List.reverseRecOn with
    | nil =>
      cases hq
      exact nil_of_loop hp
    | append_singleton q y _ =>
      obtain ⟨k, l, r, f, hk, e, hx⟩ := followPath_concat hp
      obtain ⟨k', l', r', f', hk', e', hy⟩ := followPath_concat hq
      obtain rfl := tree.parentUnique j k k' hj (hx ▸ isChildOf_of_internal e x) (hy ▸ isChildOf_of_internal e' y)
      cases e.symm.trans e'
      rw [ih (by rw [e]; rfl) hk hk', bit_eq_of_child_eq (tree.distinct k l r f e) (hx.trans hy.symm)]

/-- A path leads to every record: one more step than the path to its parent. -/
theorem RootedTree.exists_followPath (tree : RootedTree nodes root) (hj : (nodeAt nodes j).nv = true) :
    ∃ p, followPath nodes root p = some j := by
  induction above : 512 - j.toNat using Nat.strong_induction_on generalizing j with
  | _ n ih =>
    by_cases ne : j = root
    · exact ⟨[], by rw [ne]; rfl⟩
    · obtain ⟨k, child⟩ := tree.parent j hj ne
      have higher := tree.below.child_lt child (ne_null_of_nv hj)
      have := k.isLt
      obtain ⟨p, hp⟩ := ih (512 - k.toNat) (by omega) (nv_of_isInternal child.1) rfl
      obtain ⟨l, r, f, e, rfl | rfl⟩ := exists_of_isChildOf child
      · exact ⟨p ++ [false], by simp [followPath_append, hp, followPath, e, ne_null_of_nv hj]⟩
      · exact ⟨p ++ [true], by simp [followPath_append, hp, followPath, e]⟩

/-- The Leaf that the path reaches is the one at the index of its byte. -/
theorem RootedTree.reachesLeaf_iff (tree : RootedTree nodes root) {b : Byte} :
    ReachesLeaf nodes i p b ↔ followPath nodes i p = some (leafIdx b) ∧ ∃ f, nodeAt nodes (leafIdx b) = .leaf b f := by
  constructor
  · rintro ⟨j, f, hj, leaf⟩
    obtain rfl := tree.leafAt j b f leaf
    exact ⟨hj, f, leaf⟩
  · rintro ⟨hj, f, leaf⟩
    exact ⟨leafIdx b, f, hj, leaf⟩

theorem RootedTree.reachesLeaf_unique (tree : RootedTree nodes root) {b : Byte} (hp : ReachesLeaf nodes i p b)
    (hq : ReachesLeaf nodes i q b) : p = q := by
  obtain ⟨hp, f, leaf⟩ := tree.reachesLeaf_iff.mp hp
  obtain ⟨hq, -⟩ := tree.reachesLeaf_iff.mp hq
  exact tree.followPath_injective (by rw [leaf]; rfl) hp hq

/-- No path to a Leaf begins a path to another Leaf. -/
theorem eq_of_reachesLeaf_of_begins {b b' : Byte} (hp : ReachesLeaf nodes i p b) (hq : ReachesLeaf nodes i q b')
    (begins : p <+: q) : b = b' := by
  obtain ⟨t, rfl⟩ := begins
  obtain ⟨j, f, hj, leaf⟩ := hp
  obtain ⟨j', f', hj', leaf'⟩ := hq
  rw [followPath_append, hj] at hj'
  obtain ⟨-, rfl⟩ := followPath_of_leaf leaf hj'
  cases leaf.symm.trans leaf'
  rfl

/-- Under an Internal root the code of a byte is the path to its Leaf. -/
theorem RootedTree.codeAt_deriveCodes_iff (tree : RootedTree nodes root) (internal : (nodeAt nodes root).isInternal = true)
    {b : Byte} {s : Bits} : codeAt (deriveCodes nodes root) b = some s ↔ ReachesLeaf nodes root s b := by
  refine ⟨fun h => (reachesLeaf_of_codeAt_deriveCodes h).2, fun reach => ?_⟩
  have bound : s.length < Config.nnode := by
    obtain ⟨j, f, hj, -⟩ := reach
    have shorter := tree.below.length_add_le hj
    have : root.toNat ≠ 511 := fun e => ne_null_of_nv (nv_of_isInternal internal) (BitVec.eq_of_toNat_eq e)
    have := root.isLt
    unfold Config.nnode
    omega
  have entered : (codeAt (deriveCodes nodes root) b).isSome := by
    rw [deriveCodes_of_internal internal]
    exact codeAt_derive_isSome_of_reachesLeaf reach bound
  obtain ⟨s', hs'⟩ := Option.isSome_iff_exists.mp entered
  rw [hs', tree.reachesLeaf_unique (reachesLeaf_of_codeAt_deriveCodes hs').2 reach]

end Paths

/-! ## The code table of a Frequency Table -/

section Table

variable {freq : Vector Count 256} {nodes : Vector Node 511} {root nxt : NodeIdx} {total : Freq}

/-- The root is Internal exactly when there is a key (R203). -/
theorem TreeWellFormed.root_isInternal_iff (h : TreeWellFormed freq nodes root total nxt) :
    (nodeAt nodes root).isInternal = true ↔ keysOf freq ≠ [] := by
  match hk : keysOf freq with
  | [] =>
    obtain ⟨rfl, -, -, records⟩ := (treeWellFormed_of_nil hk).mp h
    simp [records]
  | [b] =>
    obtain ⟨rfl, -, -, records⟩ := (treeWellFormed_of_one hk).mp h
    simp [records]
  | b :: b' :: bs =>
    have many : 2 ≤ (keysOf freq).length := by simp [hk]
    have merged := (treeWellFormed_of_two_le many).mp h
    have := merged.rootIdx
    obtain ⟨l, r, f, e, -⟩ := merged.internals root (by omega) (by omega)
    simp [e]

/-- With a key in the table the bytes that have a Leaf are the keys. -/
theorem TreeWellFormed.leaf_iff (h : TreeWellFormed freq nodes root total nxt) (nonempty : keysOf freq ≠ []) (b : Byte) :
    (∃ f, nodeAt nodes (leafIdx b) = .leaf b f) ↔ countOf freq b ≠ 0#32 := by
  match hk : keysOf freq with
  | [] => exact absurd hk nonempty
  | [k] =>
    obtain ⟨-, -, -, records⟩ := (treeWellFormed_of_one hk).mp h
    have low : leafIdx b ≠ 256#9 := fun e => by
      have := leafIdx_lt b
      simp [e] at this
    rw [← mem_keysOf, hk, List.mem_singleton, records, if_neg low]
    by_cases same : b = k
    · simp [same]
    · simp [same, mt leafIdx_injective same]
  | _ :: _ :: _ =>
    have merged := (treeWellFormed_of_two_le (by simp [hk])).mp h
    rw [merged.leaves]
    by_cases key : countOf freq b = 0#32 <;> simp [key]

end Table

section Codes

variable {freq : Vector Count 256} {b : Byte} {s : Bits}

theorem rootedTree_buildTree (freq : Vector Count 256) : RootedTree (buildTree freq).nodes (buildTree freq).root :=
  (treeWellFormed_buildTree freq).rootedTree

theorem codeAt_codesOfTable_of_nil (empty : keysOf freq = []) (b : Byte) : codeAt (codesOfTable freq) b = none :=
  codeAt_deriveCodes_of_not_internal
    (Bool.eq_false_iff.mpr (mt (treeWellFormed_buildTree freq).root_isInternal_iff.mp (not_not.mpr empty))) b

theorem reachesLeaf_of_codeAt_codesOfTable (h : codeAt (codesOfTable freq) b = some s) :
    ReachesLeaf (buildTree freq).nodes (buildTree freq).root s b := (reachesLeaf_of_codeAt_deriveCodes h).2

theorem codeAt_codesOfTable_iff (nonempty : keysOf freq ≠ []) : codeAt (codesOfTable freq) b = some s ↔
    ReachesLeaf (buildTree freq).nodes (buildTree freq).root s b :=
  (rootedTree_buildTree freq).codeAt_deriveCodes_iff ((treeWellFormed_buildTree freq).root_isInternal_iff.mpr nonempty)

theorem reachesLeaf_buildTree_iff (nonempty : keysOf freq ≠ []) :
    ReachesLeaf (buildTree freq).nodes (buildTree freq).root s b ↔
      followPath (buildTree freq).nodes (buildTree freq).root s = some (leafIdx b) ∧ countOf freq b ≠ 0#32 := by
  rw [(rootedTree_buildTree freq).reachesLeaf_iff, (treeWellFormed_buildTree freq).leaf_iff nonempty]

/-- The bytes with a code are the keys (R205 item 1). -/
theorem codeAt_codesOfTable_isSome_iff (freq : Vector Count 256) (b : Byte) :
    (codeAt (codesOfTable freq) b).isSome = true ↔ countOf freq b ≠ 0#32 := by
  by_cases empty : keysOf freq = []
  · have : b ∉ keysOf freq := by simp [empty]
    rw [codeAt_codesOfTable_of_nil empty, ← mem_keysOf]
    simp [this]
  · simp only [Option.isSome_iff_exists, codeAt_codesOfTable_iff empty, reachesLeaf_buildTree_iff empty]
    refine ⟨fun ⟨s, _, key⟩ => key, fun key => ?_⟩
    obtain ⟨f, leaf⟩ := ((treeWellFormed_buildTree freq).leaf_iff empty b).mpr key
    obtain ⟨s, hs⟩ := (rootedTree_buildTree freq).exists_followPath (j := leafIdx b) (by rw [leaf]; rfl)
    exact ⟨s, hs, key⟩

/-- With one key the code is the step to the right from the root (R163). -/
theorem codeAt_codesOfTable_of_one {k : Byte} (one : keysOf freq = [k]) : codeAt (codesOfTable freq) k = some [true] := by
  obtain ⟨hroot, -, -, records⟩ := (treeWellFormed_of_one one).mp (treeWellFormed_buildTree freq)
  have nonempty : keysOf freq ≠ [] := by simp [one]
  rw [codeAt_codesOfTable_iff nonempty, reachesLeaf_buildTree_iff nonempty, hroot, ← mem_keysOf, one]
  exact ⟨by simp [followPath, records], List.mem_singleton_self k⟩

/-- With two or more keys a code is no longer than the number of Internal nodes (R204). -/
theorem length_lt_of_codeAt_codesOfTable (many : 2 ≤ (keysOf freq).length) (h : codeAt (codesOfTable freq) b = some s) :
    s.length < (keysOf freq).length := by
  have nonempty := keysOf_ne_nil many
  have hroot := (mergedTree_buildTree many).rootIdx
  rw [codesOfTable, deriveCodes_of_internal ((treeWellFormed_buildTree freq).root_isInternal_iff.mpr nonempty)] at h
  rcases derive_length (rootedTree_buildTree freq).below h with h | ⟨-, longest⟩
  · simp at h
  · rw [List.length_nil] at longest
    omega

end Codes

/-- Settles O44: CT.GEN enters exactly the paths to Leaves, and the Leaves are those of the keys. -/
theorem codeIsThePathToTheLeaf : Obligations.CodeIsThePathToTheLeaf := fun _ _ _ nonempty =>
  (codeAt_codesOfTable_iff nonempty).trans (reachesLeaf_buildTree_iff nonempty)

/-- Settles O45: every record of the tree is reached by a path, and the indices fall along it. -/
theorem oneCodeOfLegalLengthPerKey : Obligations.OneCodeOfLegalLengthPerKey := by
  refine fun freq b => ⟨codeAt_codesOfTable_isSome_iff freq b, fun path h => ?_⟩
  obtain ⟨shortest, longest⟩ := deriveCodes_length (rootedTree_buildTree freq).below h
  refine ⟨shortest, longest, fun one => ?_, fun many => Nat.le_pred_of_lt (length_lt_of_codeAt_codesOfTable many h)⟩
  obtain ⟨k, one⟩ := List.length_eq_one_iff.mp one
  have key : b ∈ keysOf freq := mem_keysOf.mpr ((codeAt_codesOfTable_isSome_iff freq b).mp (by simp [h]))
  obtain rfl : b = k := by simpa [one] using key
  exact Option.some.inj (h.symm.trans (codeAt_codesOfTable_of_one one))

/-- Settles O46: a path that has reached a Leaf goes no further. -/
theorem codesArePrefixFree : Obligations.CodesArePrefixFree := fun _ _ _ _ _ ne h h' begins =>
  ne (eq_of_reachesLeaf_of_begins (reachesLeaf_of_codeAt_codesOfTable h) (reachesLeaf_of_codeAt_codesOfTable h') begins)

end Sys2Proof.Machine
end

section
/-! SUPPORT. The codes of two or more keys fill the code space (43_code_table.md R205 item 4). A Leaf at depth d weighs
2^(255 - d); Derive adds to the weight of the table just the weight of the node that it starts at, because that is the sum of
the weights of the node's two children. -/

namespace Sys2Proof.Machine

/-- 2^(255 - CLEN[b]), 0 for a byte without an entry. -/
def entryWeight (code : Vector (Option Bits) 256) (b : Byte) : Nat :=
  (codeAt code b).elim 0 fun s => 2 ^ (255 - s.length)

/-- The weight of all entries of a code table. -/
def codeWeight (code : Vector (Option Bits) 256) : Nat := (allBytes.map (entryWeight code)).sum

theorem entryWeight_of_none {code : Vector (Option Bits) 256} {b : Byte} (h : codeAt code b = none) :
    entryWeight code b = 0 := by
  rw [entryWeight, h, Option.elim_none]

theorem entryWeight_of_some {code : Vector (Option Bits) 256} {b : Byte} {s : Bits} (h : codeAt code b = some s) :
    entryWeight code b = 2 ^ (255 - s.length) := by
  rw [entryWeight, h, Option.elim_some]

@[simp] theorem codeWeight_replicate : codeWeight (Vector.replicate 256 none) = 0 :=
  List.sum_eq_zero fun _ hw => by
    obtain ⟨b, -, rfl⟩ := List.mem_map.mp hw
    exact entryWeight_of_none (codeAt_replicate b)

/-- A new entry adds its weight. -/
theorem codeWeight_setCode {code : Vector (Option Bits) 256} {b : Byte} (fresh : codeAt code b = none) (s : Bits) :
    codeWeight (setCode code b s) = codeWeight code + 2 ^ (255 - s.length) := by
  have new : entryWeight (setCode code b s) b = 2 ^ (255 - s.length) :=
    entryWeight_of_some (by rw [codeAt_setCode, if_pos rfl])
  have others : ∀ x ∈ allBytes.erase b, entryWeight (setCode code b s) x = entryWeight code x := by
    intro x hx
    rw [entryWeight, codeAt_setCode, if_neg (allBytes_nodup.mem_erase_iff.mp hx).1, entryWeight]
  rw [codeWeight, codeWeight, ← List.sum_map_erase _ (mem_allBytes b), ← List.sum_map_erase _ (mem_allBytes b),
    List.map_congr_left others, new, entryWeight_of_none fresh, Nat.zero_add, Nat.add_comm]

/-- A node weighs as much as its two children, one step deeper. -/
theorem two_pow_children {d : Nat} (h : d < 255) : 2 ^ (255 - (d + 1)) + 2 ^ (255 - (d + 1)) = 2 ^ (255 - d) := by
  rw [← Nat.two_mul, ← Nat.pow_succ']
  congr 1
  omega

/-- Every Internal record of the tree has two present children. -/
def FullTree (nodes : Vector Node 511) : Prop :=
  ∀ (i l r : NodeIdx) (f : Freq), nodeAt nodes i = .internal l r f →
    (nodeAt nodes l).nv = true ∧ (nodeAt nodes r).nv = true

theorem MergedTree.fullTree {freq : Vector Count 256} {nodes : Vector Node 511} {root nxt : NodeIdx} {total : Freq}
    (h : MergedTree freq nodes root total nxt) : FullTree nodes := fun _ _ _ _ e => (h.of_internal e).2.2

/-- Derive from a record adds to the table the weight of the record, when no byte below it has an entry yet and the paths
stay within 255 bits. -/
theorem codeWeight_derive {nodes : Vector Node 511} {root : NodeIdx} (tree : RootedTree nodes root) (full : FullTree nodes)
    {fuel : Nat} {i : NodeIdx} {path : Bits} {code : Vector (Option Bits) 256} (present : (nodeAt nodes i).nv = true)
    (bound : i.toNat < fuel) (short : path.length + (i.toNat - 255) ≤ 255)
    (fresh : ∀ q b, ReachesLeaf nodes i q b → codeAt code b = none) :
    codeWeight (derive nodes fuel i path code) = codeWeight code + 2 ^ (255 - path.length) := by
  induction fuel generalizing i path code with
  | zero => exact absurd bound (Nat.not_lt_zero _)
  | succ fuel ih =>
    cases e : nodeAt nodes i with
    | absent => simp [e] at present
    | leaf b f =>
      rw [derive_succ_of_leaf e, codeWeight_setCode (fresh [] b ((reachesLeaf_of_leaf e).mpr ⟨rfl, rfl⟩))]
    | internal l r f =>
      obtain ⟨hl, hr⟩ := full i l r f e
      obtain ⟨hi, ll, lr⟩ := tree.below i l r f e
      replace ll := ll.resolve_left (ne_null_of_nv hl)
      have below {q : Bits} {b : Byte} (bit : Bool) (h : ReachesLeaf nodes (if bit then r else l) q b) :
          ReachesLeaf nodes i (bit :: q) b := (reachesLeaf_cons_of_internal e bit).mpr h
      have left : codeWeight (derive nodes fuel l (path ++ [false]) code) =
          codeWeight code + 2 ^ (255 - (path.length + 1)) := by
        rw [ih hl (by omega) (by simp; omega) fun q b h => fresh _ b (below false h)]
        simp
      have fresh_right (q : Bits) (b : Byte) (h : ReachesLeaf nodes r q b) :
          codeAt (derive nodes fuel l (path ++ [false]) code) b = none := by
        rw [Option.eq_none_iff_forall_ne_some]
        intro s hs
        rcases reachesLeaf_of_codeAt_derive hs with hs | ⟨q', -, h'⟩
        · rw [fresh _ b (below true h)] at hs
          cases hs
        · cases tree.reachesLeaf_unique (below true h) (below false h')
      rw [derive_succ_of_internal e, ih hr (by omega) (by simp; omega) fresh_right, left, List.length_append,
        List.length_singleton, Nat.add_assoc, two_pow_children (by omega)]

/-- Settles O47: Derive from the root with the empty path adds the weight of the root, 2^255. -/
theorem codeLengthsFillTheCodeSpace : Obligations.CodeLengthsFillTheCodeSpace := by
  intro freq many
  have merged := mergedTree_buildTree many
  have present := (treeWellFormed_buildTree freq).root_nv
  have internal := (treeWellFormed_buildTree freq).root_isInternal_iff.mpr (keysOf_ne_nil many)
  have hroot := merged.rootIdx
  have hkeys := keysOf_length_le freq
  have keyWeight : ∀ b ∈ keysOf freq,
      2 ^ (255 - ((codeAt (codesOfTable freq) b).getD []).length) = entryWeight (codesOfTable freq) b := by
    intro b hb
    obtain ⟨s, hs⟩ := Option.isSome_iff_exists.mp ((codeAt_codesOfTable_isSome_iff freq b).mpr (mem_keysOf.mp hb))
    rw [entryWeight_of_some hs, hs, Option.getD_some]
  have noWeight : ∀ b ∈ allBytes, decide (countOf freq b ≠ 0#32) = false → entryWeight (codesOfTable freq) b = 0 := by
    intro b _ noKey
    have noCode := mt (codeAt_codesOfTable_isSome_iff freq b).mp (of_decide_eq_false noKey)
    exact entryWeight_of_none (Option.not_isSome_iff_eq_none.mp noCode)
  calc ((keysOf freq).map fun b => 2 ^ (255 - ((codeAt (codesOfTable freq) b).getD []).length)).sum
    _ = ((keysOf freq).map (entryWeight (codesOfTable freq))).sum := congrArg List.sum (List.map_congr_left keyWeight)
    _ = codeWeight (codesOfTable freq) := sum_map_filter_of_zero _ _ _ noWeight
    _ = 2 ^ 255 := by
      rw [codesOfTable, deriveCodes_of_internal internal,
        codeWeight_derive (rootedTree_buildTree freq) merged.fullTree present (by unfold Config.nnode; omega)
          (by simp; omega) fun _ b _ => codeAt_replicate b]
      simp

end Sys2Proof.Machine
end

section
/-! SUPPORT. The commands of the code table (43_code_table.md R201, R206, R207), one rule per way that each can end. -/

namespace Sys2Proof

/-- A row makes no command of operands that break its constraint (30_encoding.md R99). -/
theorem decode_error_of_build_none {op : BitVec 8} {row : OpRow} (hrow : opRow op = some row) {a : Byte} {imm : Imm}
    (none : row.build a imm = none) : ∃ e, decode (commandWord op a imm) = .error e := by
  cases decoded : decode (commandWord op a imm) with
  | error e => exact ⟨e, rfl⟩
  | ok i =>
    have made := (decode_eq_ok_iff_rowMakes.mp decoded).2
    rw [opField_commandWord, aField_commandWord, immField_commandWord, rowMakes_iff hrow, none] at made
    cases made.2

namespace Machine

/-! ## CT.GEN -/

theorem toList_eq_map_codeAt (code : Vector (Option Bits) 256) : code.toList = allBytes.map (codeAt code) := by
  apply List.ext_getElem
  · simp
  · intro i h _
    have hi : i < 256 := by simpa using h
    simp [allBytes, codeAt, Nat.mod_eq_of_lt hi]

theorem codeCount_eq (code : Vector (Option Bits) 256) :
    codeCount code = (code.toList.filter Option.isSome).length := by
  rw [toList_eq_map_codeAt, List.filter_map, List.length_map]
  rfl

section Commands

variable {s : State} {b : Byte} {k : BitVec 3} {code : Bits}

theorem exec_ctGen (unfaulted : s.unfaulted) (tree : s.core.tv = true) : exec .ctGen s =
    .next (s.okNext { s.core with code := deriveCodes s.core.nodes s.core.root, cv := true }
      (dataOfNat (codeCount (deriveCodes s.core.nodes s.core.root)))) :=
  exec_of_respond unfaulted (withNeed_ready (n := .tree) _ tree)

theorem exec_ctLen (unfaulted : s.unfaulted) (table : s.core.cv = true) : exec (.ctLen b) s =
    .next (s.okNext s.core (codeLenWord (s.core.cval b) (BitVec.ofNat 8 (s.core.clen b)))) :=
  exec_of_respond unfaulted (withNeed_ready (n := .codeTable) _ table)

theorem exec_ctBits_missing (unfaulted : s.unfaulted) (table : s.core.cv = true) (missing : codeAt s.core.code b = none) :
    exec (.ctBits b k) s = .next (s.faultNext 0x06#8 (b.setWidth 40)) :=
  exec_of_raise (f := .missingCode b) unfaulted
    ((withNeed_ready (n := .codeTable) _ table).trans (by simp only [bodyOf, ctBitsBody, missing]))

theorem exec_ctBits (unfaulted : s.unfaulted) (table : s.core.cv = true) (entry : codeAt s.core.code b = some code) :
    exec (.ctBits b k) s = .next (s.okNext s.core (dataOfNat (pack (codeChunk code k)))) :=
  exec_of_respond unfaulted
    ((withNeed_ready (n := .codeTable) _ table).trans (by simp only [bodyOf, ctBitsBody, entry]))

end Commands

/-- Settles O43: the body of CT.GEN needs TV alone, and writes what Derive gives. -/
theorem ctGenWritesTheCodeTable : Obligations.CtGenWritesTheCodeTable := by
  refine ⟨rfl, (decode_encode_iff .ctGen).mpr rfl, fun s => exec_notReady (n := .tree) rfl, fun s unfaulted tree =>
    ⟨deriveCodes s.core.nodes s.core.root, ?_, fun b f leaf => codeAt_deriveCodes_of_not_internal (by rw [leaf]; rfl),
      fun _ _ _ _ => rfl⟩⟩
  rw [exec_ctGen unfaulted tree, codeCount_eq, dataOfNat]

/-! ## CT.LEN -/

/-- The length of a code fits its field, below the valid bit (R206). -/
theorem codeLenWord_true {n : Nat} (h : n ≤ 255) : codeLenWord true (BitVec.ofNat 8 n) = BitVec.ofNat 40 (256 + n) := by
  have field : n < 2 ^ 8 := Nat.lt_succ_of_le h
  apply BitVec.eq_of_toNat_eq
  calc (codeLenWord true (BitVec.ofNat 8 n)).toNat
    _ = 1 <<< 8 ||| n := by simp (disch := omega) [codeLenWord, Nat.mod_eq_of_lt]
    _ = 1 <<< 8 + n := (Nat.shiftLeft_add_eq_or_of_lt field 1).symm
    _ = (BitVec.ofNat 40 (256 + n)).toNat := by rw [BitVec.toNat_ofNat, Nat.mod_eq_of_lt (by omega)]; rfl

/-- Settles O48: the body of CT.LEN needs CV alone, and responds on the core as it was. -/
theorem ctLenReadsValidAndLength : Obligations.CtLenReadsValidAndLength := by
  refine ⟨fun b => ⟨rfl, (decode_encode_iff (.ctLen b)).mpr rfl⟩, fun s b => exec_notReady (n := .codeTable) rfl,
    fun s b unfaulted table => ?_⟩
  rw [exec_ctLen unfaulted table, CoreState.cval, CoreState.clen]
  refine ⟨fun missing => ?_, fun code entry length => ?_⟩
  · rw [missing]
    rfl
  · rw [entry, Option.isSome_some, Option.getD_some, codeLenWord_true length]

/-! ## CT.BITS -/

theorem codeChunk_eq_nil {code : Bits} {k : BitVec 3} (past : code.length ≤ 32 * k.toNat) : codeChunk code k = [] := by
  rw [codeChunk, List.drop_eq_nil_of_le past, List.take_nil]

/-- The chunk ends at 32k+32 or at the end of the code (R207). -/
theorem codeChunk_eq_take (code : Bits) (k : BitVec 3) : codeChunk code k =
    (code.drop (32 * k.toNat)).take (min (32 * k.toNat + 32) code.length - 32 * k.toNat) := by
  rw [codeChunk, List.take_eq_take_iff, List.length_drop]
  omega

/-- A chunk number in the operand field of a command word (30_encoding.md R95). -/
theorem append_chunk_eq_commandWord (op : BitVec 8) (b : Byte) (k : BitVec 3) :
    op ++ b ++ 0#16 ++ 0#29 ++ k = commandWord op b (k.setWidth 32) := by
  have widened : k.setWidth 32 = 0#29 ++ k := BitVec.setWidth_eq_append (by decide)
  rw [widened, commandWord]
  exact BitVec.append_assoc

/-- Settles O49: the flag, then the entry, are checked, and the chunk is packed. -/
theorem ctBitsReadsAChunk : Obligations.CtBitsReadsAChunk := by
  refine ⟨fun b k => ⟨(append_chunk_eq_commandWord _ b k).symm, (decode_encode_iff (.ctBits b k)).mpr rfl⟩,
    fun b imm large => decode_error_of_build_none (op := 0x42#8) rfl (by simp [chunkOperand, large.not_ge]),
    fun s b k => exec_notReady (n := .codeTable) rfl,
    fun s b k unfaulted table => ⟨exec_ctBits_missing unfaulted table, fun code entry => ?_⟩⟩
  rw [exec_ctBits unfaulted table entry]
  refine ⟨fun past => ?_, fun _ => ?_⟩
  · rw [codeChunk_eq_nil past]
    rfl
  · rw [codeChunk_eq_take, dataOfNat]

end Machine

end Sys2Proof
end

section
/-! SUPPORT. The encoder (44_encoder.md R220, R222): ENC, one rule per way that it can end, and what a run of ENC appends. -/

namespace Sys2Proof.Machine

/-! ## ENC -/

section Commands

variable {s : State} {b : Byte} {code : Bits}

/-- The body of ENC, once its two checks have passed, is the append of the code (R220). -/
theorem withNeed_enc (table : s.core.cv = true) (entry : codeAt s.core.code b = some code) :
    withNeed (needOf (.enc b)) (bodyOf (.enc b)) s.core = appendAndRespond Config.bcap code s.core :=
  (withNeed_ready (n := .codeTable) _ table).trans (by simp only [bodyOf, encBody, entry])

theorem exec_enc_missing (unfaulted : s.unfaulted) (table : s.core.cv = true) (missing : codeAt s.core.code b = none) :
    exec (.enc b) s = .next (s.faultNext 0x06#8 (b.setWidth 40)) :=
  exec_of_raise (f := .missingCode b) unfaulted
    ((withNeed_ready (n := .codeTable) _ table).trans (by simp only [bodyOf, encBody, missing]))

theorem exec_enc_fits (unfaulted : s.unfaulted) (table : s.core.cv = true) (entry : codeAt s.core.code b = some code)
    (fits : s.core.blen + code.length ≤ Config.bcap) :
    exec (.enc b) s = .next (s.okNext { s.core with bits := s.core.bits ++ code }
      (BitVec.ofNat 40 (s.core.blen + code.length))) :=
  exec_of_respond unfaulted ((withNeed_enc table entry).trans (appendAndRespond_fits fits))

theorem exec_enc_overflows (unfaulted : s.unfaulted) (table : s.core.cv = true)
    (entry : codeAt s.core.code b = some code) (past : Config.bcap < s.core.blen + code.length) :
    exec (.enc b) s = .next (s.faultNext 0x05#8 (zext40 (BitVec.ofNat 8 code.length))) :=
  exec_of_raise unfaulted ((withNeed_enc table entry).trans (appendAndRespond_overflows past))

end Commands

/-- The length of a code fits the information word of BitOverflow (43_code_table.md R204, 60_exceptions.md R281). -/
theorem zext40_ofNat_byte {n : Nat} (h : n ≤ 255) : zext40 (BitVec.ofNat 8 n) = BitVec.ofNat 40 n :=
  BitVec.setWidth_ofNat_of_le_of_lt (by decide) (Nat.lt_succ_of_le h)

/-- Settles O50: the flag, then the entry, are checked, and the append primitive adds the code that fits, and raises
otherwise. -/
theorem encAppendsTheCode : Obligations.EncAppendsTheCode := by
  refine ⟨fun b => ⟨rfl, (decode_encode_iff (.enc b)).mpr rfl⟩, fun s b => exec_notReady (n := .codeTable) rfl,
    fun s b unfaulted table => ⟨exec_enc_missing unfaulted table, fun code => exec_enc_fits unfaulted table,
      fun code entry length past => ?_⟩⟩
  rw [exec_enc_overflows unfaulted table entry past, zext40_ofNat_byte length]

/-! ## A run of ENC (R222) -/

@[simp] theorem codesOf_nil (code : Vector (Option Bits) 256) : codesOf code [] = [] := rfl

theorem codesOf_cons_of_some {code : Vector (Option Bits) 256} {b : Byte} {bs : Bits} (entry : codeAt code b = some bs)
    (bytes : List Byte) : codesOf code (b :: bytes) = bs ++ codesOf code bytes := by
  rw [codesOf, List.flatMap_cons, entry, Option.getD_some, codesOf]

/-- ENC of each byte appends the codes in order and changes nothing else of the core, while every byte has a code and the
whole fits the buffer. -/
theorem runCommands_enc {s : State} {bytes : List Byte} (unfaulted : s.unfaulted) (table : s.core.cv = true)
    (entries : ∀ b ∈ bytes, (codeAt s.core.code b).isSome = true)
    (fits : s.core.blen + (codesOf s.core.code bytes).length ≤ Config.bcap) :
    ∃ t, runCommands (bytes.map .enc) s = .next t ∧
      t.core = { s.core with bits := s.core.bits ++ codesOf s.core.code bytes } := by
  induction bytes generalizing s with
  | nil => exact ⟨s, rfl, by simp⟩
  | cons x xs ih =>
    obtain ⟨entry, entries⟩ := List.forall_mem_cons.mp entries
    obtain ⟨bs, entry⟩ := Option.isSome_iff_exists.mp entry
    rw [codesOf_cons_of_some entry, List.length_append, ← Nat.add_assoc] at fits
    have step := exec_enc_fits unfaulted table entry (Nat.le_of_add_right_le fits)
    obtain ⟨t, run, core⟩ := ih (s := s.okNext { s.core with bits := s.core.bits ++ bs } _) unfaulted table entries
      (by simpa [CoreState.blen] using fits)
    refine ⟨t, (runCommands_cons_of_next step _).trans run, ?_⟩
    rw [core, codesOf_cons_of_some entry, ← List.append_assoc]
    rfl

/-- Settles O51: BB.CLR empties the buffer and keeps the code table and its flag, and each ENC appends the code of its
byte. -/
theorem encodingConcatenatesTheCodes : Obligations.EncodingConcatenatesTheCodes := by
  intro s bytes unfaulted table entries fits
  obtain ⟨t, run, core⟩ := runCommands_enc (bytes := bytes)
    (s := s.okNext { s.core with bits := [], rp := 0#32, dv := false } 0#40) unfaulted table entries
    (by simpa [CoreState.blen] using fits)
  refine ⟨t, (runCommands_cons_of_next (exec_bbClr unfaulted) _).trans run, ?_⟩
  rw [State.unfaulted, core]
  exact ⟨unfaulted, rfl, rfl⟩

end Sys2Proof.Machine
end

section
/-! SUPPORT. The decoder (45_decoder.md R231 to R236): a bit step is one edge of the tree, DEC.RUN is its bit steps one after
another, and the bits of a code take the cursor from the root to the code's Leaf and back. -/

namespace Sys2Proof.Machine

/-! ## DEC.RST -/

/-- The core after DEC.RST (R231). -/
abbrev CoreState.armed (c : CoreState) : CoreState := { c with cur := c.root, rp := 0#32, dv := true }

section Commands

variable {s : State}

theorem exec_decRst (unfaulted : s.unfaulted) (tree : s.core.tv = true) :
    exec .decRst s = .next (s.okNext s.core.armed 0#40) :=
  exec_of_respond unfaulted (withNeed_ready (n := .tree) _ tree)

theorem exec_decBit (unfaulted : s.unfaulted) (armed : s.core.dv = true) :
    exec .decBit s = .next (s.commit (decBitBody s.core)) := by
  rw [exec_unfaulted unfaulted, needOf, withNeed_ready (n := .decoder) _ armed, bodyOf]

theorem exec_decRun (unfaulted : s.unfaulted) (armed : s.core.dv = true) :
    exec .decRun s = .next (s.commit (decRunBody s.core)) := by
  rw [exec_unfaulted unfaulted, needOf, withNeed_ready (n := .decoder) _ armed, bodyOf]

end Commands

/-- Settles O52: the body of DEC.RST needs TV alone and always responds. -/
theorem decRstArmsTheDecoder : Obligations.DecRstArmsTheDecoder :=
  ⟨rfl, (decode_encode_iff .decRst).mpr rfl, fun _ => exec_notReady (n := .tree) rfl, fun _ => exec_decRst⟩

/-! ## The bit step (R232) -/

section Step

variable {c c' : CoreState} {e : Option Byte} {f : Cause}

theorem bitStep_of_leaf (h : (nodeAt c.nodes c.cur).isLeaf = true) :
    bitStep c = .error (.malformedStream .emptyTree c.rp) := if_pos h

/-- Bit 0 at a node without a left child has no transition (R237 case 2). -/
theorem bitStep_of_left_null {r : NodeIdx} {g : Freq} (h : nodeAt c.nodes c.cur = .internal Config.null r g)
    (bit : c.bitAt c.rp.toNat = false) : bitStep c = .error (.malformedStream .noTransition c.rp) := by
  simp [bitStep, h, bit, Node.isLeaf, Node.left]

/-- Where there is an edge for the next bit, the bit step takes it. -/
theorem bitStep_of_followPath {j : NodeIdx} (h : followPath c.nodes c.cur [c.bitAt c.rp.toNat] = some j) :
    bitStep c = .ok (arrive { c with rp := c.rp + 1#32 } j) := by
  cases hn : nodeAt c.nodes c.cur with
  | absent | leaf => simp [followPath, hn] at h
  | internal l r g =>
    cases bit : c.bitAt c.rp.toNat with
    | true =>
      obtain rfl : r = j := by simpa [followPath, hn, bit] using h
      simp [bitStep, hn, bit, Node.isLeaf, Node.right]
    | false =>
      obtain ⟨left, rfl⟩ : l ≠ Config.null ∧ l = j := by simpa [followPath, hn, bit] using h
      simp [bitStep, hn, bit, left, Node.isLeaf, Node.left]

/-- An edge to a Leaf emits its byte and sends the cursor to the root. -/
theorem bitStep_to_leaf {j : NodeIdx} {b : Byte} {g : Freq} (h : followPath c.nodes c.cur [c.bitAt c.rp.toNat] = some j)
    (leaf : nodeAt c.nodes j = .leaf b g) : bitStep c = .ok (c.moved (c.rp + 1#32) c.root, some b) := by
  rw [bitStep_of_followPath h, arrive, leaf]
  rfl

/-- An edge to a record that is no Leaf takes the cursor there. -/
theorem bitStep_to_inner {j : NodeIdx} (h : followPath c.nodes c.cur [c.bitAt c.rp.toNat] = some j)
    (inner : (nodeAt c.nodes j).isLeaf = false) : bitStep c = .ok (c.moved (c.rp + 1#32) j, none) := by
  rw [bitStep_of_followPath h]
  exact congrArg Except.ok (arrive_internal inner)

/-! ## DEC.BIT (R233) -/

/-- The data word of a step that emitted a byte: bit 8, and the byte below it. -/
theorem bitStepWord_some (b : Byte) : bitStepWord (some b) = 0#31 ++ 1#1 ++ b := by
  rw [BitVec.append_def]
  rfl

theorem decBitBody_of_ok (more : c.rp.toNat < c.blen) (moves : bitStep c = .ok (c', e)) :
    decBitBody c = { core := c', emitted := e.toList, verdict := .ok (bitStepWord e) } := by
  rw [decBitBody, if_pos more, moves]

theorem decBitBody_of_error (more : c.rp.toNat < c.blen) (raises : bitStep c = .error f) : decBitBody c = raise f c := by
  rw [decBitBody, if_pos more, raises]

theorem decBitBody_at_end (done : c.rp.toNat = c.blen) : decBitBody c =
    if c.cur = c.root then respond c endWord else raise (.malformedStream .truncated c.rp) c := by
  rw [decBitBody, if_neg done.not_lt]

end Step

/-- Settles O53: at the end of the bits the cursor is compared with the root; below it the bit step takes the edge of the bit
where there is one, and raises where there is none. -/
theorem decBitMakesOneMove : Obligations.DecBitMakesOneMove := by
  refine ⟨rfl, (decode_encode_iff .decBit).mpr rfl, fun s => exec_notReady (n := .decoder) rfl,
    fun s unfaulted armed done => ?_, fun s l r f more unfaulted armed => ?_⟩
  · rw [exec_decBit unfaulted armed, decBitBody_at_end done]
    exact ⟨fun inside => by rw [if_neg inside]; rfl, fun atRoot => by rw [if_pos atRoot]; rfl⟩
  · rw [exec_decBit unfaulted armed, ← bitAt_of_lt more]
    refine ⟨fun leaf => ?_, fun node => ⟨fun bit left => ?_, fun child edge => ?_⟩⟩
    · rw [decBitBody_of_error more (bitStep_of_leaf leaf)]
      rfl
    · subst left
      rw [decBitBody_of_error more (bitStep_of_left_null node bit)]
      rfl
    · have follows : followPath s.core.nodes s.core.cur [s.core.bitAt s.core.rp.toNat] = some child := by
        obtain ⟨bit, rfl⟩ | ⟨bit, left, rfl⟩ := edge
        · simp [followPath, node, bit]
        · simp [followPath, node, bit, left, Config.null]
      refine ⟨fun b g leaf => ?_, fun l' r' g internal => ?_⟩
      · rw [decBitBody_of_ok more (bitStep_to_leaf follows leaf), State.commit, CmdResult.transfers, CmdResult.responseWord,
          bitStepWord_some]
        rfl
      · rw [decBitBody_of_ok more (bitStep_to_inner follows (by rw [internal]; rfl))]
        rfl

/-! ## DEC.RUN (R234) -/

section Run

variable {c c' : CoreState} {e : Option Byte} {f : Cause}

theorem decRunBody_at_end (done : c.rp.toNat = c.blen) : decRunBody c =
    if c.cur = c.root then respond c 0#40 else raise (.malformedStream .truncated c.rp) c := by
  rw [decRunBody, ← done, Nat.sub_self, decRunLoop]
  rfl

/-- The result of DEC.RUN when these bytes were emitted before it: they stand first and count in the response. -/
def CmdResult.emittingFirst (first : List Byte) (r : CmdResult) : CmdResult :=
  { r with
    emitted := first ++ r.emitted
    verdict := match r.verdict with
      | .ok _ => .ok (dataOfNat (first ++ r.emitted).length)
      | .raised f => .raised f }

/-- The bytes already emitted stand before what the loop emits and add to the count. -/
theorem decRunLoop_append (n : Nat) (c : CoreState) (first out : List Byte) :
    decRunLoop n c (first ++ out) = (decRunLoop n c out).emittingFirst first := by
  induction n generalizing c out with
  | zero =>
    unfold decRunLoop
    split <;> rfl
  | succ n ih =>
    unfold decRunLoop
    split
    · rfl
    · rw [List.append_assoc, ih]

theorem CmdResult.emittingFirst_finalCore (first : List Byte) (r : CmdResult) :
    (r.emittingFirst first).finalCore = r.finalCore := by
  unfold CmdResult.finalCore emittingFirst
  cases r.verdict <;> rfl

/-- Whether a command raised is read off the fault flag it leaves, when its body leaves the flag 0. -/
theorem CmdResult.emittingFirst_responseWord {r : CmdResult} (unfaulted : r.core.flt = false) (first : List Byte) :
    (r.emittingFirst first).responseWord =
      if r.finalCore.flt then r.responseWord else okWord (dataOfNat (first.length + r.emitted.length)) := by
  unfold CmdResult.responseWord CmdResult.finalCore emittingFirst
  cases r.verdict <;> simp [unfaulted]

theorem decRunLoop_of_ok (moves : bitStep c = .ok (c', e)) (n : Nat) (out : List Byte) :
    decRunLoop (n + 1) c out = decRunLoop n c' (out ++ e.toList) := by
  rw [decRunLoop, moves]

theorem decRunBody_of_error (more : c.rp.toNat < c.blen) (raises : bitStep c = .error f) : decRunBody c = raise f c := by
  obtain ⟨n, hn⟩ := Nat.exists_eq_add_of_lt more
  rw [decRunBody, show c.blen - c.rp.toNat = n + 1 by omega, decRunLoop, raises]
  rfl

theorem rp_add_one_toNat (more : c.rp.toNat < c.blen) (bound : c.blen ≤ Config.bcap) :
    (c.rp + 1#32).toNat = c.rp.toNat + 1 := by
  have := bcap_lt
  exact BitVec.toNat_add_of_lt (by simp; omega)

/-- DEC.RUN is a bit step and then DEC.RUN. -/
theorem decRunBody_of_ok (more : c.rp.toNat < c.blen) (bound : c.blen ≤ Config.bcap) (moves : bitStep c = .ok (c', e)) :
    decRunBody c = (decRunBody c').emittingFirst e.toList := by
  have rounds : c.blen - c.rp.toNat = c'.blen - c'.rp.toNat + 1 := by
    have blen : c'.blen = c.blen := by rw [bitStep_ok moves]; rfl
    have rp : c'.rp.toNat = c.rp.toNat + 1 := by rw [bitStep_ok moves]; exact rp_add_one_toNat more bound
    omega
  rw [decRunBody, rounds, decRunLoop_of_ok moves, List.nil_append, decRunBody, ← decRunLoop_append, List.append_nil]

end Run

/-- Settles O54: the first round of the loop is the bit step of DEC.BIT, and the rounds that follow are DEC.RUN from the core
it leaves. -/
theorem decRunIsRepeatedDecBit : Obligations.DecRunIsRepeatedDecBit := by
  refine ⟨rfl, (decode_encode_iff .decRun).mpr rfl, fun s => exec_notReady (n := .decoder) rfl,
    fun s unfaulted armed done => ?_, fun s t unfaulted armed more bound h => ?_⟩
  · rw [exec_decRun unfaulted armed, decRunBody_at_end done]
    exact ⟨fun inside => by rw [if_neg inside]; rfl, fun atRoot => by rw [if_pos atRoot]; rfl⟩
  · obtain rfl := Host.Outcome.next.inj ((exec_decBit unfaulted armed).symm.trans h)
    rw [exec_decRun unfaulted armed]
    cases step : bitStep s.core with
    | error f =>
      rw [decBitBody_of_error more step, decRunBody_of_error more step]
      exact ⟨fun _ => rfl, nofun⟩
    | ok p =>
      obtain ⟨c', e⟩ := p
      have same := bitStep_ok step
      have armed' : c'.dv = true := by rw [same]; exact armed
      have unfaulted' : c'.flt = false := by rw [same]; exact unfaulted
      have still : (decRunBody c').core.flt = false := by
        obtain ⟨rp, cur, moved⟩ := decRunBody_moved c'
        rw [moved]
        exact unfaulted'
      rw [decBitBody_of_ok more step, decRunBody_of_ok more bound step]
      refine ⟨fun faulted => absurd (unfaulted'.symm.trans faulted) Bool.false_ne_true, fun _ =>
        ⟨e.toList, (decRunBody c').emitted, okWord (bitStepWord e), (decRunBody c').responseWord,
          (decRunBody c').finalCore, (List.append_assoc ..).symm, ?_, ?_⟩⟩
      · rw [exec_decRun unfaulted' armed', List.append_assoc]
        rfl
      · rw [State.commit, CmdResult.transfers, CmdResult.emittingFirst_finalCore,
          CmdResult.emittingFirst_responseWord still, List.append_assoc]
        rfl

/-! ## Decoding a concatenation of codes (R235, R236) -/

section Codes

variable {c : CoreState} {bytes : List Byte} {path rest : Bits} {b : Byte}

/-- The bit at RP is the first of the bits that remain. -/
theorem bitAt_of_drop_eq_cons {i : Nat} {bit : Bool} (bits : c.bits.drop i = bit :: rest) : c.bitAt i = bit := by
  have first : c.bits[i]? = some bit := by rw [← List.head?_drop, bits, List.head?_cons]
  rw [CoreState.bitAt, List.getD_eq_getElem?_getD, first, Option.getD_some]

/-- Behind a string read from RP on, the bits that remain are those after it. -/
theorem drop_rp_add (bound : c.blen ≤ Config.bcap) (bits : c.bits.drop c.rp.toNat = path ++ rest) :
    c.bits.drop (c.rp + BitVec.ofNat 32 path.length).toNat = rest := by
  have noWrap : (c.rp + BitVec.ofNat 32 path.length).toNat = c.rp.toNat + path.length := by
    have length := congrArg List.length bits
    rw [List.length_drop, List.length_append] at length
    have := c.rp.isLt
    have := bcap_lt
    rw [CoreState.blen] at bound
    rw [BitVec.toNat_add, BitVec.toNat_ofNat, Nat.add_mod_mod, Nat.mod_eq_of_lt (by omega)]
  rw [noWrap, ← List.drop_drop, bits, List.drop_left]

theorem exists_edge_of_reachesLeaf_cons {nodes : Vector Node 511} {i : NodeIdx} {bit : Bool}
    (h : ReachesLeaf nodes i (bit :: path) b) : ∃ j, followPath nodes i [bit] = some j ∧ ReachesLeaf nodes j path b := by
  obtain ⟨k, f, hk, leaf⟩ := h
  rw [← List.singleton_append, followPath_append, Option.bind_eq_some_iff] at hk
  obtain ⟨j, hj, hk⟩ := hk
  exact ⟨j, hj, k, f, hk, leaf⟩

/-- A record with bits to go to a Leaf is Internal. -/
theorem isLeaf_eq_false_of_reachesLeaf {nodes : Vector Node 511} {i : NodeIdx} (h : ReachesLeaf nodes i path b)
    (nonempty : path ≠ []) : (nodeAt nodes i).isLeaf = false := by
  cases hn : nodeAt nodes i with
  | absent => exact absurd h (not_reachesLeaf_of_absent hn)
  | leaf => exact absurd ((reachesLeaf_of_leaf hn).mp h).1 nonempty
  | internal => rfl

/-- The path from the cursor to a Leaf, read bit by bit, emits the Leaf's byte at its last bit and not before. -/
theorem decRunLoop_path (bound : c.blen ≤ Config.bcap) (reach : ReachesLeaf c.nodes c.cur path b) (nonempty : path ≠ [])
    (bits : c.bits.drop c.rp.toNat = path ++ rest) (n : Nat) (out : List Byte) :
    decRunLoop (path.length + n) c out =
      decRunLoop n (c.moved (c.rp + BitVec.ofNat 32 path.length) c.root) (out ++ [b]) := by
  induction path generalizing c out with
  | nil => exact absurd rfl nonempty
  | cons bit path ih =>
    obtain ⟨j, edge, reach⟩ := exists_edge_of_reachesLeaf_cons reach
    rw [← bitAt_of_drop_eq_cons bits] at edge
    have more := drop_rp_add (path := [bit]) bound bits
    cases path with
    | nil =>
      obtain ⟨k, g, hk, leaf⟩ := reach
      cases hk
      rw [List.length_singleton, Nat.add_comm, decRunLoop_of_ok (bitStep_to_leaf edge leaf), Option.toList_some]
    | cons bit' path =>
      have moves := bitStep_to_inner edge (isLeaf_eq_false_of_reachesLeaf reach (List.cons_ne_nil _ _))
      have rp : c.rp + 1#32 + BitVec.ofNat 32 (bit' :: path).length =
          c.rp + BitVec.ofNat 32 ((bit' :: path).length + 1) := by
        rw [BitVec.add_assoc, BitVec.add_comm 1#32, BitVec.ofNat_add]
      rw [List.length_cons, Nat.add_right_comm, decRunLoop_of_ok moves, Option.toList_none, List.append_nil, ← rp]
      exact ih (c := c.moved (c.rp + 1#32) j) bound reach (List.cons_ne_nil _ _) more out

/-- From the root the bits of a sequence of codes, each the path to its byte's Leaf, emit the bytes and leave the cursor at
the root. -/
theorem decRunLoop_codesOf {code : Vector (Option Bits) 256} (bound : c.blen ≤ Config.bcap) (atRoot : c.cur = c.root)
    (paths : ∀ b ∈ bytes, ∃ path, codeAt code b = some path ∧ path ≠ [] ∧ ReachesLeaf c.nodes c.root path b)
    (bits : c.bits.drop c.rp.toNat = codesOf code bytes) (out : List Byte) :
    decRunLoop (codesOf code bytes).length c out =
      { core := c.moved (c.rp + BitVec.ofNat 32 (codesOf code bytes).length) c.root
        emitted := out ++ bytes
        verdict := .ok (dataOfNat (out ++ bytes).length) } := by
  induction bytes generalizing c out with
  | nil =>
    rw [codesOf_nil, List.length_nil, decRunLoop, if_pos atRoot, BitVec.add_zero, ← atRoot, List.append_nil]
  | cons b bytes ih =>
    obtain ⟨⟨path, entry, nonempty, reach⟩, paths⟩ := List.forall_mem_cons.mp paths
    rw [codesOf_cons_of_some entry] at bits ⊢
    rw [← atRoot] at reach
    rw [List.length_append, decRunLoop_path bound reach nonempty bits,
      ih (c := c.moved _ c.root) bound rfl paths (drop_rp_add bound bits), BitVec.add_assoc, ← BitVec.ofNat_add,
      List.append_assoc, List.singleton_append]

/-- DEC.RUN from the root of the tree of a table, on the codes of keys of that table. -/
theorem decRunBody_codesOf {freq : Vector Count 256} (nodes : c.nodes = (buildTree freq).nodes)
    (root : c.root = (buildTree freq).root) (atRoot : c.cur = c.root)
    (bounds : c.rp.toNat ≤ c.blen ∧ c.blen ≤ Config.bcap) (keys : ∀ b ∈ bytes, countOf freq b ≠ 0#32)
    (bits : c.bits.drop c.rp.toNat = codesOf (codesOfTable freq) bytes) :
    decRunBody c =
      { core := c.moved (BitVec.ofNat 32 c.blen) c.cur
        emitted := bytes
        verdict := .ok (dataOfNat bytes.length) } := by
  obtain ⟨within, bound⟩ := bounds
  have rounds : (codesOf (codesOfTable freq) bytes).length = c.blen - c.rp.toNat := by
    rw [← bits, List.length_drop, CoreState.blen]
  have paths : ∀ b ∈ bytes, ∃ path, codeAt (codesOfTable freq) b = some path ∧ path ≠ [] ∧
      ReachesLeaf c.nodes c.root path b := by
    intro b hb
    obtain ⟨path, entry⟩ := Option.isSome_iff_exists.mp ((codeAt_codesOfTable_isSome_iff freq b).mpr (keys b hb))
    obtain ⟨shortest, -⟩ := deriveCodes_length (rootedTree_buildTree freq).below entry
    rw [nodes, root]
    exact ⟨path, entry, List.ne_nil_of_length_pos shortest, reachesLeaf_of_codeAt_codesOfTable entry⟩
  have last : c.rp + BitVec.ofNat 32 (c.blen - c.rp.toNat) = BitVec.ofNat 32 c.blen := by
    have sum := BitVec.ofNat_add (n := 32) c.rp.toNat (c.blen - c.rp.toNat)
    rw [Nat.add_sub_cancel' within, BitVec.ofNat_toNat, BitVec.setWidth_eq] at sum
    exact sum.symm
  rw [decRunBody, ← rounds, decRunLoop_codesOf bound atRoot paths bits, rounds, last, atRoot, List.nil_append]

end Codes

/-- Settles O55: the tree of R35 is the build of the table, so the codes are paths from the cursor to the Leaves. -/
theorem decRunEmitsTheEncodedBytes : Obligations.DecRunEmitsTheEncodedBytes := by
  intro s bytes unfaulted inv armed atRoot keys bits
  obtain ⟨nodes, root, -⟩ := (inv.tree (inv.flags.2 armed)).2
  rw [exec_decRun unfaulted armed, decRunBody_codesOf nodes root atRoot inv.bounds keys bits, State.commit,
    CmdResult.transfers, ← List.append_assoc]
  rfl

end Sys2Proof.Machine
end

section
/-! SUPPORT. The two flows (47_container_and_flows.md R262 to R264, R266) and the round trip (45_decoder.md R238): COMPRESS, and
HT.BUILD after the load of a container, leave the tree of the table and the codes of the input, which the decoder emits. -/

namespace Sys2Proof.Machine

/-! ## Succeeded runs (R270) -/

section Runs

variable {s t u : State} {i : Instr} {is : List Instr} {bytes bytes' : List Byte}

/-- From s to t every response was OK and these bytes were emitted. -/
def State.emits (s t : State) (bytes : List Byte) : Prop := ∃ ts, s.succeededWith t ts ∧ bytesOf ts = bytes

theorem State.emits.trans (h : s.emits t bytes) (h' : t.emits u bytes') : s.emits u (bytes ++ bytes') := by
  obtain ⟨ts, ⟨trace, ok⟩, rfl⟩ := h
  obtain ⟨ts', ⟨trace', ok'⟩, rfl⟩ := h'
  refine ⟨ts ++ ts', ⟨by rw [trace', trace, List.append_assoc], ?_⟩, List.filterMap_append⟩
  rw [List.all_append, ok, ok', Bool.and_true]

/-- A command that responds OK succeeds with the bytes it emits. -/
theorem emits_commit {r : CmdResult} {d : Data} (ok : r.verdict = .ok d) : s.emits (s.commit r) r.emitted := by
  have response : r.responseWord = okWord d := by rw [CmdResult.responseWord, ok]
  refine ⟨r.transfers, ⟨rfl, ?_⟩, ?_⟩
  · simp [CmdResult.transfers, response, Transfer.isOk, okWord, statusOk]
  · simp [CmdResult.transfers, bytesOf]

/-- The commands that a faulted core refuses and that emit nothing: a run of them that leaves the core unfaulted has
succeeded. -/
def Quiet (i : Instr) : Prop := runsFaulted i = false ∧ i ≠ .decBit ∧ i ≠ .decRun

/-- No fault was there before, since a faulted core refuses the command and stays faulted, and none was raised. -/
theorem emits_nil_of_exec (quiet : Quiet i) (h : exec i s = .next t) (unfaulted : t.unfaulted) :
    s.unfaulted ∧ s.emits t [] := by
  obtain ⟨gated, notBit, notRun⟩ := quiet
  rcases exec_next h with ⟨always, -⟩ | ⟨-, faulted, rfl⟩ | ⟨-, before, rfl⟩
  · cases gated.symm.trans always
  · cases faulted.symm.trans unfaulted
  · have silent : (withNeed (needOf i) (bodyOf i) s.core).emitted = [] := by
      by_contra emits
      exact (withNeed_emitted emits).elim notBit notRun
    cases ended : (withNeed (needOf i) (bodyOf i) s.core).verdict with
    | ok d => exact ⟨before, silent ▸ emits_commit ended⟩
    | raised f => simp [State.unfaulted, CmdResult.finalCore, ended] at unfaulted

theorem emits_nil_of_runCommands (quiet : ∀ i ∈ is, Quiet i) (run : runCommands is s = .next t) (unfaulted : t.unfaulted) :
    s.unfaulted ∧ s.emits t [] := by
  induction is generalizing s with
  | nil =>
    cases run
    exact ⟨unfaulted, [], ⟨(List.append_nil _).symm, rfl⟩, rfl⟩
  | cons i is ih =>
    obtain ⟨first, quiet⟩ := List.forall_mem_cons.mp quiet
    obtain ⟨s', step⟩ := exec_answers_next i s
    rw [runCommands_cons_of_next step] at run
    obtain ⟨unfaulted', rest⟩ := ih quiet run
    obtain ⟨before, here⟩ := emits_nil_of_exec first step unfaulted'
    exact ⟨before, here.trans rest⟩

theorem runCommands_append_of_next (h : runCommands is s = .next t) (js : List Instr) :
    runCommands (is ++ js) s = runCommands js t := by
  induction is generalizing s with
  | nil =>
    cases h
    rfl
  | cons i is ih =>
    obtain ⟨s', step⟩ := exec_answers_next i s
    rw [runCommands_cons_of_next step] at h
    rw [List.cons_append, runCommands_cons_of_next step, ih h]

end Runs

/-! ## Loading a container (R266) -/

section Load

variable {s : State}

/-- FT.LD of each key sets its count and no other. -/
theorem runCommands_ftLd (unfaulted : s.unfaulted) (count : Byte → Count) (keys : List Byte) :
    ∃ t, runCommands (keys.map fun b => .ftLd b (count b)) s = .next t ∧ t.unfaulted ∧
      ∀ b, countOf t.core.freq b = if b ∈ keys then count b else countOf s.core.freq b := by
  induction keys generalizing s with
  | nil => exact ⟨s, rfl, unfaulted, fun b => by simp⟩
  | cons k keys ih =>
    obtain ⟨t, run, still, counts⟩ := ih (s := s.okNext (s.core.setFreq k (count k)).withdrawDerived 0#40) unfaulted
    refine ⟨t, (runCommands_cons_of_next (exec_ftLd unfaulted) _).trans run, still, fun b => ?_⟩
    rw [counts, okNext_core, withdrawDerived_freq, countOf_setFreq, freqAt_eq]
    by_cases same : b = k <;> simp [same]

/-- BB.APP with a literal of at most 32 bits appends the literal (30_encoding.md R103). -/
theorem exec_appendLiteral {bs : Bits} (unfaulted : s.unfaulted) (short : bs.length ≤ 32)
    (fits : s.core.blen + bs.length ≤ Config.bcap) :
    ∃ t, exec (appendLiteral bs) s = .next t ∧ t.core = { s.core with bits := s.core.bits ++ bs } := by
  have n : (BitVec.ofNat 8 bs.length).toNat = bs.length := Nat.mod_eq_of_lt (by omega)
  have v : (BitVec.ofNat 32 (pack bs)).toNat = pack bs :=
    Nat.mod_eq_of_lt ((pack_lt_two_pow_length bs).trans_le (Nat.pow_le_pow_right (by decide) short))
  refine ⟨_, exec_bbApp_fits unfaulted (by rwa [n]), ?_⟩
  rw [okNext_core, n, v, unpack_pack]

/-- APPEND adds its bits, chunk by chunk, and changes nothing else (R104). -/
theorem runCommands_chunks32 {fuel : Nat} {bs : Bits} (unfaulted : s.unfaulted) (enough : bs.length ≤ fuel)
    (fits : s.core.blen + bs.length ≤ Config.bcap) :
    ∃ t, runCommands ((chunks32 fuel bs).map appendLiteral) s = .next t ∧
      t.core = { s.core with bits := s.core.bits ++ bs } := by
  induction fuel generalizing s bs with
  | zero =>
    obtain rfl := List.eq_nil_of_length_eq_zero (Nat.le_zero.mp enough)
    exact ⟨s, rfl, by simp⟩
  | succ fuel ih =>
    cases empty : bs.isEmpty with
    | true =>
      obtain rfl := List.isEmpty_iff.mp empty
      exact ⟨s, rfl, by simp⟩
    | false =>
      have nonempty : 0 < bs.length := List.length_pos_iff.mpr (by simpa using empty)
      have pieces : (bs.take 32).length + (bs.drop 32).length = bs.length := by
        rw [← List.length_append, List.take_append_drop]
      obtain ⟨t, step, core⟩ := exec_appendLiteral unfaulted (List.length_take_le 32 bs) (by omega)
      obtain ⟨u, run, core'⟩ := ih (s := t) (bs := bs.drop 32) (by rw [State.unfaulted, core]; exact unfaulted)
        (by rw [List.length_drop]; omega) (by rw [blen_appended (congrArg CoreState.bits core)]; omega)
      refine ⟨u, ?_, ?_⟩
      · rw [chunks32, empty, if_neg Bool.false_ne_true, List.map_cons, runCommands_cons_of_next step, run]
      · rw [core', core, List.append_assoc, List.take_append_drop]

/-- The load of a container leaves its table and its bits. -/
theorem runCommands_loadCommands {c : CoreState} (unfaulted : s.unfaulted) (bound : c.bits.length ≤ Config.bcap) :
    ∃ t, runCommands (loadCommands c.container) s = .next t ∧ t.unfaulted ∧ t.core.freq = c.freq ∧ t.core.bits = c.bits := by
  obtain ⟨s₁, clear, unfaulted₁, cleared⟩ := exec_ftClr_empties unfaulted
  obtain ⟨s₂, load, unfaulted₂, counts⟩ := runCommands_ftLd unfaulted₁ c.freqAt (keysOf c.freq)
  have freq : s₂.core.freq = c.freq := freq_ext fun b => by
    rw [counts, cleared, freqAt_eq]
    by_cases key : b ∈ keysOf c.freq
    · rw [if_pos key]
    · rw [if_neg key, not_not.mp (mt mem_keysOf.mpr key)]
  obtain ⟨t, append, core⟩ := runCommands_chunks32 (bs := c.bits)
    (s := s₂.okNext { s₂.core with bits := [], rp := 0#32, dv := false } 0#40) unfaulted₂ le_rfl
    (by simpa [CoreState.blen] using bound)
  refine ⟨t, ?_, by rw [State.unfaulted, core]; exact unfaulted₂, by rw [core]; exact freq, by rw [core]; rfl⟩
  have pairs : (Pseudo.loadf c.container.pairs).expand =
      .ftClr :: (keysOf c.freq).map fun b => .ftLd b (c.freqAt b) := by
    simp [Pseudo.expand, CoreState.container]
  rw [loadCommands, pairs, runCommands_append_of_next ((runCommands_cons_of_next clear _).trans load),
    runCommands_cons_of_next (exec_bbClr unfaulted₂)]
  exact append

end Load

/-! ## Compressing and decompressing (R262, R263) -/

section Flows

variable {s : State} {bytes : List Byte}

theorem exec_htBuild (unfaulted : s.unfaulted) :
    ∃ t, exec .htBuild s = .next t ∧ t.core = (htBuildBody s.core).core :=
  ⟨_, exec_of_respond unfaulted rfl, rfl⟩

/-- A core that is ready to decode this input: the tree is that of the table, and the bits are the codes of the input. -/
structure CoreState.Encodes (c : CoreState) (bytes : List Byte) : Prop where
  unfaulted : c.flt = false
  valid : c.tv = true
  nodes : c.nodes = (buildTree c.freq).nodes
  root : c.root = (buildTree c.freq).root
  keys : ∀ b ∈ bytes, countOf c.freq b ≠ 0#32
  bits : c.bits = codesOf (codesOfTable c.freq) bytes
  bound : c.blen ≤ Config.bcap

/-- The decoder emits the input (45_decoder.md R236). -/
theorem CoreState.Encodes.decodes (h : s.core.Encodes bytes) :
    ∃ t, runCommands [.decRst, .decRun] s = .next t ∧ s.emits t bytes := by
  have decoded := decRunBody_codesOf (c := s.core.armed) h.nodes h.root rfl ⟨Nat.zero_le _, h.bound⟩ h.keys h.bits
  have run := exec_decRun (s := s.okNext s.core.armed 0#40) h.unfaulted rfl
  rw [okNext_core, decoded] at run
  exact ⟨_, (runCommands_cons_of_next (exec_decRst h.unfaulted h.valid) _).trans (runCommands_cons_of_next run _),
    (emits_commit (r := respond s.core.armed 0#40) rfl).trans (emits_commit rfl)⟩

/-- HT.BUILD makes any core with the table and the codes of an input ready to decode it: no code table is needed. -/
theorem encodes_htBuild (unfaulted : s.unfaulted) (keys : ∀ b ∈ bytes, countOf s.core.freq b ≠ 0#32)
    (bits : s.core.bits = codesOf (codesOfTable s.core.freq) bytes) (bound : s.core.blen ≤ Config.bcap) :
    ∃ t, exec .htBuild s = .next t ∧ t.core.Encodes bytes := by
  obtain ⟨t, build, core⟩ := exec_htBuild unfaulted
  refine ⟨t, build, ?_⟩
  rw [core]
  exact { unfaulted := unfaulted, valid := rfl, nodes := rfl, root := rfl, keys := keys, bits := bits, bound := bound }

theorem countOf_tableOf (bytes : List Byte) (b : Byte) : countOf (tableOf bytes) b = BitVec.ofNat 32 (bytes.count b) := by
  simp [countOf, tableOf]

/-- Between its two passes COMPRESS leaves the tree and the codes of the table, and no bits. -/
theorem runCommands_build_gen_clear (unfaulted : s.unfaulted) :
    ∃ t, runCommands [.htBuild, .ctGen, .bbClr] s = .next t ∧
      t.core = { (htBuildBody s.core).core with code := codesOfTable s.core.freq, cv := true, bits := [], rp := 0#32 } := by
  obtain ⟨s₁, build, core₁⟩ := exec_htBuild unfaulted
  have unfaulted₁ : s₁.unfaulted := by rw [State.unfaulted, core₁]; exact unfaulted
  have gen := exec_ctGen unfaulted₁ (by rw [core₁]; rfl)
  refine ⟨_, (runCommands_cons_of_next build _).trans ((runCommands_cons_of_next gen _).trans
    (runCommands_cons_of_next (exec_bbClr (by exact unfaulted₁)) _)), ?_⟩
  rw [okNext_core, okNext_core, core₁]
  rfl

/-- COMPRESS raises no fault and leaves the table of the input, its tree, and the codes of the input. -/
theorem runCommands_compress (unfaulted : s.unfaulted) (fits : ∀ b, bytes.count b < 2 ^ 32)
    (codesFit : (codesOf (codesOfTable (tableOf bytes)) bytes).length ≤ Config.bcap) :
    ∃ t, runCommands (Pseudo.compress bytes).expand s = .next t ∧ t.core.Encodes bytes := by
  obtain ⟨s₁, count, unfaulted₁, counts⟩ := runCommands_ftClr_ftCnt unfaulted fits
  have freq : s₁.core.freq = tableOf bytes := freq_ext fun b => by
    rw [countOf_tableOf, ← counts, BitVec.ofNat_toNat, BitVec.setWidth_eq]
  have keys : ∀ b ∈ bytes, countOf s₁.core.freq b ≠ 0#32 := fun b hb zero => by
    have := List.count_pos_iff.mpr hb
    rw [← counts, zero] at this
    cases this
  obtain ⟨s₂, build, core₂⟩ := runCommands_build_gen_clear unfaulted₁
  have code : s₂.core.code = codesOfTable s₁.core.freq := by rw [core₂]
  have empty : s₂.core.bits = [] := by rw [core₂]
  obtain ⟨t, encode, core⟩ := runCommands_enc (s := s₂) (bytes := bytes) (by rw [State.unfaulted, core₂]; exact unfaulted₁)
    (by rw [core₂]) (fun b hb => by rw [code]; exact (codeAt_codesOfTable_isSome_iff _ b).mpr (keys b hb))
    (by rw [code, freq, CoreState.blen, empty, List.length_nil, Nat.zero_add]; exact codesFit)
  rw [core₂] at core
  refine ⟨t, ?_, ?_⟩
  · rw [Pseudo.expand, List.append_assoc, runCommands_append_of_next count, runCommands_append_of_next build, encode]
  · rw [core]
    exact
      { unfaulted := unfaulted₁, valid := rfl, nodes := rfl, root := rfl, keys := keys, bits := rfl
        bound := by rw [← freq] at codesFit; exact codesFit }

theorem quiet_of_mem_compress {i : Instr} (h : i ∈ (Pseudo.compress bytes).expand) : Quiet i := by
  simp only [Pseudo.expand, List.cons_append, List.mem_cons, List.mem_append, List.mem_map, List.not_mem_nil, or_false] at h
  obtain rfl | (⟨b, -, rfl⟩ | rfl | rfl | rfl) | ⟨b, -, rfl⟩ := h <;> simp [Quiet, runsFaulted]

theorem quiet_of_mem_loadCommands {k : Container} {i : Instr} (h : i ∈ loadCommands k) : Quiet i := by
  simp only [loadCommands, Pseudo.expand, List.cons_append, List.mem_cons, List.mem_append, List.mem_map] at h
  obtain rfl | ⟨p, -, rfl⟩ | rfl | ⟨piece, -, rfl⟩ := h <;> simp [Quiet, runsFaulted, appendLiteral]

end Flows

/-- Settles O58: COMPRESS leaves the codes of the input and their tree, and so does HT.BUILD after the load of the container;
every response before DEC.RST is OK, since a fault would last. -/
theorem roundTripEmitsTheInput : Obligations.RoundTripEmitsTheInput := by
  intro s u bytes unfaulted unfaulted' fits codesFit
  obtain ⟨t, compress, encodes⟩ := runCommands_compress unfaulted fits codesFit
  refine ⟨?_, ?_⟩
  · obtain ⟨-, compressed⟩ := emits_nil_of_runCommands (fun _ => quiet_of_mem_compress) compress encodes.unfaulted
    obtain ⟨v, decode, decoded⟩ := encodes.decodes
    obtain ⟨ts, succeeded, emitted⟩ := compressed.trans decoded
    exact ⟨v, ts, (runCommands_append_of_next compress _).trans decode, succeeded, emitted⟩
  · obtain ⟨u₁, load, unfaulted₁, freq, bits⟩ := runCommands_loadCommands unfaulted' encodes.bound
    obtain ⟨-, loaded⟩ := emits_nil_of_runCommands (fun _ => quiet_of_mem_loadCommands) load unfaulted₁
    obtain ⟨u₂, build, encodes₂⟩ := encodes_htBuild (bytes := bytes) unfaulted₁ (by rw [freq]; exact encodes.keys)
      (by rw [freq, bits]; exact encodes.bits) (by rw [CoreState.blen, bits]; exact encodes.bound)
    obtain ⟨-, built⟩ := emits_nil_of_exec (by simp [Quiet, runsFaulted]) build encodes₂.unfaulted
    obtain ⟨v, decode, decoded⟩ := encodes₂.decodes
    obtain ⟨ts, succeeded, emitted⟩ := (loaded.trans built).trans decoded
    exact ⟨t, v, ts, compress, (runCommands_append_of_next load _).trans ((runCommands_cons_of_next build _).trans decode),
      succeeded, emitted⟩

end Sys2Proof.Machine
end

section
/-! SUPPORT. The system commands (46_system.md R250 to R252): NOP, the registers that SYS.RD reads, the words of its opcode
that are no command, and the two ways out of the faulted state. -/

namespace Sys2Proof

/-! ## A word put together from its four fields (30_encoding.md R94) -/

section Fields

variable (op : BitVec 8) (a : Byte) (rsv : BitVec 16) (imm : Imm)

theorem opField_append : opField (op ++ a ++ rsv ++ imm) = op := by
  calc (op ++ a ++ rsv ++ imm).extractLsb' 56 8
    _ = (op ++ a ++ rsv).extractLsb' 24 8 := BitVec.extractLsb'_append_eq_of_le (by decide)
    _ = (op ++ a).extractLsb' 8 8 := BitVec.extractLsb'_append_eq_of_le (by decide)
    _ = op := BitVec.extractLsb'_append_eq_left

theorem aField_append : aField (op ++ a ++ rsv ++ imm) = a := by
  calc (op ++ a ++ rsv ++ imm).extractLsb' 48 8
    _ = (op ++ a ++ rsv).extractLsb' 16 8 := BitVec.extractLsb'_append_eq_of_le (by decide)
    _ = (op ++ a).extractLsb' 0 8 := BitVec.extractLsb'_append_eq_of_le (by decide)
    _ = a := BitVec.extractLsb'_append_eq_right

theorem rsvField_append : rsvField (op ++ a ++ rsv ++ imm) = rsv := by
  calc (op ++ a ++ rsv ++ imm).extractLsb' 32 16
    _ = (op ++ a ++ rsv).extractLsb' 0 16 := BitVec.extractLsb'_append_eq_of_le (by decide)
    _ = rsv := BitVec.extractLsb'_append_eq_right

theorem immField_append : immField (op ++ a ++ rsv ++ imm) = imm := BitVec.extractLsb'_append_eq_right

end Fields

/-- A word of SYS.RD's opcode is no command when its register does not exist or a field that it does not use is not 0
(R251). -/
theorem decode_sysRd_error {r : Byte} {rsv : BitVec 16} {imm : Imm}
    (illegal : 10 < r.toNat ∨ rsv ≠ 0#16 ∨ imm ≠ 0#32) : ∃ e, decode (0x01#8 ++ r ++ rsv ++ imm) = .error e := by
  cases decoded : decode (0x01#8 ++ r ++ rsv ++ imm) with
  | error e => exact ⟨e, rfl⟩
  | ok i =>
    obtain ⟨clear, unused, made⟩ := (exists_decode_eq_ok_iff (row := ⟨.a, fun a _ => (Csr.ofNumber a).map .sysRd⟩)
      (by rw [opField_append]; rfl)).mp ⟨i, decoded⟩
    rw [rsvField_append] at clear
    replace unused : imm = 0#32 := (immField_append ..).symm.trans unused
    rw [aField_append, Option.isSome_map, Csr.isSome_ofNumber, decide_eq_true_iff] at made
    obtain large | rsvSet | immSet := illegal
    · exact absurd made large.not_ge
    · exact absurd clear rsvSet
    · exact absurd unused immSet

namespace Machine

variable {s : State}

/-! ## A word that is no command (60_exceptions.md R282, R291) -/

theorem runWord_undecodable {w : Word} {e : DecodeError} (h : decode w = .error e) (s : State) :
    runWord w s = execIllegal (opField w) (aField w) s := by
  simp only [runWord, h]

theorem runWord_undecodable_unfaulted {w : Word} {e : DecodeError} (h : decode w = .error e) (unfaulted : s.unfaulted) :
    runWord w s = .next (s.faultNext 0x01#8 ((opField w ++ aField w).setWidth 40)) := by
  rw [runWord_undecodable h, execIllegal, runGated_unfaulted _ _ unfaulted]
  exact congrArg Host.Outcome.next (commit_raise s (.illegalCommand (opField w) (aField w)))

theorem runWord_undecodable_faulted {w : Word} {e : DecodeError} (h : decode w = .error e) (faulted : s.core.flt = true) :
    runWord w s = .next s.refuse := by
  rw [runWord_undecodable h, execIllegal, runGated_faulted _ _ faulted]

/-- A faulted core refuses every command but SYS.RD and SYS.RESET. -/
theorem exec_refused {i : Instr} (gated : runsFaulted i = false) (faulted : s.core.flt = true) :
    exec i s = .next s.refuse := by
  rw [exec_eq, gated, if_neg Bool.false_ne_true, runGated_faulted _ _ faulted]

/-! ## The three commands -/

theorem exec_nop (unfaulted : s.unfaulted) : exec .nop s = .next (s.okNext s.core 0#40) :=
  exec_of_respond unfaulted rfl

theorem exec_sysRd (r : Csr) (s : State) :
    exec (.sysRd r) s = .next (s.okNext s.core (csrValue Config.bcap r s.core)) := rfl

theorem exec_sysReset (s : State) : exec .sysReset s = .next (s.okNext CoreState.reset 0#40) := rfl

/-- Settles O19: the body of NOP needs no flag and always responds. -/
theorem nopDoesNothing : Obligations.NopDoesNothing :=
  ⟨rfl, (decode_encode_iff .nop).mpr rfl, fun _ => exec_nop, fun _ => exec_refused rfl⟩

/-! ## The registers (10_state.md R32, R33) -/

/-- STATUS is the sum of its flags at their places. -/
theorem zext40_status (c : CoreState) : zext40 c.status =
    BitVec.ofNat 40 (c.flt.toNat + 2 * c.tv.toNat + 4 * c.cv.toNat + 8 * c.dv.toNat) := by
  have places : ∀ flt tv cv dv : Bool,
      (BitVec.ofBool dv ++ BitVec.ofBool cv ++ BitVec.ofBool tv ++ BitVec.ofBool flt).setWidth 40 =
        BitVec.ofNat 40 (flt.toNat + 2 * tv.toNat + 4 * cv.toNat + 8 * dv.toNat) := by decide
  exact places c.flt c.tv c.cv c.dv

/-- The keys are as many as the cells that are not 0. -/
theorem ndb_eq (c : CoreState) : c.ndb = (c.freq.toList.filter fun n => decide (n ≠ 0#32)).length := by
  rw [toList_eq_map_countOf, List.filter_map, List.length_map]
  rfl

/-- Settles O20: SYS.RD responds the register whatever FLT is, and the other words of its opcode do not decode. -/
theorem sysRdReadsEachRegister : Obligations.SysRdReadsEachRegister := by
  refine ⟨fun p listed => ?_, fun s => ?_, fun r rsv imm s illegal => ?_⟩
  · have number : p.2 = p.1.number := by
      revert p
      decide
    rw [number]
    exact ⟨rfl, (decode_encode_iff (.sysRd p.1)).mpr rfl⟩
  · refine ⟨?status, rfl, rfl, rfl, rfl, rfl, rfl, rfl, rfl, ?ndb, rfl⟩
    case status => rw [exec_sysRd, csrValue, zext40_status]
    case ndb => rw [exec_sysRd, csrValue, dataOfNat, ndb_eq]
  · obtain ⟨e, undecodable⟩ := decode_sysRd_error illegal
    refine ⟨fun unfaulted => ?_, runWord_undecodable_faulted undecodable⟩
    rw [runWord_undecodable_unfaulted undecodable unfaulted, opField_append, aField_append]

/-! ## Reset (10_state.md R37, 70_reset_and_hazards.md R321) -/

theorem step_reset {rest : List HostInput} (input : s.inputs = .reset :: rest) :
    step s = .next ({ s with inputs := rest }.afterRst []) := by
  simp only [step, input]

/-- SYS.RESET is the only command that changes a faulted core. -/
theorem exec_core_of_faulted {i : Instr} {t : State} (faulted : s.core.flt = true) (h : exec i s = .next t) :
    t.core = s.core ∨ i = .sysReset := by
  cases gated : runsFaulted i with
  | false =>
    obtain rfl := Host.Outcome.next.inj ((exec_refused gated faulted).symm.trans h)
    exact .inl rfl
  | true =>
    cases i with
    | sysRd r =>
      obtain rfl := Host.Outcome.next.inj ((exec_sysRd r s).symm.trans h)
      exact .inl rfl
    | sysReset => exact .inr rfl
    | _ => cases gated

/-- Settles O10: SYS.RESET and the rst port both write the reset state, and every other command keeps a faulted core as it
is. -/
theorem sysResetLeavesTheResetState : Obligations.SysResetLeavesTheResetState := by
  refine ⟨rfl, (decode_encode_iff .sysReset).mpr rfl, exec_sysReset, fun s rest input => ⟨_, step_reset input, rfl⟩,
    fun i s t faulted h left => ?_, ?_⟩
  · refine (exec_core_of_faulted faulted h).resolve_left fun same => ?_
    rw [same, faulted] at left
    cases left
  · rintro c rfl
    have noCode (b : Byte) : codeAt CoreState.reset.code b = none := codeAt_replicate b
    refine ⟨rfl, rfl, rfl, rfl, rfl, rfl, rfl, rfl, countOf_replicate, fun i => congrArg Node.nv (nodeAt_replicate i),
      rfl, rfl, rfl, rfl, rfl, fun b => ⟨congrArg Option.isSome (noCode b), ?_⟩⟩
    exact congrArg (fun entry => (entry.getD []).length) (noCode b)

end Machine

end Sys2Proof
end

section
/-! SUPPORT. The faulted state (60_exceptions.md R282, R288 to R293): how a core enters it, what it refuses, and that reset
alone leaves it; the rst port and the idle step (70_reset_and_hazards.md R320, R321; 60_exceptions.md R301). -/

namespace Sys2Proof.Machine

/-! ## Entering the faulted state (R289, R290, R293) -/

section Result

variable {r : CmdResult} {d : Data} {f : Cause}

theorem finalCore_of_ok (ended : r.verdict = .ok d) : r.finalCore = r.core := by
  simp only [CmdResult.finalCore, ended]

theorem finalCore_of_raised (ended : r.verdict = .raised f) : r.finalCore = takeFault f r.core := by
  simp only [CmdResult.finalCore, ended]

theorem responseWord_of_raised (ended : r.verdict = .raised f) : r.responseWord = responseWord f.code f.info := by
  simp only [CmdResult.responseWord, ended]

end Result

section Checked

variable {i : Instr} {c : CoreState} {d : Data} {f : Cause}

/-- The flag that the command needs is set and its body runs, or the command is NotReady. -/
theorem withNeed_cases (i : Instr) (c : CoreState) :
    ((∀ n, needOf i = some n → c.ready n = true) ∧ withNeed (needOf i) (bodyOf i) c = bodyOf i c) ∨
      ∃ n, withNeed (needOf i) (bodyOf i) c = raise (.notReady n) c := by
  cases needOf i with
  | none => exact .inl ⟨nofun, rfl⟩
  | some n =>
    cases ready : c.ready n with
    | true => exact .inl ⟨by rintro _ ⟨⟩; exact ready, withNeed_ready _ ready⟩
    | false => exact .inr ⟨n, withNeed_missing _ ready⟩

/-- A command whose checks and body respond has its effect. -/
theorem withNeed_effect (ended : (withNeed (needOf i) (bodyOf i) c).verdict = .ok d) :
    Effect i c (withNeed (needOf i) (bodyOf i) c).core := by
  obtain ⟨ready, runs⟩ | ⟨n, notReady⟩ := withNeed_cases i c
  · rw [runs] at ended ⊢
    exact bodyOf_effect ready ended
  · rw [notReady] at ended
    cases ended

/-- What a command has done when it raises: DEC.RUN alone may have moved RP and CUR and emitted bytes. -/
theorem withNeed_raised_moved (ended : (withNeed (needOf i) (bodyOf i) c).verdict = .raised f) :
    ∃ rp cur, (withNeed (needOf i) (bodyOf i) c).core = c.moved rp cur ∧
      (i ≠ .decRun → rp = c.rp ∧ cur = c.cur ∧ (withNeed (needOf i) (bodyOf i) c).emitted = []) := by
  obtain ⟨-, runs⟩ | ⟨n, notReady⟩ := withNeed_cases i c
  · rw [runs] at ended ⊢
    by_cases run : i = .decRun
    · subst run
      obtain ⟨rp, cur, moved⟩ := decRunBody_moved c
      exact ⟨rp, cur, moved, absurd rfl⟩
    · rw [bodyOf_raised ended run]
      exact ⟨c.rp, c.cur, rfl, fun _ => ⟨rfl, rfl, rfl⟩⟩
  · rw [notReady]
    exact ⟨c.rp, c.cur, rfl, fun _ => ⟨rfl, rfl, rfl⟩⟩

end Checked

theorem Cause.code_bounds (f : Cause) : 1 ≤ f.code.toNat ∧ f.code.toNat ≤ 7 := by
  cases f <;> simp [Cause.code]

/-- Settles O15: a command that completes leaves the core unfaulted, so the command raised, and fault entry wrote the three
fault registers on what it had done by then. -/
theorem faultEntryWritesOnlyTheFaultRegisters : Obligations.FaultEntryWritesOnlyTheFaultRegisters := by
  intro i s t unfaulted h faulted
  obtain rfl := Host.Outcome.next.inj ((exec_unfaulted unfaulted).symm.trans h)
  rw [commit_core] at faulted ⊢
  cases ended : (withNeed (needOf i) (bodyOf i) s.core).verdict with
  | ok d =>
    rw [finalCore_of_ok ended, (withNeed_effect ended).unfaulted unfaulted] at faulted
    cases faulted
  | raised f =>
    obtain ⟨rp, cur, moved, still⟩ := withNeed_raised_moved ended
    obtain ⟨positive, atMost⟩ := f.code_bounds
    refine ⟨f.code, f.info, rp, cur, _, ?_, ?_, positive, atMost, still⟩
    · rw [finalCore_of_raised ended, moved]
      rfl
    · rw [commit_trace, CmdResult.transfers, responseWord_of_raised ended, ← List.append_assoc]
      rfl

/-- Settles O14: the flag is checked before the body, and so before the operand. -/
theorem commandsFaultWithoutTheirFlag : Obligations.CommandsFaultWithoutTheirFlag := by
  intro s unfaulted
  refine ⟨fun tree => ?_, fun codeTable b => ?_, fun decoder => ?_⟩
  · have notReady {i : Instr} (needs : needOf i = some .tree) := exec_notReady needs unfaulted tree
    exact ⟨notReady rfl, notReady rfl, fun i => ⟨notReady rfl, notReady rfl⟩⟩
  · have notReady {i : Instr} (needs : needOf i = some .codeTable) := exec_notReady needs unfaulted codeTable
    exact ⟨notReady rfl, notReady rfl, fun k => notReady rfl⟩
  · have notReady {i : Instr} (needs : needOf i = some .decoder) := exec_notReady needs unfaulted decoder
    exact ⟨notReady rfl, notReady rfl⟩

/-- Settles O8: the step gives the word to the core, and its op and a fields are its top 16 bits. -/
theorem undecodableWordRaisesIllegalCommand : Obligations.UndecodableWordRaisesIllegalCommand := by
  intro s w rest e input undecodable unfaulted
  rw [step_command input, runWord_undecodable_unfaulted (s := { s with inputs := rest }) undecodable unfaulted,
    opField_append_aField]

/-! ## In the faulted state (R288, R291) -/

theorem runsFaulted_eq_false {i : Instr} (notReset : i ≠ .sysReset) (notRead : ∀ r, i ≠ .sysRd r) :
    runsFaulted i = false := by
  cases i with
  | sysReset => exact absurd rfl notReset
  | sysRd r => exact absurd rfl (notRead r)
  | _ => rfl

/-- Settles O12: SYS.RD and SYS.RESET alone run without the check of FLT. -/
theorem faultedCoreRefuses : Obligations.FaultedCoreRefuses := fun s faulted =>
  ⟨fun _ notReset notRead => exec_refused (runsFaulted_eq_false notReset notRead) faulted,
    fun _ _ undecodable => runWord_undecodable_faulted undecodable faulted,
    exec_sysReset s, fun r => ⟨_, exec_sysRd r s⟩⟩

/-- A word leaves a faulted core as it is, or it is SYS.RESET. -/
theorem runWord_core_of_faulted {w : Word} {s t : State} (faulted : s.core.flt = true) (h : runWord w s = .next t) :
    t.core = s.core ∨ (t.core = CoreState.reset ∧ decode w = .ok .sysReset) := by
  cases decoded : decode w with
  | error e =>
    obtain rfl := Host.Outcome.next.inj ((runWord_undecodable_faulted decoded faulted).symm.trans h)
    exact .inl rfl
  | ok i =>
    rw [runWord_decoded decoded] at h
    refine (exec_core_of_faulted faulted h).imp_right ?_
    rintro rfl
    obtain rfl := Host.Outcome.next.inj ((exec_sysReset s).symm.trans h)
    exact ⟨rfl, rfl⟩

/-! ## The ports (70_reset_and_hazards.md R320, R321; 60_exceptions.md R301) -/

theorem step_idle {s : State} (noInput : s.inputs = []) : step s = .next s := by
  simp only [step, noInput]

theorem step_commandThenReset {s t : State} {w : Word} {taken : Nat} {rest : List HostInput}
    (input : s.inputs = .commandThenReset w taken :: rest) (run : runWord w { s with inputs := rest } = .next t) :
    step s = .next ({ s with inputs := rest }.afterRst (bytesSince s t taken)) := by
  simp only [step, input, run]

/-- Every word, legal or not, is answered with some bytes and one response (30_encoding.md R92, R93). -/
theorem runWord_answers (w : Word) (s : State) : ∃ (t : State) (bytes : List Byte) (resp : Word),
    runWord w s = .next t ∧ t.trace = s.trace ++ bytes.map .byteOut ++ [.response resp] := by
  cases decoded : decode w with
  | ok i =>
    obtain ⟨t, bytes, resp, run, -, trace, -⟩ := oneResponseForEveryCommand i s
    exact ⟨t, bytes, resp, (runWord_decoded decoded s).trans run, trace⟩
  | error e =>
    cases flt : s.core.flt with
    | true =>
      exact ⟨_, [], _, runWord_undecodable_faulted decoded flt, by rw [List.map_nil, List.append_nil, refuse_trace]⟩
    | false =>
      exact ⟨_, [], _, runWord_undecodable_unfaulted decoded flt, by rw [List.map_nil, List.append_nil, faultNext_trace]⟩

/-- Of a command's transfers its bytes alone can have gone out before its response. -/
theorem bytesSince_of_trace {s t : State} {bytes : List Byte} {resp : Word}
    (trace : t.trace = s.trace ++ bytes.map .byteOut ++ [.response resp]) (k : Nat) :
    bytesSince s t k = (bytes.take k).map .byteOut := by
  rw [bytesSince, trace, List.append_assoc, List.drop_left, List.map_take]
  simp [List.filter_map, Function.comp_def]

/-- Settles O9: rst writes the reset state, and the answer of an abandoned command is its bytes before its response. -/
theorem rstPortResetsAndIdleHolds : Obligations.RstPortResetsAndIdleHolds := by
  refine ⟨fun s rest input => ?_, fun s w taken rest input => ?_, fun s => step_idle⟩
  · rw [step_reset input, State.afterRst, List.append_nil]
    rfl
  · obtain ⟨t, bytes, resp, run, trace⟩ := runWord_answers w { s with inputs := rest }
    refine ⟨t, bytes, resp, run, trace, ?_⟩
    rw [step_commandThenReset input run, bytesSince_of_trace (s := s) trace]
    rfl

/-- Settles O13: a word keeps a faulted core or is SYS.RESET, the rst port leaves the reset state, and with no input the
core holds its state. -/
theorem faultHoldsUntilReset : Obligations.FaultHoldsUntilReset := by
  intro s t faulted h
  cases input : s.inputs with
  | nil =>
    obtain rfl := Host.Outcome.next.inj ((step_idle input).symm.trans h)
    exact .inl rfl
  | cons first rest =>
    cases first with
    | command w =>
      rw [step_command input] at h
      exact (runWord_core_of_faulted (s := { s with inputs := rest }) faulted h).imp_right fun ⟨reset, decoded⟩ =>
        ⟨reset, .inr (.inr ⟨w, rest, rfl, decoded⟩)⟩
    | reset =>
      obtain rfl := Host.Outcome.next.inj ((step_reset input).symm.trans h)
      exact .inr ⟨rfl, .inl ⟨rest, rfl⟩⟩
    | commandThenReset w taken =>
      obtain ⟨u, bytes, resp, run, -⟩ := runWord_answers w { s with inputs := rest }
      obtain rfl := Host.Outcome.next.inj ((step_commandThenReset input run).symm.trans h)
      exact .inr ⟨rfl, .inr (.inl ⟨w, taken, rest, rfl⟩)⟩

end Sys2Proof.Machine
end

section
/-! SUPPORT. Reading a container out and loading one (47_container_and_flows.md R261, R265, R266): the read-out is a run of
reading commands, each answered from the same core. -/

namespace Sys2Proof.Machine

/-! ## The data of a response as a word (30_encoding.md R96) -/

/-- The response of a completed command is its data, zero-extended. -/
theorem okWord_eq_setWidth (d : Data) : okWord d = d.setWidth 64 := by
  apply BitVec.eq_of_getLsbD_eq
  intro i hi
  simp only [okWord, statusOk, getLsbD_responseWord, BitVec.getLsbD_setWidth]
  by_cases below : i < 40
  · simp [below, hi]
  · simp [below, BitVec.getLsbD_of_ge d i (Nat.not_lt.mp below)]

theorem okWord_zext40 (n : Count) : okWord (zext40 n) = n.setWidth 64 := by
  rw [okWord_eq_setWidth, zext40, BitVec.setWidth_setWidth (by decide)]

theorem okWord_dataOfNat {n : Nat} (h : n < 2 ^ 40) : okWord (dataOfNat n) = BitVec.ofNat 64 n := by
  apply BitVec.eq_of_toNat_eq
  rw [okWord_eq_setWidth, dataOfNat, BitVec.toNat_setWidth, BitVec.toNat_ofNat, BitVec.toNat_ofNat, Nat.mod_eq_of_lt h]

/-! ## The pieces of a bit-string (30_encoding.md R104, 47_container_and_flows.md R265) -/

theorem chunks32_cons {fuel : Nat} {bs : Bits} (nonempty : bs ≠ []) :
    chunks32 (fuel + 1) bs = bs.take 32 :: chunks32 fuel (bs.drop 32) :=
  if_neg (by simpa using nonempty)

theorem chunks32_nil (fuel : Nat) : chunks32 fuel [] = [] := by
  cases fuel <;> rfl

theorem length_le_of_mem_chunks32 {fuel : Nat} {bs piece : Bits} (h : piece ∈ chunks32 fuel bs) : piece.length ≤ 32 := by
  induction fuel generalizing bs with
  | zero => cases h
  | succ fuel ih =>
    by_cases empty : bs = []
    · rw [empty, chunks32_nil] at h
      cases h
    · rw [chunks32_cons empty, List.mem_cons] at h
      obtain rfl | later := h
      · exact List.length_take_le 32 bs
      · exact ih later

/-- The pieces are the full ones, by their place, and then the bits left over, when there are any. -/
theorem chunks32_eq {fuel : Nat} {bs : Bits} (enough : bs.length ≤ fuel) :
    chunks32 fuel bs = (List.range (bs.length / 32)).map (fun j => (bs.drop (32 * j)).take 32) ++
      if bs.length % 32 = 0 then [] else [(bs.drop (32 * (bs.length / 32))).take (bs.length % 32)] := by
  induction fuel generalizing bs with
  | zero =>
    obtain rfl := List.eq_nil_of_length_eq_zero (Nat.le_zero.mp enough)
    rfl
  | succ fuel ih =>
    by_cases empty : bs = []
    · rw [empty]
      rfl
    have positive : 0 < bs.length := List.length_pos_iff.mpr empty
    rw [chunks32_cons empty, ih (by rw [List.length_drop]; omega), List.length_drop]
    by_cases short : bs.length < 32
    · rw [Nat.sub_eq_zero_of_le short.le, Nat.div_eq_of_lt short, Nat.mod_eq_of_lt short, if_neg positive.ne']
      simp [List.take_of_length_le short.le]
    · have quotient : bs.length / 32 = (bs.length - 32) / 32 + 1 := by omega
      have remainder : bs.length % 32 = (bs.length - 32) % 32 := by omega
      have shift (j : Nat) : (bs.drop 32).drop (32 * j) = bs.drop (32 * (j + 1)) := by
        rw [List.drop_drop, Nat.mul_succ, Nat.add_comm]
      rw [remainder, quotient, List.range_succ_eq_map, List.map_cons, List.map_map, shift]
      simp only [shift, Function.comp_def, Nat.mul_zero, List.drop_zero, List.cons_append]

/-! ## A run of reading commands -/

/-- In every state with this core the command completes with this data and leaves the core as it is. -/
def Reads (c : CoreState) (i : Instr) (d : Data) : Prop := ∀ s : State, s.core = c → exec i s = .next (s.okNext c d)

/-- A sequence of reads leaves the core as it is and responds their data, in order. -/
theorem runCommands_reads {c : CoreState} {is : List Instr} {ds : List Data} (reads : List.Forall₂ (Reads c) is ds)
    {s : State} (core : s.core = c) : ∃ t, runCommands is s = .next t ∧ t.core = c ∧
      t.trace = s.trace ++ (ds.map okWord).map .response := by
  induction reads generalizing s with
  | nil => exact ⟨s, rfl, core, (List.append_nil _).symm⟩
  | @cons i d is ds first _ ih =>
    obtain ⟨t, run, same, trace⟩ := ih (s := s.okNext c d) rfl
    refine ⟨t, (runCommands_cons_of_next (first s core) _).trans run, same, ?_⟩
    rw [trace, okNext_trace, List.append_assoc]
    rfl

/-! ## The read-out (R265) -/

section ReadOut

variable {c : CoreState}

theorem reads_sysRd (r : Csr) : Reads c (.sysRd r) (csrValue Config.bcap r c) := by
  rintro s rfl
  exact exec_sysRd r s

theorem reads_ftRd (unfaulted : c.flt = false) (b : Byte) : Reads c (.ftRd b) (zext40 (c.freqAt b)) := by
  rintro s rfl
  exact exec_ftRd unfaulted

/-- BB.GETW within the Bit Sequence, at an index that fits the width of BLEN. -/
theorem reads_bbGetw (unfaulted : c.flt = false) (bound : c.blen ≤ Config.bcap) {n i : Nat} (piece : n ≤ 32)
    (within : i + n ≤ c.blen) :
    Reads c (.bbGetw (BitVec.ofNat 8 n) (BitVec.ofNat 32 i)) (dataOfNat (pack ((c.bits.drop i).take n))) := by
  rintro s rfl
  have length : (BitVec.ofNat 8 n).toNat = n := Nat.mod_eq_of_lt (by omega)
  have index : (BitVec.ofNat 32 i).toNat = i :=
    Nat.mod_eq_of_lt (((Nat.le_of_add_right_le within).trans bound).trans_lt bcap_lt)
  rw [exec_bbGetw_within unfaulted (by rwa [length, index]), length, index, memRead]

/-- The data that the read-out responds: NDB, the counts, BLEN, the packed pieces. -/
def CoreState.readOutData (c : CoreState) : List Data :=
  dataOfNat c.ndb :: allBytes.map (fun b => zext40 (c.freqAt b)) ++ dataOfNat c.blen ::
    (chunks32 c.blen c.bits).map fun piece => dataOfNat (pack piece)

/-- The reads of the Bit Sequence take its pieces. -/
theorem reads_pieces (unfaulted : c.flt = false) (bound : c.blen ≤ Config.bcap) :
    List.Forall₂ (Reads c)
      ((List.range (c.blen / 32)).map (fun j => .bbGetw 32#8 (BitVec.ofNat 32 (32 * j))) ++
        if c.blen % 32 = 0 then []
        else [.bbGetw (BitVec.ofNat 8 (c.blen % 32)) (BitVec.ofNat 32 (32 * (c.blen / 32)))])
      ((chunks32 c.blen c.bits).map fun piece => dataOfNat (pack piece)) := by
  rw [CoreState.blen, chunks32_eq le_rfl, List.map_append, List.map_map]
  refine List.rel_append ?full ?last
  case full =>
    rw [List.forall₂_map_left_iff, List.forall₂_map_right_iff, List.forall₂_same]
    intro j hj
    rw [List.mem_range] at hj
    exact reads_bbGetw unfaulted bound le_rfl (show 32 * j + 32 ≤ c.bits.length by omega)
  case last =>
    split
    · exact .nil
    · exact .cons (reads_bbGetw unfaulted bound (Nat.mod_lt _ (by decide)).le (Nat.div_add_mod ..).le) .nil

theorem reads_readOutCommands (unfaulted : c.flt = false) (bound : c.blen ≤ Config.bcap) :
    List.Forall₂ (Reads c) (readOutCommands c.blen) c.readOutData := by
  have counts : List.Forall₂ (Reads c) (allBytes.map .ftRd) (allBytes.map fun b => zext40 (c.freqAt b)) := by
    rw [List.forall₂_map_left_iff, List.forall₂_map_right_iff, List.forall₂_same]
    exact fun b _ => reads_ftRd unfaulted b
  exact List.rel_append (.cons (reads_sysRd .ndb) counts) (.cons (reads_sysRd .blen) (reads_pieces unfaulted bound))

/-- Every datum fits the 40 bits of its response. -/
theorem readOutData_words (bound : c.blen ≤ Config.bcap) : c.readOutData.map okWord =
    [BitVec.ofNat 64 (keysOf c.freq).length] ++ allBytes.map (fun b => (c.freqAt b).setWidth 64) ++
      [BitVec.ofNat 64 c.blen] ++ (chunks32 c.blen c.bits).map fun piece => BitVec.ofNat 64 (pack piece) := by
  have keys : okWord (dataOfNat c.ndb) = BitVec.ofNat 64 (keysOf c.freq).length :=
    okWord_dataOfNat ((keysOf_length_le c.freq).trans_lt (by decide))
  have length : okWord (dataOfNat c.blen) = BitVec.ofNat 64 c.blen :=
    okWord_dataOfNat ((bound.trans_lt bcap_lt).trans (by decide))
  have pieces : (chunks32 c.blen c.bits).map (fun piece => okWord (dataOfNat (pack piece))) =
      (chunks32 c.blen c.bits).map fun piece => BitVec.ofNat 64 (pack piece) :=
    List.map_congr_left fun piece member => okWord_dataOfNat <| (pack_lt_two_pow_length piece).trans_le
      (Nat.pow_le_pow_right (by decide) ((length_le_of_mem_chunks32 member).trans (by decide)))
  simp [CoreState.readOutData, Function.comp_def, keys, length, pieces, okWord_zext40]

end ReadOut

/-- Settles O60: every command of the read-out reads, and its data fits a response. -/
theorem readOutGivesTheContainer : Obligations.ReadOutGivesTheContainer := by
  intro s unfaulted bound
  obtain ⟨t, run, core, trace⟩ := runCommands_reads (reads_readOutCommands unfaulted bound) rfl
  exact ⟨t, run, core, by rw [trace, readOutData_words bound]⟩

/-- Settles O59: the load leaves the table, the bits and an unfaulted core, so no command of it has raised. -/
theorem loadedContainerIsTheContainer : Obligations.LoadedContainerIsTheContainer := by
  intro c s bound unfaulted
  obtain ⟨t, load, still, freq, bits⟩ := runCommands_loadCommands unfaulted bound
  obtain ⟨-, ts, succeeded, -⟩ := emits_nil_of_runCommands (fun _ => quiet_of_mem_loadCommands) load still
  exact ⟨t, ts, load, succeeded, freq, bits⟩

end Sys2Proof.Machine
end

section
/-! SUPPORT. Words printed in 95_test_vectors.md. -/

namespace Sys2Proof

/-- Settles O1: each word is the encoding of its command, whose operands keep their constraints. -/
theorem wordsOfTheProgramsDecode : Obligations.WordsOfTheProgramsDecode := by
  refine ⟨?_, ?_, ?_, ?_, ?_, ?_, ?_, ?_, ?_, ?_, ?_, ?_, ?_⟩ <;> exact decode_eq_ok_iff.mpr ⟨rfl, rfl⟩

end Sys2Proof
end
